-- ==== Sys2Proof/Word.lean ====
section
/-!
DEFINITION. The two machine words of the block: the byte and the 32-bit word (spec rule R12: `u8`, `u32`).
-/

namespace Sys2Proof

/-- `u8` of rule R12. -/
abbrev Byte := BitVec 8

/-- `u32` of rule R12: an `E` entry, a checksum, a count register. -/
abbrev Word := BitVec 32

end Sys2Proof
end

