-- ==== Sys2Proof/Syntax.lean ====
section
/-!
DEFINITION. The instructions of the block (spec rule R10): the ten block operations a host starts (rule R72) and the
five records the Stream Decoder executes (rule R66), one constructor of `Instr` for every row of the opcode table;
and the two carriers they are encoded in: a command with its operand ports, and the bytes of a record header.
-/

namespace Sys2Proof

/-- The four block types and their tags 0, 1, 2, 3 (rule R3). -/
inductive SectorType where
  | literal
  | mode1
  | mode2form1
  | mode2form2
deriving DecidableEq, Repr

/-- The two parity layers, one fixed geometry each (rule R94); as an operand bit, 0 is P and 1 is Q (rule R72). -/
inductive Layer where
  | p
  | q
deriving DecidableEq, Repr

/-- The mode operand of the ECC Engine (rule R93); as an operand bit, 0 is `verify` and 1 is `write` (rule R72). -/
inductive EccMode where
  | verify
  | write
deriving DecidableEq, Repr

/-- The instructions, in the order of the opcode table. -/
inductive Instr where
  /-- `build_tables` (rule R76). -/
  | buildTables
  /-- `gf_double x` (rule R83). -/
  | gfDouble (x : Byte)
  /-- `gf_div3 x` (rule R84). -/
  | gfDiv3 (x : Byte)
  /-- `ck_lookup x` (rule R85). -/
  | ckLookup (x : Byte)
  /-- `fold(ck, bytes)` (rule R86). -/
  | fold (ck : Word) (bytes : List Byte)
  /-- `process(data, geometry, parity, mode)`; data region and parity field are those of the frame (rules R95, R96
  and the opcode table's row). -/
  | process (layer : Layer) (mode : EccMode)
  /-- `generate_parity(S, zero_address, mode)` (rule R104). -/
  | generateParity (zeroAddress : Bool) (mode : EccMode)
  /-- `classify(W, window_len, allow_mode1)` (rule R119). -/
  | classify (window : List Byte) (windowLen : Nat) (allowMode1 : Bool)
  /-- `encode(SRC, SNK)` (rule R135). -/
  | encode
  /-- `decode(SRC, SNK)` (rule R160). -/
  | decode
  /-- record `LIT count` (rule R149). -/
  | lit (count : Nat)
  /-- record `M1 count` (rule R150). -/
  | m1 (count : Nat)
  /-- record `M2F1 count` (rule R151). -/
  | m2f1 (count : Nat)
  /-- record `M2F2 count` (rule R152). -/
  | m2f2 (count : Nat)
  /-- the sentinel record `END` (rule R153). -/
  | endRecord
deriving DecidableEq, Repr

/-- What a host presents to start an operation: the command code of rule R72 and one port for every operand that
rule R72 lists. Operands have no encoding in the spec, so each port has its operand's own type (log 1); an operation
looks only at its own ports. -/
structure Command where
  code        : Byte
  x           : Byte := 0
  ck          : Word := 0
  bytes       : List Byte := []
  geometry    : Bool := false
  mode        : Bool := false
  zeroAddress : Bool := false
  window      : List Byte := []
  windowLen   : Nat := 0
  allowMode1  : Bool := false
deriving DecidableEq, Repr

/-- The encoded form of an instruction: a command for an operation (rule R72), the header bytes for a record
(rules R55, R56). -/
inductive Encoded where
  | command (c : Command)
  | record (header : List Byte)
deriving DecidableEq, Repr

end Sys2Proof
end

