-- ==== Sys2Proof/WellFormed.lean ====
section
/-!
DEFINITION. Which instructions are well formed: operands inside the ranges the spec gives them.
-/

namespace Sys2Proof

/-- A record's count is in `[1, 2^31)` (rules R66, R67). -/
def legalCount (count : Nat) : Bool := decide (1 ≤ count) && decide (count < 0x80000000)

/-- The operand checks, one arm per instruction. The operands of an operation have no illegal value (rule R74:
`window_len` is any natural number). -/
def Instr.wellFormed : Instr → Bool
  | .buildTables => true
  | .gfDouble _ => true
  | .gfDiv3 _ => true
  | .ckLookup _ => true
  | .fold _ _ => true
  | .process _ _ => true
  | .generateParity _ _ => true
  | .classify _ _ _ => true
  | .encode => true
  | .decode => true
  | .lit count => legalCount count
  | .m1 count => legalCount count
  | .m2f1 count => legalCount count
  | .m2f2 count => legalCount count
  | .endRecord => true

end Sys2Proof
end

