-- ==== Sys2Proof/Decode.lean ====
section
/-!
DEFINITION. The decoder, total on any command and on any bytes, rejecting by name; after it the encoder, written from
the same tables of the spec (rules R55 to R60, R66, R72); and the byte-order helpers both use (rule R37).
-/

namespace Sys2Proof

/-! ## Byte order (rule R12, rule R37) -/

/-- `LE32(v)`: the four bytes of a word, low byte first. -/
def le32 (v : Word) : List Byte :=
  [v.extractLsb' 0 8, v.extractLsb' 8 8, v.extractLsb' 16 8, v.extractLsb' 24 8]

/-- `UNLE32(s)` of a four-byte string. -/
def unle32 (s : List Byte) : Word :=
  (s.getD 0 0).setWidth 32 ||| (s.getD 1 0).setWidth 32 <<< 8
    ||| (s.getD 2 0).setWidth 32 <<< 16 ||| (s.getD 3 0).setWidth 32 <<< 24

/-! ## Type tags (rule R3) -/

/-- The tag of a block type: 0, 1, 2, 3. -/
def SectorType.tag : SectorType → Nat
  | .literal => 0
  | .mode1 => 1
  | .mode2form1 => 2
  | .mode2form2 => 3

/-- The block type of the two type bits; all four values are legal (rule R66). -/
def sectorTypeOfBits (n : Nat) : SectorType :=
  match n % 4 with
  | 0 => .literal
  | 1 => .mode1
  | 2 => .mode2form1
  | _ => .mode2form2

/-! ## The decoder -/

/-- Why bits are no instruction. -/
inductive DecodeError where
  /-- a command code outside rule R72's table -/
  | unknownCommand
  /-- the bytes end inside a record header (rule R58) -/
  | headerShort
  /-- a header that carries bits beyond 32 (rule R68) -/
  | headerOverlong
  /-- a count of `0x80000000` or more that is not the sentinel (rule R67) -/
  | countIllegal
deriving DecidableEq, Repr

/-- The geometry operand bit: 0 is P, 1 is Q (rule R72). -/
def layerOfBit (b : Bool) : Layer := if b then .q else .p

/-- The mode operand bit: 0 is `verify`, 1 is `write` (rule R72). -/
def modeOfBit (b : Bool) : EccMode := if b then .write else .verify

/-- Decoding a command by its code (the table of rule R72). -/
def decodeCommand (c : Command) : Except DecodeError Instr :=
  if c.code = 0x00#8 then .ok .buildTables
  else if c.code = 0x01#8 then .ok (.gfDouble c.x)
  else if c.code = 0x02#8 then .ok (.gfDiv3 c.x)
  else if c.code = 0x03#8 then .ok (.ckLookup c.x)
  else if c.code = 0x04#8 then .ok (.fold c.ck c.bytes)
  else if c.code = 0x08#8 then .ok (.process (layerOfBit c.geometry) (modeOfBit c.mode))
  else if c.code = 0x09#8 then .ok (.generateParity c.zeroAddress (modeOfBit c.mode))
  else if c.code = 0x0C#8 then .ok (.classify c.window c.windowLen c.allowMode1)
  else if c.code = 0x10#8 then .ok .encode
  else if c.code = 0x11#8 then .ok .decode
  else .error .unknownCommand

/-- What reading a record header gives: how many bytes were read, and either the two fields of rule R58,
`(type, num)`, or the reason there are none. -/
structure HeaderRead where
  used  : Nat
  value : Except DecodeError (SectorType × Nat)

/-- The continuation bytes of `parse_header` (rule R58): `bits` bits of `num` are gathered, `used` bytes are read. -/
def parseContinuation (type : SectorType) : (bits num used : Nat) → List Byte → HeaderRead
  | _, _, used, [] => ⟨used, .error .headerShort⟩
  | bits, num, used, c :: rest =>
    let group := c.toNat &&& 0x7F
    if 32 ≤ bits ∨ (group <<< bits) >>> 32 ≠ 0 then ⟨used + 1, .error .headerOverlong⟩
    else
      let num' := num ||| (group <<< bits)
      if c.getLsbD 7 then parseContinuation type (bits + 7) num' (used + 1) rest
      else ⟨used + 1, .ok (type, num')⟩

/-- `parse_header` (rule R58) on the bytes that lie at the read position. -/
def parseHeader : List Byte → HeaderRead
  | [] => ⟨0, .error .headerShort⟩
  | c :: rest =>
    let type := sectorTypeOfBits (c.toNat &&& 3)
    let num := (c.toNat >>> 2) &&& 0x1F
    if c.getLsbD 7 then parseContinuation type 5 num 1 rest else ⟨1, .ok (type, num)⟩

/-- The record with a given block type and count (the map of rule R66). -/
def recordOf (type : SectorType) (count : Nat) : Instr :=
  match type with
  | .literal => .lit count
  | .mode1 => .m1 count
  | .mode2form1 => .m2f1 count
  | .mode2form2 => .m2f2 count

/-- The sentinel test on the count field alone, then the count check (rules R147, R148, R70, R67). -/
def recordOfHeader (type : SectorType) (num : Nat) : Except DecodeError Instr :=
  if num = 0xFFFFFFFF then .ok .endRecord
  else if 0x80000000 ≤ num + 1 then .error .countIllegal
  else .ok (recordOf type (num + 1))

/-- Decoding a record from bytes: how many header bytes were read, and the record or the reason for none. -/
def decodeRecord (bytes : List Byte) : Nat × Except DecodeError Instr :=
  let h := parseHeader bytes
  (h.used, h.value.bind fun f => recordOfHeader f.1 f.2)

/-- The decoder of either carrier. -/
def decode : Encoded → Except DecodeError Instr
  | .command c => decodeCommand c
  | .record bytes => (decodeRecord bytes).2

/-! ## The encoder -/

/-- A continuation header byte (rule R56). -/
def continuationByte (v : Nat) : Byte := BitVec.ofNat 8 ((if 128 ≤ v then 0x80 else 0) ||| (v &&& 127))

/-- The continuation bytes of `emit_header` (rule R57), the shortest sequence. Five rounds are more than the
27 bits left after the first byte need. -/
def continuationBytes : (rounds : Nat) → (v : Nat) → List Byte
  | 0, _ => []
  | rounds + 1, v => if v = 0 then [] else continuationByte v :: continuationBytes rounds (v >>> 7)

/-- `emit_header(t, c)` (rule R57): the bytes written for a type and a 32-bit count, `c = 0` for the sentinel. -/
def headerBytes (type : SectorType) (count : Word) : List Byte :=
  let v := (count - 1).toNat
  BitVec.ofNat 8 ((if 32 ≤ v then 0x80 else 0) ||| ((v &&& 31) <<< 2) ||| type.tag) :: continuationBytes 5 (v >>> 5)

/-- The operand bit of a layer. -/
def Layer.bit : Layer → Bool
  | .p => false
  | .q => true

/-- The operand bit of a mode. -/
def EccMode.bit : EccMode → Bool
  | .verify => false
  | .write => true

/-- The encoded form of an instruction: the command with its operand ports (rule R72), or the header the encoder
writes (rules R57, R60). -/
def encode : Instr → Encoded
  | .buildTables => .command { code := 0x00#8 }
  | .gfDouble x => .command { code := 0x01#8, x := x }
  | .gfDiv3 x => .command { code := 0x02#8, x := x }
  | .ckLookup x => .command { code := 0x03#8, x := x }
  | .fold ck bytes => .command { code := 0x04#8, ck := ck, bytes := bytes }
  | .process layer mode => .command { code := 0x08#8, geometry := layer.bit, mode := mode.bit }
  | .generateParity zeroAddress mode => .command { code := 0x09#8, zeroAddress := zeroAddress, mode := mode.bit }
  | .classify window windowLen allowMode1 =>
    .command { code := 0x0C#8, window := window, windowLen := windowLen, allowMode1 := allowMode1 }
  | .encode => .command { code := 0x10#8 }
  | .decode => .command { code := 0x11#8 }
  | .lit count => .record (headerBytes .literal (BitVec.ofNat 32 count))
  | .m1 count => .record (headerBytes .mode1 (BitVec.ofNat 32 count))
  | .m2f1 count => .record (headerBytes .mode2form1 (BitVec.ofNat 32 count))
  | .m2f2 count => .record (headerBytes .mode2form2 (BitVec.ofNat 32 count))
  | .endRecord => .record (headerBytes .literal 0)

/-! ## The opcode table's numbering of bits -/

/-- The longest record header a decoder looks at: a first byte and five continuation bytes (rule R198). -/
def maxHeaderBytes : Nat := 6

/-- The bytes of a table word: bit 0 is the least significant bit of the first byte. -/
def tableBytes : (n : Nat) → (w : Nat) → List Byte
  | 0, _ => []
  | n + 1, w => BitVec.ofNat 8 w :: tableBytes n (w >>> 8)

/-- The header bytes of a table word, with zero bytes above its own bits up to the longest header. -/
def tableHeader (nbits w : Nat) : List Byte :=
  let own := tableBytes ((nbits + 7) / 8) w
  own ++ List.replicate (maxHeaderBytes - own.length) 0

/-- An 8-bit word that is one of rule R72's command codes is read as that command (the codes and the record bytes
share values and are told apart in the hardware by where they stand, log 15). -/
def tableWordIsCommand (nbits w : Nat) : Bool :=
  decide (nbits = 8) && decide (w ∈ [0x00, 0x01, 0x02, 0x03, 0x04, 0x08, 0x09, 0x0C, 0x10, 0x11])

/-- The encoded form a table word stands for: a command with every operand port zero, or a record header. -/
def tableEncoded (nbits w : Nat) : Encoded :=
  if tableWordIsCommand nbits w then .command { code := BitVec.ofNat 8 w } else .record (tableHeader nbits w)

/-- The instruction the decoder reads from a word of the opcode table. -/
def decodeTableWord (nbits w : Nat) : Option Instr :=
  match decode (tableEncoded nbits w) with
  | .ok i => some i
  | .error _ => none

end Sys2Proof
end

