-- ==== Sys2Proof/Config.lean ====
section
/-!
DEFINITION. What an implementation fixes and the spec leaves open (rule R9), and the FREE VALUES of the model:
opaque constants without a body, so that no proof can depend on what they are.
-/

namespace Sys2Proof

/-- How far `LOOKAHEAD_CAP` exceeds one sector: open (rule R9, decision D22). -/
opaque Config.lookaheadExtra : Nat

/-- `LOOKAHEAD_CAP`, any number of bytes at or above 2352 (rule R9). -/
def Config.lookaheadCap : Nat := 2352 + Config.lookaheadExtra

/-- FREE VALUE (log 10): the bytes the sink received from an operation that ended in a fatal error after it may have
written. First argument: the draw counter. Second argument: the bytes the pseudocode places before the error
(rule R172). The result is unspecified (rule R174, decision D21, U1: "the sink before the operation followed by an
unspecified byte string"). -/
opaque Config.sinkTail : Nat → List Byte → List Byte

/-- FREE VALUE (log 11): the `STAT_*` registers after an `encode` that failed (rule R138, U12: unspecified).
First argument: the draw counter; second argument: the register number of rule R23. -/
opaque Config.failedStat : Nat → Nat → Nat

/-- FREE VALUE (log 19): the bytes a window has by its `window_len` and the command does not supply. First argument:
the draw counter; second argument: which of the missing bytes. -/
opaque Config.windowByte : Nat → Nat → Byte

end Sys2Proof
end

