-- ==== Sys2Proof/Machine/State.lean ====
section
/-!
DEFINITION. The state of the block as plain data: everything the spec names (rules R13 to R40), one field each, and
the state after reset (rule R29). What is the model's own is said so at the field.
-/

namespace Sys2Proof.Machine

/-- The frame's form: cells (address, byte) with rising addresses and no cell that holds what an unlisted address
reads as, which is 0 (log 4). -/
abbrev Memory := List Host.Cell

/-- The size of the frame `S` in bytes (rule R33). -/
def frameSize : Nat := 2352

/-- The canonical form of the frame: addresses strictly rising and inside `S[0..0x92F]` (rule R33), no zero byte
listed, so that equal frames are equal lists. -/
abbrev Memory.wf (m : Memory) : Prop :=
  m.Pairwise (fun x y => x.1 < y.1) ∧ (∀ c ∈ m, c.2 ≠ 0) ∧ ∀ c ∈ m, c.1 < frameSize

/-- The three tables (rule R14), 256 entries each. -/
structure Tables where
  f : List Byte
  b : List Byte
  e : List Word
deriving DecidableEq, Repr

/-- The registers `STAT_*` (rule R23). -/
structure Stats where
  literal    : Nat
  mode1      : Nat
  mode2form1 : Nat
  mode2form2 : Nat
  bytesIn    : Nat
  bytesOut   : Nat
deriving DecidableEq, Repr

/-- The working registers of `process` and `generate_parity` and their flag `OK` (rules R15, R19). -/
structure EccRegs where
  maj      : Nat
  min      : Nat
  idx      : Nat
  accA     : Byte
  accB     : Byte
  addrSave : List Byte
  ok       : Bool
deriving DecidableEq, Repr

/-- The working registers of `classify` (rules R15, R19). -/
structure ClassifierRegs where
  c1  : Bool
  c2  : Bool
  c3  : Bool
  ckw : Word
deriving DecidableEq, Repr

/-- The run registers and the cursor of `encode` (rules R15, R18, R19). -/
structure EncoderRegs where
  runOpen  : Bool
  runType  : SectorType
  runCount : Word
  runStart : Nat
  cur      : Nat
deriving DecidableEq, Repr

/-- The read position and the record registers of `decode` (rules R15, R17). -/
structure DecoderRegs where
  rpos    : Nat
  recType : SectorType
  recNum  : Word
  recLeft : Word
deriving DecidableEq, Repr

/-- The fatal errors (rule R165). -/
inductive ErrorCode where
  | malformedHeader
  | unexpectedEndOfInput
  | corruptRecord
  | checksumMismatch
  | ioError
  | notReady
deriving DecidableEq, Repr

/-- What the engine is doing (rule R184). Between operations it is `idle`; the other two values are the intermediate
states of a running `decode` (rule R160), which rule R11 makes unobservable to the host (log 7). -/
inductive Engine where
  /-- no operation running -/
  | idle
  /-- inside `decode`, `RPOS` at a record boundary -/
  | records
  /-- inside `decode`, after `END`, `RPOS` at the trailer -/
  | trailer
deriving DecidableEq, Repr

/-- The result an operation returns to the host (rule R72, column "result"; log 8). -/
inductive Result where
  /-- no operation has returned yet, or the operation returns nothing -/
  | none
  /-- a byte: `gf_double`, `gf_div3` -/
  | byte (v : Byte)
  /-- a 32-bit value: `ck_lookup`, `fold` -/
  | word (v : Word)
  /-- the flag `ok`: `process`, `generate_parity` -/
  | ok (v : Bool)
  /-- a block type: `classify` -/
  | sector (t : SectorType)
  /-- success of `encode` or `decode` -/
  | success
  /-- the typed error that ended an operation (rule R172) -/
  | error (e : ErrorCode)
deriving DecidableEq, Repr

/-- What the host does between operations (rules R13, R33, R170, R185, R188; log 1). -/
inductive HostEvent where
  /-- start an operation -/
  | start (c : Command)
  /-- set the contents of `SRC` -/
  | setSource (bytes : List Byte)
  /-- present a sink with these bytes already in it -/
  | setSink (bytes : List Byte)
  /-- write one byte of the frame -/
  | writeFrame (address : Nat) (value : Byte)
  /-- the source will fail when a byte at or after this offset is read; `none`: never (log 9) -/
  | failSource (offset : Option Nat)
  /-- the sink will fail when it would grow past this length; `none`: never (log 9) -/
  | limitSink (length : Option Nat)
  /-- reset the block -/
  | reset
deriving DecidableEq, Repr

/-- Why a step ends without a next state: addresses the spec says do not exist. -/
inductive Fault where
  /-- Raised by a host write to a frame address outside `S[0..0x92F]` (rule R33). Safe: the model stops where the
  spec gives no space to write. -/
  | frameAddressAbsent
deriving DecidableEq, Repr

/-- Why a step has no meaning. -/
inductive Refusal where
  /-- Raised by an arm of `exec` whose instruction has no meaning yet; no arm of this model does. Safe. -/
  | notModelled (mnemonic : String)
deriving DecidableEq, Repr

/-- The state of the machine. -/
structure State where
  /-- `TBL_VALID` (rule R21) -/
  tblValid : Bool
  /-- `ERR` (rule R22) -/
  err      : BitVec 3
  /-- `STAT_*` (rule R23) -/
  stats    : Stats
  /-- `F`, `B`, `E` (rule R14) -/
  tables   : Tables
  /-- the frame `S` (rule R34) -/
  frame    : Memory
  /-- the bytes held in the lookahead buffer `LA` (rule R35) -/
  la       : List Byte
  /-- the source offset at which the next refill of `LA` goes on (rules R26, R127) -/
  laPos    : Nat
  /-- the source `SRC` (rule R39) -/
  src      : List Byte
  /-- the sink `SNK` (rule R40) -/
  snk      : List Byte
  /-- `CK` (rules R15, R20) -/
  ck       : Word
  /-- `MAJ`, `MIN`, `IDX`, `ACC_A`, `ACC_B`, `ADDR_SAVE`, `OK` -/
  ecc      : EccRegs
  /-- `C1`, `C2`, `C3`, `CKW` -/
  cls      : ClassifierRegs
  /-- `RUN_*`, `CUR` -/
  enc      : EncoderRegs
  /-- `RPOS`, `REC_*` -/
  dec      : DecoderRegs
  /-- idle or inside a `decode` (rules R29, R184) -/
  engine   : Engine
  /-- the sink's position when the operation started (rules R40, R180) -/
  snkStart : Nat
  /-- the result the host reads (rule R13) -/
  result   : Result
  /-- the MODEL's own: what the host does next, oldest first (log 1) -/
  host     : List HostEvent
  /-- the MODEL's own: where the source fails (rule R170, log 9) -/
  srcFail  : Option Nat
  /-- the MODEL's own: the length the sink cannot pass (rule R170, log 9) -/
  snkCap   : Option Nat
  /-- the MODEL's own: index of the next free value (log 10) -/
  draws    : Nat
deriving DecidableEq, Repr

/-- The state right after reset (rules R29, R185). `TBL_VALID`, `ERR`, `STAT_*`, the empty lookahead buffer and the
idle engine are the spec's values; every other value is a DESIGN CHOICE (logs 1 to 10). -/
def State.reset : State where
  tblValid := false
  err := 0
  stats := ⟨0, 0, 0, 0, 0, 0⟩
  tables := ⟨List.replicate 256 0, List.replicate 256 0, List.replicate 256 0⟩
  frame := []
  la := []
  laPos := 0
  src := []
  snk := []
  ck := 0
  ecc := ⟨0, 0, 0, 0, 0, [0, 0, 0, 0], false⟩
  cls := ⟨false, false, false, 0⟩
  enc := ⟨false, .literal, 0, 0, 0⟩
  dec := ⟨0, .literal, 0, 0⟩
  engine := .idle
  snkStart := 0
  result := .none
  host := []
  srcFail := none
  snkCap := none
  draws := 0

end Sys2Proof.Machine
end

