-- ==== Sys2Proof/Machine/Ops.lean ====
section
/-!
DEFINITION. The named operations over the frame, the tables, the source, the sink and the registers, and taking a
fatal error as one shared operation (rules R12, R39, R40, R86, R165 to R175). There is no return from an error
(rule R175).
-/

namespace Sys2Proof.Machine

/-! ## The frame: one byte at a time (rule R38) -/

/-- `S[a]`. -/
def Memory.read : Memory → Nat → Byte
  | [], _ => 0
  | (k, v) :: rest, a => if k = a then v else Memory.read rest a

/-- `S[a] <- v`, keeping the canonical form: writing 0 removes the cell. -/
def Memory.write : Memory → Nat → Byte → Memory
  | [], a, v => if v = 0 then [] else [(a, v)]
  | (k, x) :: rest, a, v =>
    if a < k then (if v = 0 then (k, x) :: rest else (a, v) :: (k, x) :: rest)
    else if a = k then (if v = 0 then rest else (a, v) :: rest)
    else (k, x) :: Memory.write rest a v

/-- `MemRead(S, a, n)`: ascending byte reads (rule R12). -/
def Memory.readBytes (m : Memory) (a n : Nat) : List Byte := (List.range n).map fun i => m.read (a + i)

/-- `MemWrite(S, a, n, v)`: ascending byte writes (rule R12). -/
def Memory.writeBytes : Memory → Nat → List Byte → Memory
  | m, _, [] => m
  | m, a, b :: bs => Memory.writeBytes (m.write a b) (a + 1) bs

/-- The frame that holds a byte string from `base` on and reads 0 elsewhere: the classifier's view of its window
(rules R34, R117). -/
def Memory.ofBytes : (base : Nat) → List Byte → Memory
  | _, [] => []
  | base, b :: bs => if b = 0 then Memory.ofBytes (base + 1) bs else (base, b) :: Memory.ofBytes (base + 1) bs

/-! ## Byte strings -/

/-- `X[a +: n]` (rule R12). -/
def slice (x : List Byte) (a n : Nat) : List Byte := (x.drop a).take n

/-! ## Table reads: one whole entry at a time (rule R36) -/

/-- `F[x]`. -/
def Tables.double (t : Tables) (x : Byte) : Byte := t.f.getD x.toNat 0

/-- `B[x]`. -/
def Tables.div3 (t : Tables) (x : Byte) : Byte := t.b.getD x.toNat 0

/-- `E[x]`. -/
def Tables.check (t : Tables) (x : Byte) : Word := t.e.getD x.toNat 0

/-- One step of the checksum fold: `(ck >> 8) ^ E[(ck ^ byte) & 0xFF]` (rule R86). -/
def Tables.foldByte (t : Tables) (ck : Word) (b : Byte) : Word := (ck >>> 8) ^^^ t.check (ck.setWidth 8 ^^^ b)

/-- `fold(ck, bytes)` (rule R86). -/
def Tables.fold (t : Tables) (ck : Word) (bytes : List Byte) : Word := bytes.foldl t.foldByte ck

/-! ## Fatal errors (rules R165 to R175) -/

/-- The number `ERR` holds (rule R165). -/
def ErrorCode.code : ErrorCode → BitVec 3
  | .malformedHeader => 1
  | .unexpectedEndOfInput => 2
  | .corruptRecord => 3
  | .checksumMismatch => 4
  | .ioError => 5
  | .notReady => 6

/-- Whether the rules leave the sink open after this error. `NotReady` and `MalformedHeader` come before any byte is
written (rules R171, R166) and `ChecksumMismatch` after all of them (rule R158); after the other three the sink is
the sink before the operation followed by an unspecified byte string (rule R174). -/
def ErrorCode.leavesSinkOpen : ErrorCode → Bool
  | .malformedHeader => false
  | .unexpectedEndOfInput => true
  | .corruptRecord => true
  | .checksumMismatch => false
  | .ioError => true
  | .notReady => false

/-- The bytes the running operation has appended so far. -/
def State.appended (s : State) : List Byte := s.snk.drop s.snkStart

/-- The sink after an error (rule R174); the unspecified string is a free value (log 10). -/
def sinkAfterError (e : ErrorCode) (s : State) : List Byte :=
  if e.leavesSinkOpen then s.snk.take s.snkStart ++ Config.sinkTail s.draws s.appended else s.snk

/-- `raise E` (rule R172): the operation ends, `ERR` holds the code, the engine is idle, nothing is saved for a
resume, tables and `TBL_VALID` are untouched. -/
def raise (e : ErrorCode) (s : State) : State :=
  { s with
    err := e.code
    engine := .idle
    result := .error e
    snk := sinkAfterError e s
    draws := if e.leavesSinkOpen then s.draws + 1 else s.draws }

/-- An operation that ran into an error: the error and the state at the point where it was raised. -/
structure Abort where
  error : ErrorCode
  state : State

/-- The end of a part of an operation that may have raised. -/
def settle : Except Abort State → State
  | .ok s => s
  | .error a => raise a.error a.state

/-- `NotReady` unless the tables are built (rules R171, R189). -/
def whenReady (s : State) (operation : State → State) : State :=
  if s.tblValid then operation s else raise .notReady s

/-- An operation that returns a value and changes nothing else. -/
def State.returning (s : State) (r : Result) : State := { s with result := r }

/-- The successful end of `encode` or `decode`: `ERR <- 0` (rules R22, R134, R158, R197). -/
def State.succeed (s : State) : State := { s with err := 0, engine := .idle, result := .success }

/-! ## Source and sink (rules R39, R40, R170) -/

/-- How many bytes of `SRC` can be read before it ends or fails. -/
def State.srcLimit (s : State) : Nat :=
  match s.srcFail with
  | none => s.src.length
  | some offset => min offset s.src.length

/-- The error of a read that reaches past `srcLimit`: a failing device (rule R170), or the end of the source
(rule R167). -/
def State.shortError (s : State) : ErrorCode :=
  if s.srcLimit < s.src.length then .ioError else .unexpectedEndOfInput

/-- `SrcRead(a, n)` (rule R39). -/
def srcRead (a n : Nat) (s : State) : Except Abort (List Byte) :=
  if a + n ≤ s.srcLimit then .ok (slice s.src a n) else .error ⟨s.shortError, s⟩

/-- `SnkWrite(bytes)` without a failing sink: `SNK <- SNK ‖ bytes` (rule R40). -/
def State.append (s : State) (bytes : List Byte) : State := { s with snk := s.snk ++ bytes }

/-- Whether a sink of this length has passed the capacity of a failing sink (log 9). -/
def State.sinkFull (s : State) (length : Nat) : Bool :=
  match s.snkCap with
  | none => false
  | some cap => decide (cap < length)

/-- `SnkWrite(bytes)` (rules R40, R170). -/
def snkWrite (bytes : List Byte) (s : State) : Except Abort State :=
  if s.sinkFull (s.snk.length + bytes.length) then .error ⟨.ioError, s⟩ else .ok (s.append bytes)

/-! ## The registers a host can read (rules R21 to R24); all are read-only to it -/

/-- The value of register `n`; there are eight registers and no other (rule R24). -/
def State.readRegister (s : State) (n : Nat) : Option Nat :=
  match n with
  | 0 => some (if s.tblValid then 1 else 0)
  | 1 => some s.err.toNat
  | 2 => some s.stats.literal
  | 3 => some s.stats.mode1
  | 4 => some s.stats.mode2form1
  | 5 => some s.stats.mode2form2
  | 6 => some s.stats.bytesIn
  | 7 => some s.stats.bytesOut
  | _ => none

/-- `STAT_COUNT[t]`. -/
def Stats.count (st : Stats) : SectorType → Nat
  | .literal => st.literal
  | .mode1 => st.mode1
  | .mode2form1 => st.mode2form1
  | .mode2form2 => st.mode2form2

/-- `STAT_COUNT[t] <- STAT_COUNT[t] + n` (rule R133). -/
def Stats.addCount (st : Stats) (t : SectorType) (n : Nat) : Stats :=
  match t with
  | .literal => { st with literal := st.literal + n }
  | .mode1 => { st with mode1 := st.mode1 + n }
  | .mode2form1 => { st with mode2form1 := st.mode2form1 + n }
  | .mode2form2 => { st with mode2form2 := st.mode2form2 + n }

/-- All six at zero (rule R23). -/
def Stats.zero : Stats := ⟨0, 0, 0, 0, 0, 0⟩

/-- The six registers after a failed `encode`: free values (rule R138, log 11). -/
def Stats.free (draw : Nat) : Stats where
  literal := Config.failedStat draw 2
  mode1 := Config.failedStat draw 3
  mode2form1 := Config.failedStat draw 4
  mode2form2 := Config.failedStat draw 5
  bytesIn := Config.failedStat draw 6
  bytesOut := Config.failedStat draw 7

/-! ## What the host does between operations (rules R13, R33, R170, R185, R188) -/

/-- Reset (rule R185): the state of rule R29; `SRC`, `SNK` and the rest of the host's side are the host's and are not
reset. -/
def resetBlock (s : State) : State :=
  { State.reset with
    src := s.src, snk := s.snk, host := s.host, srcFail := s.srcFail, snkCap := s.snkCap, draws := s.draws }

/-- A host write of a frame byte; an address outside `S[0..0x92F]` does not exist (rule R33). -/
def hostWriteFrame (address : Nat) (value : Byte) (s : State) : Host.Outcome State Fault Refusal :=
  if address < frameSize then .next { s with frame := s.frame.write address value } else .fault .frameAddressAbsent

end Sys2Proof.Machine
end

