-- ==== Sys2Proof/Machine/Operands.lean ====
section
/-!
DEFINITION. The operand forms: the two geometries and the regions of the frame they work on (rules R94, R104), the
sizes, payloads and fixed bytes of the block types (rules R43 to R46), and the lookahead window (rules R35, R127).
-/

namespace Sys2Proof.Machine

/-! ## Geometries (rule R94) -/

/-- An `EccGeometry`: the four integers of rule R94. -/
structure Geometry where
  majorCount      : Nat
  minorCount      : Nat
  majorMultiplier : Nat
  minorIncrement  : Nat
deriving DecidableEq, Repr

/-- The two fixed instances (rule R94; from general knowledge, log 16). -/
def geometry : Layer → Geometry
  | .p => ⟨86, 24, 2, 86⟩
  | .q => ⟨52, 43, 86, 88⟩

/-- `size = major_count × minor_count` (rule R94). -/
def Geometry.size (g : Geometry) : Nat := g.majorCount * g.minorCount

/-- The starting index of a major: `(major div 2) * major_multiplier + (major mod 2)` (rule R97). -/
def Geometry.start (g : Geometry) (maj : Nat) : Nat := maj / 2 * g.majorMultiplier + maj % 2

/-- The first frame address of the data region of both layers (rule R104). -/
def dataBase : Nat := 0x00C

/-- The first frame address of a layer's parity field (rule R104; from general knowledge, log 16). -/
def parityBase : Layer → Nat
  | .p => 0x81C
  | .q => 0x8C8

/-- The first frame address and the length of the 4-byte address field (rule R105). -/
def addressBase : Nat := 0x00C

/-! ## Block types (rules R3, R46) -/

/-- The raw size of a block (rules R9, R132). -/
def blockSize : SectorType → Nat
  | .literal => 1
  | .mode1 => 2352
  | .mode2form1 => 2336
  | .mode2form2 => 2336

/-- The stored bytes of a raw block (rules R62 to R65, R133). -/
def payload : SectorType → List Byte → List Byte
  | .literal, blk => blk
  | .mode1, blk => slice blk 0x00C 3 ++ slice blk 0x010 2048
  | .mode2form1, blk => slice blk 0x004 2052
  | .mode2form2, blk => slice blk 0x004 2328

/-- The number of stored bytes per block (rule R46). -/
def payloadSize : SectorType → Nat
  | .literal => 1
  | .mode1 => 2051
  | .mode2form1 => 2052
  | .mode2form2 => 2328

/-- The sync pattern `00 FF×10 00` (rules R43, R114). -/
def syncPattern : List Byte := [0x00, 0xFF, 0xFF, 0xFF, 0xFF, 0xFF, 0xFF, 0xFF, 0xFF, 0xFF, 0xFF, 0x00]

/-- The magic `45 43 4D 00` (rule R53). -/
def magic : List Byte := [0x45, 0x43, 0x4D, 0x00]

/-! ## The lookahead buffer (rules R35, R127) -/

/-- How many bytes the classifier can use at most: one whole sector (rule R35). -/
def windowMax : Nat := 2352

/-- Refill: when fewer than 2352 bytes are buffered at the cursor and the source has more, read on from where the
last refill ended. The model reads as many bytes as one window needs and compacts at once, a schedule every
`LOOKAHEAD_CAP` allows (rule R131, log 12). -/
def refill (s : State) : State :=
  let more := slice s.src s.laPos (windowMax - s.la.length)
  { s with la := s.la ++ more, laPos := s.laPos + more.length }

end Sys2Proof.Machine
end

