-- ==== Sys2Proof/Machine/Flags.lean ====
section
/-!
DEFINITION. The flag computations (rule R19): the fixed-field, address and checksum conditions behind the candidate
flags `C1`, `C2`, `C3` (rules R113 to R116), and the condition under which a run is closed (rule R130).
-/

namespace Sys2Proof.Machine

/-- The start value of `C1` (rules R113, R123). -/
def mode1Allowed (windowLen : Nat) (allowMode1 : Bool) : Bool := allowMode1 && decide (2352 ≤ windowLen)

/-- The `Mode1` fixed fields: sync pattern, mode byte `01` at `0x0F`, eight zero bytes at `0x814` (rule R114). -/
def mode1FixedFields (w : List Byte) : Bool :=
  decide (slice w 0x000 12 = syncPattern) && decide (slice w 0x00F 1 = [0x01])
    && decide (slice w 0x814 8 = List.replicate 8 0x00)

/-- The duplicated address of the Mode2 forms (rule R115). -/
def addressDuplicated (w : List Byte) : Bool := decide (slice w 0x000 4 = slice w 0x004 4)

/-- A stored checksum field at `offset` against an accumulator (rules R90, R116). -/
def checksumMatches (w : List Byte) (offset : Nat) (ck : Word) : Bool := decide (slice w offset 4 = le32 ck)

/-- Whether the next block opens a new run: no run is open, the type differs, or the run is full (rules R130, R136). -/
def startsRun (r : EncoderRegs) (t : SectorType) : Bool :=
  !r.runOpen || decide (t ≠ r.runType) || decide (r.runCount = 0x7FFFFFFF#32)

end Sys2Proof.Machine
end

