-- ==== Sys2Proof/Machine/EccEngine.lean ====
section
/-!
DEFINITION. The ECC Engine (41_ecc_engine.md): `process` for one parity layer and `generate_parity` for both.
-/

namespace Sys2Proof.Machine

/-- What a pass leaves: its flag, the working registers, the frame. -/
structure EccOut where
  ok    : Bool
  regs  : EccRegs
  frame : Memory

/-- The inner walk: `steps` reads of the data region (rules R96, R97, R98). -/
def eccWalk (t : Tables) (g : Geometry) (m : Memory) : (steps : Nat) → EccRegs → EccRegs
  | 0, r => r
  | steps + 1, r =>
    let b := m.read (dataBase + r.idx)
    eccWalk t g m steps
      { r with
        idx := (r.idx + g.minorIncrement) % g.size
        accA := t.double (r.accA ^^^ b)
        accB := r.accB ^^^ b
        min := r.min + 1 }

/-- The registers at the start of a major's walk (rules R96, R97, R98). -/
def majorStart (g : Geometry) (maj : Nat) (r : EccRegs) : EccRegs :=
  { r with maj := maj, min := 0, idx := g.start maj, accA := 0, accB := 0 }

/-- The walk of one major. -/
def eccMajor (t : Tables) (g : Geometry) (m : Memory) (maj : Nat) (r : EccRegs) : EccRegs :=
  eccWalk t g m g.minorCount (majorStart g maj r)

/-- The first parity byte `p0 = B[F[ACC_A] ^ ACC_B]` (rule R99). -/
def parity0 (t : Tables) (r : EccRegs) : Byte := t.div3 (t.double r.accA ^^^ r.accB)

/-- The second parity byte `p1 = p0 ^ ACC_B` (rule R99). -/
def parity1 (t : Tables) (r : EccRegs) : Byte := parity0 t r ^^^ r.accB

/-- The loop of `process` over the majors from `maj` on (rules R96, R100, R101): `verify` stops at the first parity
byte that differs, `write` overwrites both bytes. -/
def processFrom (t : Tables) (layer : Layer) (mode : EccMode) : (left maj : Nat) → EccRegs → Memory → EccOut
  | 0, maj, r, m => ⟨true, { r with maj := maj, ok := true }, m⟩
  | left + 1, maj, r, m =>
    let g := geometry layer
    let r' := eccMajor t g m maj r
    let a0 := parityBase layer + maj
    let a1 := parityBase layer + maj + g.majorCount
    match mode with
    | .verify =>
      if m.read a0 = parity0 t r' ∧ m.read a1 = parity1 t r' then processFrom t layer mode left (maj + 1) r' m
      else ⟨false, { r' with ok := false }, m⟩
    | .write =>
      processFrom t layer mode left (maj + 1) r' ((m.write a0 (parity0 t r')).write a1 (parity1 t r'))

/-- `process` over a frame (rule R96). -/
def processFrame (t : Tables) (layer : Layer) (mode : EccMode) (r : EccRegs) (m : Memory) : EccOut :=
  processFrom t layer mode (geometry layer).majorCount 0 r m

/-- Both passes, P before Q; the Q pass reads the frame the P pass left and runs when the P pass answered 1
(rules R104, R106). -/
def bothPasses (t : Tables) (mode : EccMode) (r : EccRegs) (m : Memory) : EccOut :=
  let p := processFrame t .p mode r m
  if p.ok then processFrame t .q mode p.regs p.frame else p

/-- `generate_parity` over a frame (rules R104, R105). -/
def generateParityFrame (t : Tables) (zeroAddress : Bool) (mode : EccMode) (r : EccRegs) (m : Memory) : EccOut :=
  if zeroAddress then
    let saved := m.readBytes addressBase 4
    let out := bothPasses t mode { r with addrSave := saved } (m.writeBytes addressBase [0, 0, 0, 0])
    { out with frame := out.frame.writeBytes addressBase saved }
  else bothPasses t mode r m

/-- An ECC operation on the frame `S`: the frame, the working registers and the result. -/
def State.afterEcc (s : State) (out : EccOut) : State :=
  { s with ecc := out.regs, frame := out.frame, result := .ok out.ok }

/-- `process` (rule R96). -/
def execProcess (layer : Layer) (mode : EccMode) (s : State) : Host.Outcome State Fault Refusal :=
  .next (whenReady s fun s => s.afterEcc (processFrame s.tables layer mode s.ecc s.frame))

/-- `generate_parity` (rule R104). -/
def execGenerateParity (zeroAddress : Bool) (mode : EccMode) (s : State) : Host.Outcome State Fault Refusal :=
  .next (whenReady s fun s => s.afterEcc (generateParityFrame s.tables zeroAddress mode s.ecc s.frame))

end Sys2Proof.Machine
end

