-- ==== Sys2Proof/Machine/Classifier.lean ====
section
/-!
DEFINITION. The Sector Classifier (42_classifier.md): `classify`.
-/

namespace Sys2Proof.Machine

/-- What a classification leaves: the block type and the working registers it used. -/
structure ClassifyOut where
  type : SectorType
  cls  : ClassifierRegs
  ecc  : EccRegs

/-- The candidate flags after the fixed-field and address checks (rules R113, R114, R115). -/
def candidates (w : List Byte) (windowLen : Nat) (allowMode1 : Bool) : ClassifierRegs where
  c1 := mode1Allowed windowLen allowMode1 && mode1FixedFields w
  c2 := addressDuplicated w
  c3 := addressDuplicated w
  ckw := 0

/-- The three checksum checks, one accumulator over three consecutive ranges (rule R116). -/
def checksumChecks (t : Tables) (w : List Byte) (c : ClassifierRegs) : ClassifierRegs :=
  let ck2 := t.fold 0 (slice w 0x000 0x808)
  let ck1 := t.fold ck2 (slice w 0x808 8)
  let ck3 := t.fold ck1 (slice w 0x810 0x10C)
  { c1 := c.c1 && checksumMatches w 0x810 ck1
    c2 := c.c2 && checksumMatches w 0x808 ck2
    c3 := c.c3 && checksumMatches w 0x91C ck3
    ckw := ck3 }

/-- The window as a `Mode1` frame (rule R117). -/
def mode1View (w : List Byte) : Memory := Memory.ofBytes 0x000 (w.take 2352)

/-- The window as a Mode2 frame, shifted by 16 bytes; the frame bytes before it cannot matter and read 0
(rule R117). -/
def mode2View (w : List Byte) : Memory := Memory.ofBytes 0x010 (w.take 2336)

/-- The ECC check of a surviving `Mode1` candidate (rule R117). -/
def eccCheckMode1 (t : Tables) (w : List Byte) (c : ClassifierRegs) (e : EccRegs) : ClassifierRegs × EccRegs :=
  if c.c1 then
    let out := generateParityFrame t false .verify e (mode1View w)
    ({ c with c1 := out.ok }, out.regs)
  else (c, e)

/-- The ECC check of a surviving `Mode2Form1` candidate (rule R117). -/
def eccCheckMode2 (t : Tables) (w : List Byte) (c : ClassifierRegs) (e : EccRegs) : ClassifierRegs × EccRegs :=
  if c.c2 then
    let out := generateParityFrame t true .verify e (mode2View w)
    ({ c with c2 := out.ok }, out.regs)
  else (c, e)

/-- The priority `Mode1 > Mode2Form1 > Mode2Form2 > Literal` (rule R118). -/
def survivor (c : ClassifierRegs) : SectorType :=
  if c.c1 then .mode1 else if c.c2 then .mode2form1 else if c.c3 then .mode2form2 else .literal

/-- `classify` (rule R119); `e` and `c` are the working registers before it. -/
def classifyWindow (t : Tables) (w : List Byte) (windowLen : Nat) (allowMode1 : Bool)
    (c : ClassifierRegs) (e : EccRegs) : ClassifyOut :=
  if windowLen < 2336 then ⟨.literal, c, e⟩
  else
    let start := candidates w windowLen allowMode1
    if !start.c1 && !start.c2 then ⟨.literal, { start with ckw := c.ckw }, e⟩
    else
      let summed := checksumChecks t w start
      let one := eccCheckMode1 t w summed e
      let two := eccCheckMode2 t w one.1 one.2
      ⟨survivor two.1, two.1, two.2⟩

/-- The working registers after a classification; nothing else changes (rule R121). -/
def State.afterClassify (s : State) (out : ClassifyOut) : State := { s with cls := out.cls, ecc := out.ecc }

/-! ## The window of a command (rule R111) -/

/-- Whether a command leaves out bytes its classification may read: `window_len` says how many bytes are available
(rule R111), and `min(window_len, 2352)` of them may be read once there are 2336 (rules R112, R122). -/
def windowShort (window : List Byte) (windowLen : Nat) : Bool :=
  decide (2336 ≤ windowLen) && decide (window.length < min windowLen 2352)

/-- The window `W` of a command, every byte that may be read present; a byte it claims and does not supply is a free
value (log 19). -/
def fullWindow (draw : Nat) (window : List Byte) (windowLen : Nat) : List Byte :=
  window ++ (List.range (min windowLen 2352 - window.length)).map (Config.windowByte draw)

/-- The draw counter after the window of a command has been taken (log 19). -/
def State.afterWindow (s : State) (window : List Byte) (windowLen : Nat) : State :=
  { s with draws := if windowShort window windowLen then s.draws + 1 else s.draws }

/-- `classify` (rule R119). -/
def execClassify (window : List Byte) (windowLen : Nat) (allowMode1 : Bool) (s : State) :
    Host.Outcome State Fault Refusal :=
  .next (whenReady s fun s =>
    let out := classifyWindow s.tables (fullWindow s.draws window windowLen) windowLen allowMode1 s.cls s.ecc
    ((s.afterWindow window windowLen).afterClassify out).returning (.sector out.type))

end Sys2Proof.Machine
end

