-- ==== Sys2Proof/Machine/StreamDecoder.lean ====
section
/-!
DEFINITION. The Stream Decoder and the five record kinds (44_decoder.md): `LIT`, `M1`, `M2F1`, `M2F2`, `END`, and
`decode`, which runs them.
-/

namespace Sys2Proof.Machine

/-! ## Reading a header (rules R58, R146) -/

/-- The fatal error for bytes that are no record (rules R167, R168). -/
def errorOfDecode (e : DecodeError) (s : State) : ErrorCode :=
  match e with
  | .headerShort => s.shortError
  | .headerOverlong => .corruptRecord
  | .countIllegal => .corruptRecord
  | .unknownCommand => .corruptRecord

/-- The bytes at the read position that can be read. -/
def State.readable (s : State) : List Byte := (s.src.take s.srcLimit).drop s.dec.rpos

/-- `RPOS <- RPOS + n` (rule R17). -/
def State.advanceRead (s : State) (n : Nat) : State := { s with dec := { s.dec with rpos := s.dec.rpos + n } }

/-- `(REC_TYPE, REC_NUM) <- parse_header()` (rule R146). -/
def fetchHeader (s : State) : Except Abort ((SectorType × Nat) × State) :=
  let h := parseHeader s.readable
  let s' := s.advanceRead h.used
  match h.value with
  | .ok f => .ok (f, { s' with dec := { s'.dec with recType := f.1, recNum := BitVec.ofNat 32 f.2 } })
  | .error e => .error ⟨errorOfDecode e s', s'⟩

/-! ## The sector of a record, rebuilt in the frame (rules R150 to R152, R154, R155) -/

/-- The fields of a `Mode1` sector before its parity: sync, address, mode byte, user data, checksum, reserved bytes,
in this order (rule R150). -/
def fillMode1 (t : Tables) (pay : List Byte) (m : Memory) : Memory :=
  let m1 := m.writeBytes 0x000 syncPattern
  let m2 := m1.writeBytes 0x00C (slice pay 0 3)
  let m3 := m2.write 0x00F 0x01
  let m4 := m3.writeBytes 0x010 (slice pay 3 2048)
  let m5 := m4.writeBytes 0x810 (le32 (t.fold 0 (m4.readBytes 0x000 0x810)))
  m5.writeBytes 0x814 (List.replicate 8 0x00)

/-- The fields of a `Mode2Form1` sector before its parity (rule R151). -/
def fillMode2Form1 (t : Tables) (pay : List Byte) (m : Memory) : Memory :=
  let m1 := m.writeBytes 0x014 pay
  let m2 := m1.writeBytes 0x010 (m1.readBytes 0x014 4)
  m2.writeBytes 0x818 (le32 (t.fold 0 (m2.readBytes 0x010 0x808)))

/-- The fields of a `Mode2Form2` sector (rule R152). -/
def fillMode2Form2 (t : Tables) (pay : List Byte) (m : Memory) : Memory :=
  let m1 := m.writeBytes 0x014 pay
  let m2 := m1.writeBytes 0x010 (m1.readBytes 0x014 4)
  m2.writeBytes 0x92C (le32 (t.fold 0 (m2.readBytes 0x010 0x91C)))

/-- A `Mode1` sector with its parity (rules R150, R156). -/
def buildMode1 (t : Tables) (pay : List Byte) (r : EccRegs) (m : Memory) : EccOut :=
  generateParityFrame t false .write r (fillMode1 t pay m)

/-- A `Mode2Form1` sector with its parity, the address read as zero (rules R151, R156). -/
def buildMode2Form1 (t : Tables) (pay : List Byte) (r : EccRegs) (m : Memory) : EccOut :=
  generateParityFrame t true .write r (fillMode2Form1 t pay m)

/-- A `Mode2Form2` sector; it has no parity and never reaches the ECC Engine (rules R152, R109). -/
def buildMode2Form2 (t : Tables) (pay : List Byte) (r : EccRegs) (m : Memory) : EccOut :=
  ⟨r.ok, r, fillMode2Form2 t pay m⟩

/-- One sector of a record: read its payload, rebuild it, fold it, emit it (rules R150 to R152, R157). -/
def rebuildSector (type : SectorType) (base : Nat) (build : Tables → List Byte → EccRegs → Memory → EccOut)
    (s : State) : Except Abort State :=
  (srcRead s.dec.rpos (payloadSize type) s).bind fun pay =>
    let out := build s.tables pay s.ecc s.frame
    let sector := out.frame.readBytes base (blockSize type)
    snkWrite sector
      { s.advanceRead (payloadSize type) with ecc := out.regs, frame := out.frame, ck := s.tables.fold s.ck sector }

/-- One sector of an `M1` record (rule R150). -/
def m1Sector : State → Except Abort State := rebuildSector .mode1 0x000 buildMode1

/-- One sector of an `M2F1` record (rule R151). -/
def m2f1Sector : State → Except Abort State := rebuildSector .mode2form1 0x010 buildMode2Form1

/-- One sector of an `M2F2` record (rule R152). -/
def m2f2Sector : State → Except Abort State := rebuildSector .mode2form2 0x010 buildMode2Form2

/-- `REC_LEFT <- n` (rule R148). -/
def State.withLeft (s : State) (n : Nat) : State :=
  { s with dec := { s.dec with recLeft := BitVec.ofNat 32 n } }

/-- "repeat `count` times" (rule R160), `REC_LEFT` counting down. -/
def sectorLoop (one : State → Except Abort State) : (count : Nat) → State → Except Abort State
  | 0, s => .ok s
  | count + 1, s => (one s).bind fun s' => sectorLoop one count (s'.withLeft count)

/-! ## The records -/

/-- `LIT count`: copy `count` bytes, folding them (rule R149); no block is left to produce. -/
def runLit (count : Nat) (s : State) : State :=
  settle <| (srcRead s.dec.rpos count (s.withLeft count)).bind fun d =>
    snkWrite d { (s.withLeft 0).advanceRead count with ck := s.tables.fold s.ck d }

/-- `M1 count` (rule R150). -/
def runM1 (count : Nat) (s : State) : State := settle (sectorLoop m1Sector count (s.withLeft count))

/-- `M2F1 count` (rule R151). -/
def runM2F1 (count : Nat) (s : State) : State := settle (sectorLoop m2f1Sector count (s.withLeft count))

/-- `M2F2 count` (rule R152). -/
def runM2F2 (count : Nat) (s : State) : State := settle (sectorLoop m2f2Sector count (s.withLeft count))

/-- `END`: the record loop ends and the trailer is next; nothing is written and `CK` is unchanged (rule R153). -/
def runEnd (s : State) : State := { s with engine := .trailer }

/-- The record of a block type (rule R66). -/
def runRecord (type : SectorType) (count : Nat) (s : State) : State :=
  match type with
  | .literal => runLit count s
  | .mode1 => runM1 count s
  | .mode2form1 => runM2F1 count s
  | .mode2form2 => runM2F2 count s

/-- One round of the record loop: header, sentinel test, count check, record (rules R146 to R148, R160). -/
def recordRound (s : State) : State :=
  match fetchHeader s with
  | .error a => raise a.error a.state
  | .ok (f, s') =>
    if f.2 = 0xFFFFFFFF then runEnd s'
    else if 0x80000000 ≤ f.2 + 1 then raise .corruptRecord s'
    else runRecord f.1 (f.2 + 1) s'

/-- The trailer: four bytes compared with `LE32(CK)` (rule R158). -/
def runTrailer (s : State) : State :=
  settle <| (srcRead s.dec.rpos 4 s).bind fun tr =>
    let s' := s.advanceRead 4
    if tr = le32 s.ck then .ok s'.succeed else .error ⟨.checksumMismatch, s'⟩

/-! ## The whole operation -/

/-- Start and magic (rules R144, R145): from here on the engine is inside `decode`. -/
def decodeStart (s : State) : State :=
  let s0 := { s with dec := { s.dec with rpos := 0 }, ck := 0, snkStart := s.snk.length }
  if s0.srcLimit < min 4 s0.src.length then raise .ioError s0
  else if s0.src.take 4 = magic then { s0.advanceRead 4 with engine := .records }
  else raise .malformedHeader s0

/-- The rounds of `decode` until it has ended (rule R160). -/
def decodeLoop : (rounds : Nat) → State → State
  | 0, s => s
  | rounds + 1, s =>
    match s.engine with
    | .idle => s
    | .records => decodeLoop rounds (recordRound s)
    | .trailer => decodeLoop rounds (runTrailer s)

/-- `decode` once the tables are built; every round reads at least one byte, so `len(SRC) + 1` rounds are enough
(rules R160, R198). -/
def decodeRun (s : State) : State := decodeLoop (s.src.length + 1) (decodeStart s)

/-- Record `LIT` (rule R149). The tables it folds with are read only while `TBL_VALID = 1` (rule R29, log 7). -/
def execLit (count : Nat) (s : State) : Host.Outcome State Fault Refusal := .next (whenReady s (runLit count))

/-- Record `M1` (rule R150). -/
def execM1 (count : Nat) (s : State) : Host.Outcome State Fault Refusal := .next (whenReady s (runM1 count))

/-- Record `M2F1` (rule R151). -/
def execM2F1 (count : Nat) (s : State) : Host.Outcome State Fault Refusal := .next (whenReady s (runM2F1 count))

/-- Record `M2F2` (rule R152). -/
def execM2F2 (count : Nat) (s : State) : Host.Outcome State Fault Refusal := .next (whenReady s (runM2F2 count))

/-- Record `END` (rule R153). -/
def execEndRecord (s : State) : Host.Outcome State Fault Refusal := .next (runEnd s)

/-- `decode` (rule R160). -/
def execDecode (s : State) : Host.Outcome State Fault Refusal := .next (whenReady s decodeRun)

end Sys2Proof.Machine
end

