-- ==== Sys2Proof/Machine/StreamEncoder.lean ====
section
/-!
DEFINITION. The Stream Encoder (43_encoder.md): `encode`.
-/

namespace Sys2Proof.Machine

/-- Start: registers and statistics at zero, the lookahead buffer emptied, the magic written (rule R126). -/
def encodeStart (s : State) : State :=
  { s with
    ck := 0
    enc := { s.enc with cur := 0, runOpen := false }
    stats := Stats.zero
    la := []
    laPos := 0
    snkStart := s.snk.length
    snk := s.snk ++ magic }

/-- One block of a flush: the raw block is read again from the source and folded whole, its payload is written
(rule R133). -/
def flushBlock (t : SectorType) (p : Nat) (s : State) : State :=
  let blk := slice s.src p (blockSize t)
  { s with ck := s.tables.fold s.ck blk, snk := s.snk ++ payload t blk }

/-- The blocks of a run from source offset `p` on (rule R133). -/
def flushBlocks (t : SectorType) : (count p : Nat) → State → State
  | 0, _, s => s
  | count + 1, p, s => flushBlocks t count (p + blockSize t) (flushBlock t p s)

/-- `flush()`: header, blocks, statistics of the open run (rule R133). -/
def flush (s : State) : State :=
  let r := s.enc
  let s' := flushBlocks r.runType r.runCount.toNat r.runStart (s.append (headerBytes r.runType r.runCount))
  { s' with stats := s'.stats.addCount r.runType r.runCount.toNat }

/-- `if RUN_OPEN = 1: flush()` (rules R130, R134). -/
def flushOpenRun (s : State) : State := if s.enc.runOpen then flush s else s

/-- Run bookkeeping for a block of type `t` at the cursor (rules R130, R136). -/
def bookkeep (t : SectorType) (s : State) : State :=
  if startsRun s.enc t then
    let s' := flushOpenRun s
    { s' with enc := { s'.enc with runOpen := true, runType := t, runStart := s'.enc.cur, runCount := 1 } }
  else { s with enc := { s.enc with runCount := s.enc.runCount + 1 } }

/-- Advance the cursor past a block of type `t`; the lookahead buffer slides with it (rules R132, R127). -/
def advance (t : SectorType) (s : State) : State :=
  { s with enc := { s.enc with cur := s.enc.cur + blockSize t }, la := s.la.drop (blockSize t) }

/-- The classification of the block at the cursor (rule R129). -/
def classifyAtCursor (s : State) : ClassifyOut :=
  classifyWindow s.tables s.la s.la.length (decide (2352 ≤ s.la.length)) s.cls s.ecc

/-- One iteration of the encoder's loop (rule R135). -/
def encodeBlock (s : State) : State :=
  let s' := refill s
  let out := classifyAtCursor s'
  advance out.type (bookkeep out.type (s'.afterClassify out))

/-- The encoder's loop: until no source byte is left at the cursor (rules R128, R135). The cursor advances by at
least one in each round, so `len(SRC) + 1` rounds are enough (rule R198). -/
def encodeLoop : (rounds : Nat) → State → State
  | 0, s => s
  | rounds + 1, s => if s.enc.cur < s.src.length then encodeLoop rounds (encodeBlock s) else s

/-- End of input: flush, sentinel, trailer, totals (rules R134, R137). -/
def encodeEnd (s : State) : State :=
  let s' := flushOpenRun s
  let s'' := s'.append (headerBytes .literal 0 ++ le32 s'.ck)
  { s'' with stats := { s''.stats with bytesIn := s''.src.length, bytesOut := s''.snk.length - s''.snkStart } }

/-- The whole of `encode` on a source and a sink that do not fail (rule R135). -/
def encodeAll (s : State) : State := encodeEnd (encodeLoop (s.src.length + 1) (encodeStart s))

/-- Whether a read or a write of this `encode` failed: it reads every byte of `SRC`, and the sink only grows
(rules R138, R170). -/
def encodeIoFails (s : State) : Bool := decide (s.srcLimit < s.src.length) || s.sinkFull s.snk.length

/-- `encode` once the tables are built: success, or `IoError` with `STAT_*` unspecified (rules R134, R138, log 11). -/
def encodeRun (s : State) : State :=
  let done := encodeAll s
  if encodeIoFails done then { raise .ioError done with stats := Stats.free done.draws } else done.succeed

/-- `encode` (rule R135). -/
def execEncode (s : State) : Host.Outcome State Fault Refusal := .next (whenReady s encodeRun)

end Sys2Proof.Machine
end

