-- ==== Sys2Proof/Machine/TableEngine.lean ====
section
/-!
DEFINITION. The Table Engine (40_table_engine.md): `build_tables`, the three lookups, the checksum fold.
-/

namespace Sys2Proof.Machine

/-- The reduction constant of the byte doubling (rule R77). -/
def gfPoly : Nat := 0x11D

/-- The checksum polynomial constant (rule R81). -/
def ckPoly : Word := 0xD8018001#32

/-- The doubling value of `i`: `(i << 1) ^ (0x11D if i[7] = 1 else 0)`, the shift not truncated (rule R77). -/
def doubled (i : Nat) : Nat := (i <<< 1) ^^^ (if i.testBit 7 then gfPoly else 0)

/-- One of the eight rounds of the checksum table (rule R81). -/
def checkRound (r : Word) : Word := (r >>> 1) ^^^ (if r.getLsbD 0 then ckPoly else 0)

/-- The checksum entry for `i`: eight rounds from `i` (rule R81). -/
def checkEntry (i : Nat) : Word := Nat.repeat checkRound 8 (BitVec.ofNat 32 i)

/-- The entries `build_tables` writes for one index (rule R76). -/
def buildEntry (t : Tables) (i : Nat) : Tables where
  f := t.f.set i (BitVec.ofNat 8 (doubled i))
  b := t.b.set (i ^^^ doubled i) (BitVec.ofNat 8 i)
  e := t.e.set i (checkEntry i)

/-- The loop of `build_tables` over all 256 indices (rule R76). -/
def buildAll (t : Tables) : Tables := (List.range 256).foldl buildEntry t

/-- `build_tables` (rule R76); `ERR` is not among what it writes (rule R22, log 14). -/
def execBuildTables (s : State) : Host.Outcome State Fault Refusal :=
  .next ({ s with tables := buildAll s.tables, tblValid := true }.returning .none)

/-- `gf_double x` (rule R83). -/
def execGfDouble (x : Byte) (s : State) : Host.Outcome State Fault Refusal :=
  .next (whenReady s fun s => s.returning (.byte (s.tables.double x)))

/-- `gf_div3 x` (rule R84). -/
def execGfDiv3 (x : Byte) (s : State) : Host.Outcome State Fault Refusal :=
  .next (whenReady s fun s => s.returning (.byte (s.tables.div3 x)))

/-- `ck_lookup x` (rule R85). -/
def execCkLookup (x : Byte) (s : State) : Host.Outcome State Fault Refusal :=
  .next (whenReady s fun s => s.returning (.word (s.tables.check x)))

/-- `fold(ck, bytes)` (rule R86). -/
def execFold (ck : Word) (bytes : List Byte) (s : State) : Host.Outcome State Fault Refusal :=
  .next (whenReady s fun s => s.returning (.word (s.tables.fold ck bytes)))

end Sys2Proof.Machine
end

