-- ==== Sys2Proof/Machine/Dispatch.lean ====
section
/-!
DEFINITION. One arm per instruction, in the order of the opcode table.
-/

namespace Sys2Proof.Machine

def exec (i : Instr) (s : State) : Host.Outcome State Fault Refusal :=
  match i with
  | .buildTables => Sys2Proof.Machine.execBuildTables s
  | .gfDouble x => Sys2Proof.Machine.execGfDouble x s
  | .gfDiv3 x => Sys2Proof.Machine.execGfDiv3 x s
  | .ckLookup x => Sys2Proof.Machine.execCkLookup x s
  | .fold ck bytes => Sys2Proof.Machine.execFold ck bytes s
  | .process layer mode => Sys2Proof.Machine.execProcess layer mode s
  | .generateParity zeroAddress mode => Sys2Proof.Machine.execGenerateParity zeroAddress mode s
  | .classify window windowLen allowMode1 => Sys2Proof.Machine.execClassify window windowLen allowMode1 s
  | .encode => Sys2Proof.Machine.execEncode s
  | .decode => Sys2Proof.Machine.execDecode s
  | .lit count => Sys2Proof.Machine.execLit count s
  | .m1 count => Sys2Proof.Machine.execM1 count s
  | .m2f1 count => Sys2Proof.Machine.execM2F1 count s
  | .m2f2 count => Sys2Proof.Machine.execM2F2 count s
  | .endRecord => Sys2Proof.Machine.execEndRecord s

end Sys2Proof.Machine
end

