-- ==== Sys2Proof/Machine/HostPort.lean ====
section
/-!
DEFINITION. What the host does between operations other than starting one (rules R13, R33, R170, R185, R188), and how
a word of the opcode table is placed where the step fetches.
-/

namespace Sys2Proof.Machine

/-- Bytes placed over a byte string from `at` on, the string made longer by zeros where it is too short. -/
def overlay (x : List Byte) (position : Nat) (bytes : List Byte) : List Byte :=
  x.take position ++ List.replicate (position - x.length) 0 ++ bytes ++ x.drop (position + bytes.length)

/-- A table word placed as the next instruction: a command goes to the front of the host's queue and the engine is
idle; a record goes into `SRC` at `RPOS`, where it can be read, and the engine is inside `decode` at a record
boundary (log 15). -/
def placeTableWord (s : State) (nbits w : Nat) : State :=
  match tableEncoded nbits w with
  | .command c => { s with engine := .idle, host := .start c :: s.host }
  | .record header =>
    { s with engine := .records, srcFail := none, src := overlay s.src s.dec.rpos header }

end Sys2Proof.Machine
end

