-- ==== Sys2Proof/Machine/Step.lean ====
section
/-!
DEFINITION. One step. An idle engine takes the host's next action: an operation is one atomic step (rule R11). Inside
a `decode` a step is one record or the trailer: the rounds of which `decode` is made (rule R160, log 7).
-/

namespace Sys2Proof.Machine

/-- The host's next action is taken from its queue. -/
def State.popHost (s : State) (rest : List HostEvent) : State := { s with host := rest }

/-- A command the host presents: the operation of its code; any other code starts nothing and changes no state
(rule R72). -/
def startCommand (c : Command) (s : State) : Host.Outcome State Fault Refusal :=
  match decodeCommand c with
  | .ok i => exec i s
  | .error _ => .next s

/-- One action of the host (log 1). -/
def hostStep (event : HostEvent) (s : State) : Host.Outcome State Fault Refusal :=
  match event with
  | .start c => startCommand c s
  | .setSource bytes => .next { s with src := bytes }
  | .setSink bytes => .next { s with snk := bytes }
  | .writeFrame address value => hostWriteFrame address value s
  | .failSource offset => .next { s with srcFail := offset }
  | .limitSink length => .next { s with snkCap := length }
  | .reset => .next (resetBlock s)

/-- One record of a running `decode`: fetch the header at `RPOS`, decode it, run it. -/
def recordStep (s : State) : Host.Outcome State Fault Refusal :=
  match fetchHeader s with
  | .error a => .next (raise a.error a.state)
  | .ok (f, s') =>
    match recordOfHeader f.1 f.2 with
    | .ok i => exec i s'
    | .error e => .next (raise (errorOfDecode e s') s')

/-- One step of the machine. With nothing to do the engine stays idle (rule R184). -/
def step (s : State) : Host.Outcome State Fault Refusal :=
  match s.engine with
  | .records => recordStep s
  | .trailer => .next (runTrailer s)
  | .idle =>
    match s.host with
    | [] => .next s
    | event :: rest => hostStep event (s.popHost rest)

/-- `s` with a word of the opcode table placed as the next instruction. -/
def State.withFetchWord (s : State) (nbits w : Nat) : State := placeTableWord s nbits w

end Sys2Proof.Machine
end

