-- ==== Sys2Proof/Safety.lean ====
section
/-!
DEFINITION. The terms the claims use: what a sound state is (the invariant), what a run without I/O failure is, and
the spec's own descriptions of results, written from its rules without the machine's loops, so that a claim compares
two independent texts.
-/

namespace Sys2Proof.Machine

/-! ## States -/

/-- Each table has its 256 entries (rule R14). -/
abbrev Tables.Sized (t : Tables) : Prop := t.f.length = 256 ∧ t.b.length = 256 ∧ t.e.length = 256

/-- The contents of rules R77, R79 and R81. -/
abbrev Tables.Built (t : Tables) : Prop :=
  t.Sized ∧
  (∀ i < 256, (t.f.getD i 0).toNat = (i <<< 1) ^^^ (if 128 ≤ i then 0x11D else 0)) ∧
  (∀ i < 256, t.b.getD (i ^^^ (t.f.getD i 0).toNat) 0 = BitVec.ofNat 8 i) ∧
  (∀ i < 256, t.e.getD i 0 =
    Nat.repeat (fun r : Word => (r >>> 1) ^^^ (if r.getLsbD 0 then 0xD8018001#32 else 0#32)) 8 (BitVec.ofNat 32 i))

/-- The tables are built and marked so (rules R21, R32). -/
abbrev State.Ready (s : State) : Prop := s.tblValid = true ∧ s.tables.Built

/-- Neither the source nor the sink fails (decision D27: the premise of every claim that `encode` or `decode` ends
well). -/
abbrev State.NoIoFailure (s : State) : Prop := s.srcFail = none ∧ s.snkCap = none

/-- What every step keeps: table sizes, rule R32 (`TBL_VALID = 1` implies the built contents), the canonical frame,
the lookahead buffer within `LOOKAHEAD_CAP` (rule R33), `ERR` one of the codes of rule R165, the ranges rule R15 gives
the working registers and rule R136 gives `RUN_COUNT`, and inside a `decode` built tables and a sink that has only
grown. -/
structure State.Inv (s : State) : Prop where
  tablesSized : s.tables.Sized
  tablesBuilt : s.tblValid = true → s.tables.Built
  frameWf     : s.frame.wf
  lookahead   : s.la.length ≤ Config.lookaheadCap
  errCode     : s.err ≠ 7
  addrSave    : s.ecc.addrSave.length = 4
  majRange    : s.ecc.maj ≤ 86
  minRange    : s.ecc.min ≤ 43
  idxRange    : s.ecc.idx < 2236
  runCount    : s.enc.runCount.toNat ≤ 0x7FFFFFFF
  decoding    : s.engine ≠ .idle → s.tblValid = true ∧ s.snkStart ≤ s.snk.length

/-! ## The field and the fold (rules R78, R80, R86) -/

/-- The carryless product of two bytes. -/
def Spec.clmul (a b : Nat) : Nat :=
  (List.range 8).foldl (fun v k => v ^^^ (if b.testBit k then a <<< k else 0)) 0

/-- The remainder of a carryless product by `x^8 + x^4 + x^3 + x^2 + 1` (`0x11D`). -/
def Spec.reduce (v : Nat) : Nat :=
  [6, 5, 4, 3, 2, 1, 0].foldl (fun v k => if v.testBit (k + 8) then v ^^^ (0x11D <<< k) else v) v

/-- The product of the field GF(2^8) that rule R78 names. -/
def Spec.gfMul (a b : Nat) : Nat := Spec.reduce (Spec.clmul a b)

/-- The loop of rule R86 over the entries `E`. -/
def Spec.foldBytes (e : List Word) : Word → List Byte → Word
  | ck, [] => ck
  | ck, b :: rest =>
    Spec.foldBytes e ((ck >>> 8) ^^^ e.getD ((ck ^^^ b.setWidth 32) &&& 0xFF#32).toNat 0) rest

/-! ## Parity (rules R94, R97 to R99) -/

/-- `major_count` of a layer (rule R94). -/
def Spec.majors : Layer → Nat
  | .p => 86
  | .q => 52

/-- `minor_count` of a layer (rule R94). -/
def Spec.steps : Layer → Nat
  | .p => 24
  | .q => 43

/-- The index read at a major and a step: `(start(M) + m · mi) mod size` (rule R97). -/
def Spec.index : Layer → (maj step : Nat) → Nat
  | .p, maj, step => (maj / 2 * 2 + maj % 2 + step * 86) % 2064
  | .q, maj, step => (maj / 2 * 86 + maj % 2 + step * 88) % 2236

/-- The first frame address of a layer's parity field (rule R104). -/
def Spec.field : Layer → Nat
  | .p => 0x81C
  | .q => 0x8C8

/-- The data bytes of one codeword, in the order of the walk; the data region starts at `S[0x00C]` (rule R104). -/
def Spec.codeword (m : Memory) (layer : Layer) (maj : Nat) : List Byte :=
  (List.range (Spec.steps layer)).map fun step => m.read (0x00C + Spec.index layer maj step)

/-- `ACC_B` after the walk: the exclusive or of its bytes (rule R98). -/
def Spec.accB (m : Memory) (layer : Layer) (maj : Nat) : Byte :=
  (Spec.codeword m layer maj).foldl (fun a b => a ^^^ b) 0

/-- `ACC_A` after the walk: doubled after each exclusive or (rule R98). -/
def Spec.accA (t : Tables) (m : Memory) (layer : Layer) (maj : Nat) : Byte :=
  (Spec.codeword m layer maj).foldl (fun a b => t.double (a ^^^ b)) 0

/-- `p0 = B[F[ACC_A] ^ ACC_B]` (rule R99). -/
def Spec.p0 (t : Tables) (m : Memory) (layer : Layer) (maj : Nat) : Byte :=
  t.div3 (t.double (Spec.accA t m layer maj) ^^^ Spec.accB m layer maj)

/-- `p1 = p0 ^ ACC_B` (rule R99). -/
def Spec.p1 (t : Tables) (m : Memory) (layer : Layer) (maj : Nat) : Byte :=
  Spec.p0 t m layer maj ^^^ Spec.accB m layer maj

/-- The parity field of `after` holds the parity of the data region of `before`. -/
def Spec.ParityOf (t : Tables) (before after : Memory) (layer : Layer) : Prop :=
  ∀ maj < Spec.majors layer,
    after.read (Spec.field layer + maj) = Spec.p0 t before layer maj ∧
    after.read (Spec.field layer + maj + Spec.majors layer) = Spec.p1 t before layer maj

/-- The frame both passes of `generate_parity` see: the address field read as zero when `zero_address` is set
(rule R105). -/
def Spec.seen (zeroAddress : Bool) (m : Memory) : Memory :=
  if zeroAddress then m.writeBytes 0x00C [0, 0, 0, 0] else m

/-- Every stored parity byte of a layer equals the computed one (rule R100). -/
abbrev Spec.ParityHolds (t : Tables) (m : Memory) (layer : Layer) : Prop := Spec.ParityOf t m m layer

/-- The address of a parity byte of a layer. -/
abbrev Spec.InField (layer : Layer) (a : Nat) : Prop :=
  Spec.field layer ≤ a ∧ a < Spec.field layer + 2 * Spec.majors layer

/-! ## Sectors (rules R43 to R45) and windows (rules R112 to R118) -/

/-- A byte string holds the checksum of the bytes before `offset` at `offset`, low byte first (rules R90, R155). -/
abbrev Spec.ChecksumAt (t : Tables) (x : List Byte) (offset : Nat) : Prop :=
  slice x offset 4 = le32 (t.fold 0 (slice x 0 offset))

/-- Both parity layers of a byte string laid out in a frame from `base` on hold. -/
abbrev Spec.ParityOfBytes (t : Tables) (base : Nat) (x : List Byte) : Prop :=
  ∀ layer, Spec.ParityHolds t (Memory.ofBytes base x) layer

/-- The `Mode1` checks (rules R113, R114, R116, R117, R123). -/
def Spec.Mode1Window (t : Tables) (w : List Byte) (windowLen : Nat) (allowMode1 : Bool) : Prop :=
  allowMode1 = true ∧ 2352 ≤ windowLen ∧
  slice w 0 12 = [0x00, 0xFF, 0xFF, 0xFF, 0xFF, 0xFF, 0xFF, 0xFF, 0xFF, 0xFF, 0xFF, 0x00] ∧
  slice w 0x00F 1 = [0x01] ∧ slice w 0x814 8 = [0, 0, 0, 0, 0, 0, 0, 0] ∧
  Spec.ChecksumAt t w 0x810 ∧ Spec.ParityOfBytes t 0x000 (w.take 2352)

/-- The `Mode2Form1` checks (rules R112, R115, R116, R117). -/
def Spec.Mode2Form1Window (t : Tables) (w : List Byte) (windowLen : Nat) : Prop :=
  2336 ≤ windowLen ∧ slice w 0 4 = slice w 4 4 ∧ Spec.ChecksumAt t w 0x808 ∧
  Spec.ParityOfBytes t 0x010 (w.take 2336)

/-- The `Mode2Form2` checks (rules R112, R115, R116). -/
def Spec.Mode2Form2Window (t : Tables) (w : List Byte) (windowLen : Nat) : Prop :=
  2336 ≤ windowLen ∧ slice w 0 4 = slice w 4 4 ∧ Spec.ChecksumAt t w 0x91C

/-- The sector an `M1` payload stands for (rules R43, R150). -/
def Spec.IsMode1Sector (t : Tables) (pay sector : List Byte) : Prop :=
  sector.length = 2352 ∧
  slice sector 0 12 = [0x00, 0xFF, 0xFF, 0xFF, 0xFF, 0xFF, 0xFF, 0xFF, 0xFF, 0xFF, 0xFF, 0x00] ∧
  slice sector 0x00C 3 = slice pay 0 3 ∧ slice sector 0x00F 1 = [0x01] ∧
  slice sector 0x010 2048 = slice pay 3 2048 ∧ Spec.ChecksumAt t sector 0x810 ∧
  slice sector 0x814 8 = [0, 0, 0, 0, 0, 0, 0, 0] ∧ Spec.ParityOfBytes t 0x000 sector

/-- The sector an `M2F1` payload stands for (rules R44, R151). -/
def Spec.IsMode2Form1Sector (t : Tables) (pay sector : List Byte) : Prop :=
  sector.length = 2336 ∧ slice sector 0 4 = slice pay 0 4 ∧ slice sector 4 2052 = pay ∧
  Spec.ChecksumAt t sector 0x808 ∧ Spec.ParityOfBytes t 0x010 sector

/-- The sector an `M2F2` payload stands for (rules R45, R152). -/
def Spec.IsMode2Form2Sector (t : Tables) (pay sector : List Byte) : Prop :=
  sector.length = 2336 ∧ slice sector 0 4 = slice pay 0 4 ∧ slice sector 4 2328 = pay ∧
  Spec.ChecksumAt t sector 0x91C

/-! ## The encoder as a function (rule R135) -/

/-- The type of the block at the head of the bytes left in the source (rule R129); the working registers a
classification starts from do not matter. -/
def Spec.typeAt (t : Tables) (x : List Byte) : SectorType :=
  (classifyWindow t (x.take 2352) (min x.length 2352) (decide (2352 ≤ x.length)) State.reset.cls State.reset.ecc).type

/-- The block sequence `(t0, o0), (t1, o1), ..` of rule R135, each block with its bytes. -/
def Spec.blocks (t : Tables) : (rounds : Nat) → List Byte → List (SectorType × List Byte)
  | 0, _ => []
  | _ + 1, [] => []
  | rounds + 1, b :: x =>
    let type := Spec.typeAt t (b :: x)
    (type, (b :: x).take (blockSize type)) :: Spec.blocks t rounds ((b :: x).drop (blockSize type))

/-- The runs after an open run of type `type` that holds the blocks `held` (rules R130, R136). -/
def Spec.runsFrom (type : SectorType) (held : List (List Byte)) :
    List (SectorType × List Byte) → List (SectorType × List (List Byte))
  | [] => [(type, held)]
  | (type', b) :: rest =>
    if type' = type ∧ held.length ≠ 0x7FFFFFFF then Spec.runsFrom type (held ++ [b]) rest
    else (type, held) :: Spec.runsFrom type' [b] rest

/-- The maximal runs of a block sequence, split at `0x7FFFFFFF` blocks (rules R130, R135, R136). -/
def Spec.runs : List (SectorType × List Byte) → List (SectorType × List (List Byte))
  | [] => []
  | (type, b) :: rest => Spec.runsFrom type [b] rest

/-- `header(t, c) ‖ payload(t, block 1) ‖ .. ‖ payload(t, block c)` (rule R135). -/
def Spec.runBytes (run : SectorType × List (List Byte)) : List Byte :=
  headerBytes run.1 (BitVec.ofNat 32 run.2.length) ++ (run.2.map (payload run.1)).flatten

/-- The stream `encode` writes for the source bytes `x` (rule R135). -/
def Spec.stream (t : Tables) (x : List Byte) : List Byte :=
  [0x45, 0x43, 0x4D, 0x00] ++ ((Spec.runs (Spec.blocks t (x.length + 1) x)).map Spec.runBytes).flatten
    ++ [0xFC, 0xFF, 0xFF, 0xFF, 0x3F] ++ le32 (t.fold 0 x)

/-! ## The decoder as a relation (rules R149 to R153, R160) -/

/-- A block of a type and the stored bytes it is made from. -/
def Spec.IsBlock (t : Tables) : SectorType → (pay block : List Byte) → Prop
  | .literal, pay, block => pay.length = 1 ∧ block = pay
  | .mode1, pay, block => pay.length = 2051 ∧ Spec.IsMode1Sector t pay block
  | .mode2form1, pay, block => pay.length = 2052 ∧ Spec.IsMode2Form1Sector t pay block
  | .mode2form2, pay, block => pay.length = 2328 ∧ Spec.IsMode2Form2Sector t pay block

/-- A record as it stands in a stream, with the blocks it stands for. -/
structure Spec.Record where
  type     : SectorType
  header   : List Byte
  payloads : List (List Byte)
  blocks   : List (List Byte)

/-- The header bytes are read as the record's type and count, and every block is the one its payload stands for. -/
def Spec.Record.Legal (t : Tables) (r : Spec.Record) : Prop :=
  decodeRecord r.header = (r.header.length, .ok (recordOf r.type r.payloads.length)) ∧
  List.Forall₂ (Spec.IsBlock t r.type) r.payloads r.blocks

/-- The bytes of a record in the stream (rule R54). -/
def Spec.Record.bytes (r : Spec.Record) : List Byte := r.header ++ r.payloads.flatten

/-- The bytes a sequence of records stands for. -/
def Spec.output (recs : List Spec.Record) : List Byte := (recs.map fun r => r.blocks.flatten).flatten

/-- A stream: magic, records, the header of `END`, the trailer (rule R54). -/
def Spec.streamOf (recs : List Spec.Record) (sentinel trailer : List Byte) : List Byte :=
  [0x45, 0x43, 0x4D, 0x00] ++ (recs.map Spec.Record.bytes).flatten ++ sentinel ++ trailer

/-! ## The machine seen from the host -/

/-- What a host can observe between operations (rule R30: tables, `TBL_VALID`, `ERR`, `STAT_*`, the frame, the sink)
with the operation's result and the host's own side; the working registers and the lookahead buffer are not in it
(rule R15). -/
structure Visible where
  tblValid : Bool
  tables   : Tables
  err      : BitVec 3
  stats    : Stats
  frame    : Memory
  src      : List Byte
  snk      : List Byte
  result   : Result
  engine   : Engine
  host     : List HostEvent
  srcFail  : Option Nat
  snkCap   : Option Nat
  draws    : Nat

/-- The observable part of a state. -/
def State.visible (s : State) : Visible :=
  ⟨s.tblValid, s.tables, s.err, s.stats, s.frame, s.src, s.snk, s.result, s.engine, s.host, s.srcFail, s.snkCap,
    s.draws⟩

/-- Whether an instruction is a block operation (rule R10 (a)) or a record (rule R10 (b)). -/
def isOperation : Instr → Bool
  | .buildTables | .gfDouble _ | .gfDiv3 _ | .ckLookup _ | .fold _ _ | .process _ _ | .generateParity _ _
  | .classify _ _ _ | .encode | .decode => true
  | .lit _ | .m1 _ | .m2f1 _ | .m2f2 _ | .endRecord => false

end Sys2Proof.Machine
end

