-- ==== Sys2Proof/Certificates/Slice0/Obligations.lean ====
section
/-!
DEFINITION. The statements for the provers, in the order of the spec's files. Where a statement says how a state
differs from the one before as a record update, every field that is not named in it is unchanged: that is the frame.
-/

section Claims

open Sys2Proof Sys2Proof.Machine

/-! ## Reset, registers, the host (10_state.md, 30_encoding.md, 70_reset_and_hazards.md) -/

/-- Rules R29, R185: the values the spec gives for reset, in the state after power-on and after a reset by the host;
`SRC` and `SNK` are not reset. What the spec leaves unspecified is not mentioned. The model's choices: that a reset by
the host is an event of a queue (log 1), and that `TBL_VALID` is 0 after reset, which rule R186 does not ask of every
implementation (log 2). -/
def Obligations.ResetLeavesTheBlockIdle : Prop :=
  (State.reset.tblValid = false ∧ State.reset.err = 0 ∧ State.reset.stats = ⟨0, 0, 0, 0, 0, 0⟩ ∧
    State.reset.la = [] ∧ State.reset.engine = .idle) ∧
  ∀ (s : State) (rest : List HostEvent), s.engine = .idle → s.host = .reset :: rest →
    ∃ t, step s = .next t ∧ t.tblValid = false ∧ t.err = 0 ∧ t.stats = ⟨0, 0, 0, 0, 0, 0⟩ ∧ t.la = [] ∧
      t.engine = .idle ∧ t.src = s.src ∧ t.snk = s.snk ∧ t.host = rest

/-- Rules R21 to R24: the eight registers by their numbers, and no other. -/
def Obligations.RegistersReadByNumber : Prop :=
  ∀ s : State, s.readRegister 0 = some (if s.tblValid = true then 1 else 0) ∧
    s.readRegister 1 = some s.err.toNat ∧ s.readRegister 2 = some (s.stats.count .literal) ∧
    s.readRegister 3 = some (s.stats.count .mode1) ∧ s.readRegister 4 = some (s.stats.count .mode2form1) ∧
    s.readRegister 5 = some (s.stats.count .mode2form2) ∧ s.readRegister 6 = some s.stats.bytesIn ∧
    s.readRegister 7 = some s.stats.bytesOut ∧ ∀ n, 8 ≤ n → s.readRegister n = none

/-- Rule R72: the command codes with every operand (rule R74: `window_len` is any natural number, whatever the window
holds), and what any other code does (the queue is the model's own, log 1). -/
def Obligations.CommandCodesSelectTheOperation : Prop :=
  (∀ c : Command,
    (c.code = 0x00#8 → decodeCommand c = .ok .buildTables) ∧
    (c.code = 0x01#8 → decodeCommand c = .ok (.gfDouble c.x)) ∧
    (c.code = 0x02#8 → decodeCommand c = .ok (.gfDiv3 c.x)) ∧
    (c.code = 0x03#8 → decodeCommand c = .ok (.ckLookup c.x)) ∧
    (c.code = 0x04#8 → decodeCommand c = .ok (.fold c.ck c.bytes)) ∧
    (c.code = 0x08#8 → decodeCommand c =
      .ok (.process (if c.geometry = true then .q else .p) (if c.mode = true then .write else .verify))) ∧
    (c.code = 0x09#8 → decodeCommand c =
      .ok (.generateParity c.zeroAddress (if c.mode = true then .write else .verify))) ∧
    (c.code = 0x0C#8 → decodeCommand c = .ok (.classify c.window c.windowLen c.allowMode1)) ∧
    (c.code = 0x10#8 → decodeCommand c = .ok .encode) ∧
    (c.code = 0x11#8 → decodeCommand c = .ok .decode)) ∧
  ∀ (s : State) (c : Command) (rest : List HostEvent), s.engine = .idle → s.host = .start c :: rest →
    c.code ∉ [0x00#8, 0x01#8, 0x02#8, 0x03#8, 0x04#8, 0x08#8, 0x09#8, 0x0C#8, 0x10#8, 0x11#8] →
    step s = .next { s with host := rest }

/-- Rules R11, R72: a step of an idle engine whose host starts a command runs the instruction the command decodes to,
at that state with the command taken from the host's queue (the queue is the model's own, log 1). -/
def Obligations.StepRunsTheCommand : Prop :=
  ∀ (s : State) (c : Command) (rest : List HostEvent) (i : Instr), s.engine = .idle → s.host = .start c :: rest →
    Sys2Proof.decode (.command c) = .ok i → step s = exec i { s with host := rest }

/-- Rules R17, R58, R146: a step inside a `decode` runs the record whose header lies at `RPOS`, with `RPOS` past the
header and `REC_TYPE`, `REC_NUM` written (the steps inside a `decode` are the model's own, log 7). -/
def Obligations.StepRunsTheRecord : Prop :=
  ∀ (s : State) (used num : Nat) (type : SectorType) (i : Instr), s.engine = .records →
    parseHeader s.readable = ⟨used, .ok (type, num)⟩ → Sys2Proof.decode (.record s.readable) = .ok i →
    step s = exec i { s with
      dec := { s.dec with rpos := s.dec.rpos + used, recType := type, recNum := BitVec.ofNat 32 num } }

/-- Rules R33, R170, R184, R188: what the host does between operations; its queue and its failing devices are the
model's own (logs 1 and 9), and a frame address outside `S[0..0x92F]` does not exist. -/
def Obligations.HostActsBetweenOperations : Prop :=
  ∀ s : State, s.engine = .idle →
    (s.host = [] → step s = .next s) ∧
    ∀ rest : List HostEvent,
      (∀ x, s.host = .setSource x :: rest → step s = .next { s with host := rest, src := x }) ∧
      (∀ x, s.host = .setSink x :: rest → step s = .next { s with host := rest, snk := x }) ∧
      (∀ k, s.host = .failSource k :: rest → step s = .next { s with host := rest, srcFail := k }) ∧
      (∀ k, s.host = .limitSink k :: rest → step s = .next { s with host := rest, snkCap := k }) ∧
      (∀ a v, s.host = .writeFrame a v :: rest → 0x930 ≤ a → step s = .fault .frameAddressAbsent) ∧
      ∀ a v, s.host = .writeFrame a v :: rest → a < 0x930 → s.frame.wf →
        ∃ m : Memory, step s = .next { s with host := rest, frame := m } ∧ m.wf ∧
          ∀ b, m.read b = if b = a then v else s.frame.read b

/-! ## Encodings (30_encoding.md) -/

/-- Rules R55, R56, R60, R72: a few words written out. How the words of the opcode table are read (an 8-bit command
code as the command, any other word as a record header: the first five clauses) is the model's choice, log 15. -/
def Obligations.WrittenWordsDecode : Prop :=
  decodeTableWord 8 0x00 = some .buildTables ∧ decodeTableWord 8 0x10 = some .encode ∧
  decodeTableWord 8 0x11 = some .decode ∧ decodeTableWord 8 0x09 = some (.generateParity false .verify) ∧
  decodeTableWord 40 0x3FFFFFFFFC = some .endRecord ∧
  Sys2Proof.decode (.record [0x08]) = .ok (.lit 3) ∧ Sys2Proof.decode (.record [0x05]) = .ok (.m1 2) ∧
  Sys2Proof.decode (.record [0x02]) = .ok (.m2f1 1) ∧ Sys2Proof.decode (.record [0x83, 0x01]) = .ok (.m2f2 33) ∧
  Sys2Proof.decode (.record [0x8C, 0x03]) = .ok (.lit 100) ∧
  Sys2Proof.decode (.record [0xFC, 0xFF, 0xFF, 0xFF, 0x3F]) = .ok .endRecord

/-- Rules R57, R58, R60, R66, R72: decoding gives back every well-formed instruction that was encoded; a record's
header is read whole whatever bytes follow it. -/
def Obligations.DecodeReturnsTheEncodedInstruction : Prop :=
  ∀ i : Instr, i.wellFormed = true → Sys2Proof.decode (Sys2Proof.encode i) = .ok i ∧
    ∀ header rest : List Byte, Sys2Proof.encode i = .record header →
      decodeRecord (header ++ rest) = (header.length, .ok i)

/-- Rule R59 and the `cont` bits of rules R55, R56: the length of the header written for a count, and that only its
last byte has bit 7 clear. -/
def Obligations.HeaderLengthFollowsTheCount : Prop :=
  ∀ (type : SectorType) (count : Word),
    (headerBytes type count).length =
      (if (count - 1).toNat ≤ 31 then 1 else if (count - 1).toNat ≤ 4095 then 2
       else if (count - 1).toNat ≤ 524287 then 3 else if (count - 1).toNat ≤ 67108863 then 4 else 5) ∧
    ∀ (front : List Byte) (last : Byte), headerBytes type count = front ++ [last] →
      last.getLsbD 7 = false ∧ ∀ b ∈ front, b.getLsbD 7 = true

/-- Rules R55, R56, R58: how the bytes of a header make its two fields, `num = n0 | n1<<5 | n2<<12 | n3<<19 | n4<<26`. -/
def Obligations.HeaderFieldsAreAssembledLowFirst : Prop :=
  ∀ (b0 b1 b2 b3 b4 : Byte) (rest : List Byte),
    let type := sectorTypeOfBits (b0.toNat % 4)
    let n0 := b0.toNat / 4 % 32
    let n1 := b1.toNat % 128
    let n2 := b2.toNat % 128
    let n3 := b3.toNat % 128
    let n4 := b4.toNat % 128
    (b0.getLsbD 7 = false → parseHeader (b0 :: rest) = ⟨1, .ok (type, n0)⟩) ∧
    (b0.getLsbD 7 = true →
      (b1.getLsbD 7 = false → parseHeader (b0 :: b1 :: rest) = ⟨2, .ok (type, n0 + n1 * 2 ^ 5)⟩) ∧
      (b1.getLsbD 7 = true →
        (b2.getLsbD 7 = false →
          parseHeader (b0 :: b1 :: b2 :: rest) = ⟨3, .ok (type, n0 + n1 * 2 ^ 5 + n2 * 2 ^ 12)⟩) ∧
        (b2.getLsbD 7 = true →
          (b3.getLsbD 7 = false → parseHeader (b0 :: b1 :: b2 :: b3 :: rest) =
            ⟨4, .ok (type, n0 + n1 * 2 ^ 5 + n2 * 2 ^ 12 + n3 * 2 ^ 19)⟩) ∧
          (b3.getLsbD 7 = true → b4.getLsbD 7 = false → n4 < 64 →
            parseHeader (b0 :: b1 :: b2 :: b3 :: b4 :: rest) =
              ⟨5, .ok (type, n0 + n1 * 2 ^ 5 + n2 * 2 ^ 12 + n3 * 2 ^ 19 + n4 * 2 ^ 26)⟩))))

/-- Rule R68: a fourth continuation byte with bit 6 set, and any fifth continuation byte, make a header illegal; it
raises `CorruptRecord` (the steps inside a `decode` are the model's own, log 7). -/
def Obligations.OverlongHeaderIsCorrupt : Prop :=
  (∀ (b0 b1 b2 b3 b4 b5 : Byte) (rest : List Byte), b0.getLsbD 7 = true → b1.getLsbD 7 = true →
    b2.getLsbD 7 = true → b3.getLsbD 7 = true →
    (b4.getLsbD 6 = true →
      parseHeader (b0 :: b1 :: b2 :: b3 :: b4 :: rest) = ⟨5, .error .headerOverlong⟩) ∧
    (b4.getLsbD 6 = false → b4.getLsbD 7 = true →
      parseHeader (b0 :: b1 :: b2 :: b3 :: b4 :: b5 :: rest) = ⟨6, .error .headerOverlong⟩)) ∧
  ∀ s : State, s.engine = .records → (parseHeader s.readable).value = .error .headerOverlong →
    ∃ t, step s = .next t ∧ t.engine = .idle ∧ t.err = 3 ∧ t.result = .error .corruptRecord

/-- Rule R69: a header that is longer than the shortest one for its value is read like any other; the encoder never
writes one. -/
def Obligations.LongerHeaderIsAccepted : Prop :=
  parseHeader [0x80, 0x00] = ⟨2, .ok (.literal, 0)⟩ ∧
  (∀ (front rest : List Byte) (last : Byte) (f : SectorType × Nat), front.length ≤ 3 →
    parseHeader (front ++ last :: rest) = ⟨front.length + 1, .ok f⟩ →
    parseHeader (front ++ (last ||| 0x80) :: 0x00 :: rest) = ⟨front.length + 2, .ok f⟩) ∧
  ∀ (type : SectorType) (count : Word) (header rest : List Byte),
    parseHeader (header ++ rest) = ⟨header.length, .ok (type, (count - 1).toNat)⟩ →
    (headerBytes type count).length ≤ header.length

/-- Rules R66, R67, R70, R147, R148: the record a header stands for: `END` whatever the type bits, an illegal count,
or the record of the type bits with `num + 1`; an illegal count raises `CorruptRecord` (the steps inside a `decode`
are the model's own, log 7). -/
def Obligations.HeaderSelectsTheRecord : Prop :=
  (∀ (type : SectorType) (num : Nat), num < 2 ^ 32 →
    (num = 0xFFFFFFFF → recordOfHeader type num = .ok .endRecord) ∧
    (0x7FFFFFFF ≤ num → num ≠ 0xFFFFFFFF → recordOfHeader type num = .error .countIllegal) ∧
    (num < 0x7FFFFFFF → recordOfHeader type num = .ok (match type with
      | .literal => .lit (num + 1)
      | .mode1 => .m1 (num + 1)
      | .mode2form1 => .m2f1 (num + 1)
      | .mode2form2 => .m2f2 (num + 1)))) ∧
  ∀ (s : State) (used num : Nat) (type : SectorType), s.engine = .records →
    parseHeader s.readable = ⟨used, .ok (type, num)⟩ → 0x7FFFFFFF ≤ num → num ≠ 0xFFFFFFFF →
    ∃ t, step s = .next t ∧ t.engine = .idle ∧ t.err = 3 ∧ t.result = .error .corruptRecord

/-! ## The Table Engine (40_table_engine.md) -/

/-- Rules R21, R76, R77, R79, R81: `build_tables` runs in any state and leaves the tables of the rules, marked valid.
The model's choices: `ERR` is left (log 14, against a note of the opcode table), and the result field holds none
(log 8). -/
def Obligations.BuildTablesWritesTheThreeTables : Prop :=
  ∀ s : State, s.tables.Sized → ∃ t : Tables, t.Built ∧
    exec .buildTables s = .next { s with tables := t, tblValid := true, result := .none }

/-- Rule R31: no other operation writes a table, and a second `build_tables` changes nothing but the result field,
which then holds none: that field is the model's choice (log 8). -/
def Obligations.TablesAreNeverChangedAfterwards : Prop :=
  (∀ s : State, s.Ready → exec .buildTables s = .next { s with result := .none }) ∧
  ∀ (i : Instr) (s t : State), i ≠ .buildTables → exec i s = .next t →
    t.tables = s.tables ∧ t.tblValid = s.tblValid

/-- Rule R78: the properties of `F`. -/
def Obligations.DoublingTableProperties : Prop :=
  ∀ t : Tables, t.Built →
    (∀ i < 256, (t.f.getD i 0).toNat = ((i <<< 1) &&& 0xFF) ^^^ (if i.testBit 7 then 0x1D else 0)) ∧
    (∀ i < 256, (t.f.getD i 0).toNat = Spec.gfMul 2 i) ∧
    t.double 0 = 0 ∧ (∀ y, ∃ x, t.double x = y ∧ ∀ z, t.double z = y → z = x) ∧
    (∀ x, x ≠ 0 → Nat.repeat t.double 255 x = x ∧ ∀ k, 0 < k → k < 255 → Nat.repeat t.double k x ≠ x) ∧
    (∀ a b, t.double (a ^^^ b) = t.double a ^^^ t.double b) ∧
    t.double 0x01 = 0x02 ∧ t.double 0x7F = 0xFE ∧ t.double 0x80 = 0x1D ∧ t.double 0x8E = 0x01 ∧ t.double 0xFF = 0xE3

/-- Rule R80: the properties of `B`. -/
def Obligations.InverseTableProperties : Prop :=
  ∀ t : Tables, t.Built →
    (∀ x : Byte, Spec.gfMul 3 x.toNat = (x ^^^ t.double x).toNat) ∧
    (∀ x y : Byte, y ^^^ t.double y = x ↔ t.div3 x = y) ∧
    t.div3 0 = 0 ∧ (∀ a b, t.div3 (a ^^^ b) = t.div3 a ^^^ t.div3 b) ∧
    (∀ x, t.div3 x ^^^ t.double (t.div3 x) = x) ∧ (∀ x, t.div3 (x ^^^ t.double x) = x) ∧
    t.div3 0x01 = 0xF4 ∧ t.div3 0x02 = 0xF5 ∧ t.div3 0x03 = 0x01 ∧ t.div3 0x9D = 0x80 ∧ t.div3 0xFF = 0x55

/-- Rule R82: the properties of `E`; the last clause is the remark on its polynomial. -/
def Obligations.ChecksumTableProperties : Prop :=
  (∀ t : Tables, t.Built →
    t.check 0 = 0 ∧ (∀ a b, t.check (a ^^^ b) = t.check a ^^^ t.check b) ∧
    t.check 0x01 = 0x90910101 ∧ t.check 0x02 = 0x91210201 ∧ t.check 0x04 = 0x92410401 ∧ t.check 0x08 = 0x94810801 ∧
    t.check 0x10 = 0x99011001 ∧ t.check 0x20 = 0x82012001 ∧ t.check 0x40 = 0xB4014001 ∧ t.check 0x80 = 0xD8018001 ∧
    t.check 0xFF = 0x7070FF00) ∧
  (0xD8018001#32).reverse = 0x8001801B#32

/-- Rules R83, R84, R85: the three lookups return the entry, change no other state, and are refused before the tables
are built; the corner cases and examples of the rules hold of the built tables. -/
def Obligations.LookupsReturnTheEntry : Prop :=
  (∀ (s : State) (x : Byte), s.tblValid = true →
    exec (.gfDouble x) s = .next { s with result := .byte (s.tables.f.getD x.toNat 0) } ∧
    exec (.gfDiv3 x) s = .next { s with result := .byte (s.tables.b.getD x.toNat 0) } ∧
    exec (.ckLookup x) s = .next { s with result := .word (s.tables.e.getD x.toNat 0) }) ∧
  (∀ (s : State) (x : Byte) (i : Instr), i ∈ [.gfDouble x, .gfDiv3 x, .ckLookup x] → s.tblValid = false →
    exec i s = .next { s with err := 6, engine := .idle, result := .error .notReady }) ∧
  ∀ s : State, s.Ready →
    exec (.gfDouble 0) s = .next { s with result := .byte 0 } ∧
    exec (.gfDouble 0x80) s = .next { s with result := .byte 0x1D } ∧
    exec (.gfDiv3 0) s = .next { s with result := .byte 0 } ∧
    exec (.gfDiv3 0x03) s = .next { s with result := .byte 0x01 } ∧
    exec (.ckLookup 0x01) s = .next { s with result := .word 0x90910101 }

/-- Rule R86: `fold` runs the loop of the rule; its corner cases and example; refused before the tables are built. -/
def Obligations.FoldRunsTheChecksumLoop : Prop :=
  (∀ (s : State) (ck : Word) (bytes : List Byte), s.tblValid = true →
    exec (.fold ck bytes) s = .next { s with result := .word (Spec.foldBytes s.tables.e ck bytes) }) ∧
  (∀ (s : State) (ck : Word) (bytes : List Byte), s.tblValid = false →
    exec (.fold ck bytes) s = .next { s with err := 6, engine := .idle, result := .error .notReady }) ∧
  ∀ s : State, s.Ready →
    (∀ ck, exec (.fold ck []) s = .next { s with result := .word ck }) ∧
    exec (.fold 0 [0]) s = .next { s with result := .word 0 } ∧
    exec (.fold 0x12345678 [0xAB]) s = .next { s with result := .word 0xF4A3E757 }

/-- Rule R88: folding `a` and then `b` gives what folding `a ‖ b` gives. -/
def Obligations.FoldComposes : Prop :=
  ∀ (s : State) (ck : Word) (a b : List Byte), s.tblValid = true → ∃ v w : Word,
    exec (.fold ck a) s = .next { s with result := .word v } ∧
    exec (.fold v b) s = .next { s with result := .word w } ∧
    exec (.fold ck (a ++ b)) s = .next { s with result := .word w }

/-- Rule R89: `fold` is linear, leading zero bytes do not change a checksum that starts from 0, and a string followed
by its own checksum field folds to 0. -/
def Obligations.FoldIsLinear : Prop :=
  ∀ t : Tables, t.Built →
    (∀ (c1 c2 : Word) (a b : List Byte), a.length = b.length →
      t.fold (c1 ^^^ c2) (List.zipWith (fun x y => x ^^^ y) a b) = t.fold c1 a ^^^ t.fold c2 b) ∧
    (∀ (n : Nat) (a : List Byte), t.fold 0 (List.replicate n 0) = 0 ∧ t.fold 0 (List.replicate n 0 ++ a) = t.fold 0 a) ∧
    ∀ body : List Byte, t.fold 0 (body ++ le32 (t.fold 0 body)) = 0

/-! ## The ECC Engine (41_ecc_engine.md) -/

/-- Rule R100: `verify` writes no byte of the frame and answers 1 exactly when every stored parity byte of the layer is
the computed one. -/
def Obligations.ProcessVerifyComparesEveryParityByte : Prop :=
  ∀ (s : State) (layer : Layer), s.tblValid = true → ∃ (regs : EccRegs) (ok : Bool),
    exec (.process layer .verify) s = .next { s with ecc := regs, result := .ok ok } ∧
    (ok = true ↔ ∀ maj < Spec.majors layer,
      s.frame.read (Spec.field layer + maj) = Spec.p0 s.tables s.frame layer maj ∧
      s.frame.read (Spec.field layer + maj + Spec.majors layer) = Spec.p1 s.tables s.frame layer maj)

/-- Rule R101: `write` overwrites every parity byte of the layer and no other byte of the frame, answers 1, and the old
content of the parity field does not matter. -/
def Obligations.ProcessWriteOverwritesTheParityField : Prop :=
  (∀ (s : State) (layer : Layer), s.tblValid = true → s.frame.wf → ∃ (regs : EccRegs) (m : Memory), m.wf ∧
    exec (.process layer .write) s = .next { s with ecc := regs, frame := m, result := .ok true } ∧
    (∀ maj < Spec.majors layer,
      m.read (Spec.field layer + maj) = Spec.p0 s.tables s.frame layer maj ∧
      m.read (Spec.field layer + maj + Spec.majors layer) = Spec.p1 s.tables s.frame layer maj) ∧
    ∀ a, ¬Spec.InField layer a → m.read a = s.frame.read a) ∧
  ∀ (s s' t t' : State) (layer : Layer), s.tblValid = true → s'.tblValid = true → s.tables = s'.tables →
    s.frame.wf → s'.frame.wf → (∀ a, ¬Spec.InField layer a → s.frame.read a = s'.frame.read a) →
    exec (.process layer .write) s = .next t → exec (.process layer .write) s' = .next t' → t.frame = t'.frame

/-- Rules R104, R105, R107 in `verify` mode: the frame is unchanged and the answer is 1 exactly when both layers hold,
the address field read as zero when `zero_address` is set. -/
def Obligations.GenerateParityVerifyAnswersForBothLayers : Prop :=
  ∀ (s : State) (zeroAddress : Bool), s.tblValid = true → s.frame.wf → ∃ (regs : EccRegs) (ok : Bool),
    exec (.generateParity zeroAddress .verify) s = .next { s with ecc := regs, result := .ok ok } ∧
    (ok = true ↔ ∀ layer, Spec.ParityOf s.tables (Spec.seen zeroAddress s.frame) s.frame layer)

/-- Rules R104, R106, R107 in `write` mode: exactly the two parity fields are written, P from the data region and Q from
the data region and the P bytes just written (both layers hold in the frame that results); the answer is 1. -/
def Obligations.GenerateParityWritesBothFields : Prop :=
  ∀ (s : State) (zeroAddress : Bool), s.tblValid = true → s.frame.wf → ∃ (regs : EccRegs) (m : Memory), m.wf ∧
    exec (.generateParity zeroAddress .write) s = .next { s with ecc := regs, frame := m, result := .ok true } ∧
    (∀ layer, Spec.ParityOf s.tables (Spec.seen zeroAddress m) m layer) ∧
    ∀ a, ¬(0x81C ≤ a ∧ a < 0x930) → m.read a = s.frame.read a

/-- Rule R105: with `zero_address` the address field keeps its value, and neither the answer nor a parity byte depends
on it. -/
def Obligations.ZeroAddressHidesTheAddressField : Prop :=
  ∀ (s s' : State) (mode : EccMode), s.tblValid = true → s'.tblValid = true → s.tables = s'.tables →
    s.frame.wf → s'.frame.wf → (∀ a, ¬(0x00C ≤ a ∧ a < 0x010) → s.frame.read a = s'.frame.read a) →
    ∃ t t', exec (.generateParity true mode) s = .next t ∧ exec (.generateParity true mode) s' = .next t' ∧
      (∀ a, 0x00C ≤ a → a < 0x010 → t.frame.read a = s.frame.read a) ∧
      t.result = t'.result ∧ ∀ a, 0x81C ≤ a → a < 0x930 → t.frame.read a = t'.frame.read a

/-- Rule R102: the parity of the exclusive or of two data regions is the exclusive or of their parities, an all-zero
region has all-zero parity, and a `verify` after a `write` answers 1. -/
def Obligations.ParityIsLinear : Prop :=
  (∀ (t : Tables) (m m1 m2 : Memory) (layer : Layer), t.Built →
    (∀ a, m.read a = m1.read a ^^^ m2.read a) → ∀ maj < Spec.majors layer,
      Spec.p0 t m layer maj = Spec.p0 t m1 layer maj ^^^ Spec.p0 t m2 layer maj ∧
      Spec.p1 t m layer maj = Spec.p1 t m1 layer maj ^^^ Spec.p1 t m2 layer maj) ∧
  (∀ (t : Tables) (m : Memory) (layer : Layer), t.Built → (∀ a, m.read a = 0) → ∀ maj < Spec.majors layer,
    Spec.p0 t m layer maj = 0 ∧ Spec.p1 t m layer maj = 0) ∧
  ∀ (s : State) (layer : Layer), s.tblValid = true → s.frame.wf → ∃ t u,
    exec (.process layer .write) s = .next t ∧ exec (.process layer .verify) t = .next u ∧ u.result = .ok true

/-- Rule R110: where `verify` answers 1, `write` leaves the frame as it was. -/
def Obligations.RegenerationLeavesTheFrame : Prop :=
  ∀ (s t : State) (zeroAddress : Bool), s.tblValid = true → s.frame.wf →
    exec (.generateParity zeroAddress .verify) s = .next t → t.result = .ok true →
    ∃ regs : EccRegs, exec (.generateParity zeroAddress .write) s = .next { s with ecc := regs, result := .ok true }

/-- Rule R108 (d): in a frame that verifies, one changed byte anywhere in `S[0x00C..0x92F]` makes the answer 0. -/
def Obligations.SingleWrongByteIsDetected : Prop :=
  ∀ (s t : State) (a : Nat) (v : Byte), s.tblValid = true → s.frame.wf → 0x00C ≤ a → a < 0x930 → v ≠ s.frame.read a →
    exec (.generateParity false .verify) s = .next t → t.result = .ok true →
    ∃ u, exec (.generateParity false .verify) { s with frame := s.frame.write a v } = .next u ∧ u.result = .ok false

/-! ## The Sector Classifier (42_classifier.md) -/

/-- Rules R118, R119, R121: `classify` answers by the checks of the rules and their priority, and changes nothing a
host can read but the result; it is refused before the tables are built. The model's choices: the frame, which rule
R121 lets a classification use as scratch, is unchanged (log 17); bytes that `window_len` claims and the command does
not supply hold values of which nothing is said but that there are some, and reading them advances the draw counter
(log 19). -/
def Obligations.ClassifyDecidesByTheChecks : Prop :=
  (∀ (s : State) (w : List Byte) (n : Nat) (allow : Bool), s.tblValid = true →
    ∃ (full : List Byte) (type : SectorType) (cls : ClassifierRegs) (regs : EccRegs),
      w <+: full ∧ min n 2352 ≤ full.length ∧ (min n 2352 ≤ w.length → full = w) ∧
      exec (.classify w n allow) s = .next { s with
        cls := cls, ecc := regs, result := .sector type
        draws := if 2336 ≤ n ∧ w.length < min n 2352 then s.draws + 1 else s.draws } ∧
      (type = .mode1 ↔ Spec.Mode1Window s.tables full n allow) ∧
      (type = .mode2form1 ↔ Spec.Mode2Form1Window s.tables full n ∧ ¬Spec.Mode1Window s.tables full n allow) ∧
      (type = .mode2form2 ↔ Spec.Mode2Form2Window s.tables full n ∧ ¬Spec.Mode1Window s.tables full n allow ∧
        ¬Spec.Mode2Form1Window s.tables full n)) ∧
  ∀ (s : State) (w : List Byte) (n : Nat) (allow : Bool), s.tblValid = false →
    exec (.classify w n allow) s = .next { s with err := 6, engine := .idle, result := .error .notReady }

/-- Rule R112: a window shorter than 2336 bytes is `Literal`, whatever its bytes. -/
def Obligations.ShortWindowIsLiteral : Prop :=
  ∀ (s : State) (w : List Byte) (n : Nat) (allow : Bool), s.tblValid = true → n < 2336 →
    exec (.classify w n allow) s = .next { s with result := .sector .literal }

/-- Rules R113, R119, R120: once the `Mode1` candidate has survived its fixed fields, both Mode2 candidates are
cleared, and where one of these survives, the `Mode1` candidate is clear; so it is among the flags a `classify` leaves,
since a cleared flag stays clear (rule R113), and no window meets the `Mode1` criteria and those of a Mode2 form. The
model's choices: that the flags keep their last values after the operation (log 5), and that a command that supplies
fewer bytes than `window_len` claims runs (log 19). -/
def Obligations.Mode1ExcludesMode2 : Prop :=
  (∀ (w : List Byte) (n : Nat) (allow : Bool),
    ((candidates w n allow).c1 = true → (candidates w n allow).c2 = false ∧ (candidates w n allow).c3 = false) ∧
    ((candidates w n allow).c2 = true ∨ (candidates w n allow).c3 = true → (candidates w n allow).c1 = false)) ∧
  (∀ (s : State) (w : List Byte) (n : Nat) (allow : Bool), s.tblValid = true → 2336 ≤ n →
    ∃ t, exec (.classify w n allow) s = .next t ∧ (t.cls.c1 = true → t.cls.c2 = false ∧ t.cls.c3 = false) ∧
      (t.cls.c2 = true ∨ t.cls.c3 = true → t.cls.c1 = false)) ∧
  ∀ (t : Tables) (w : List Byte) (n : Nat) (allow : Bool), Spec.Mode1Window t w n allow →
    ¬Spec.Mode2Form1Window t w n ∧ ¬Spec.Mode2Form2Window t w n

/-- Rules R121, R122: `classify` changes nothing a host can read but its result, which is a function of the tables, the
window's bytes below `min(window_len, 2352)`, of which side of 2336 and of 2352 `window_len` lies, and of
`allow_mode1`; once the `Mode1` candidate has fallen to a check other than its parity, only the first 2336 bytes
count, and no more need be there. The model's choices: the frame, which rule R121 lets a classification use as scratch,
is unchanged (log 17), and so is the draw counter where every byte is there (log 19). -/
def Obligations.ClassifyReadsOnlyItsWindow : Prop :=
  ∀ (s s' : State) (w w' : List Byte) (n n' : Nat) (allow : Bool), s.tblValid = true → s'.tblValid = true →
    s.tables = s'.tables → (2336 ≤ n ↔ 2336 ≤ n') → (2352 ≤ n ↔ 2352 ≤ n') →
    (w.take (min n 2352) = w'.take (min n' 2352) ∧ min n 2352 ≤ w.length ∧ min n' 2352 ≤ w'.length ∨
      ((allow = false ∨ n < 2352 ∨
          slice w 0 12 ≠ [0x00, 0xFF, 0xFF, 0xFF, 0xFF, 0xFF, 0xFF, 0xFF, 0xFF, 0xFF, 0xFF, 0x00] ∨
          slice w 0x00F 1 ≠ [0x01] ∨ slice w 0x814 8 ≠ [0, 0, 0, 0, 0, 0, 0, 0] ∨
          ¬Spec.ChecksumAt s.tables w 0x810) ∧
        w.take 2336 = w'.take 2336 ∧ min n 2336 ≤ w.length ∧ min n' 2336 ≤ w'.length)) →
    ∃ (type : SectorType) (cls cls' : ClassifierRegs) (regs regs' : EccRegs) (draws draws' : Nat),
      (min n 2352 ≤ w.length → draws = s.draws) ∧ (min n' 2352 ≤ w'.length → draws' = s'.draws) ∧
      exec (.classify w n allow) s = .next { s with cls := cls, ecc := regs, result := .sector type, draws := draws } ∧
      exec (.classify w' n' allow) s' =
        .next { s' with cls := cls', ecc := regs', result := .sector type, draws := draws' }

/-! ## The Stream Encoder (43_encoder.md) -/

/-- Rule R139: the empty source. -/
def Obligations.EmptySourceEncodes : Prop :=
  ∀ s : State, s.tblValid = true → s.NoIoFailure → s.src = [] → ∃ t, exec .encode s = .next t ∧
    t.snk = s.snk ++ [0x45, 0x43, 0x4D, 0x00, 0xFC, 0xFF, 0xFF, 0xFF, 0x3F, 0x00, 0x00, 0x00, 0x00] ∧
    t.err = 0 ∧ t.result = .success

/-- Rules R134, R135, R141: the bytes `encode` appends are those of the rule's function, every source byte is folded
once and in order, `ERR` is 0; tables, frame, source and the host's side are unchanged. That the frame, which a
classification may use as scratch (rule R121), is unchanged is the model's choice (log 17). -/
def Obligations.EncodeWritesTheStream : Prop :=
  ∀ s : State, s.tblValid = true → s.NoIoFailure →
    ∃ (stats : Stats) (enc : EncoderRegs) (cls : ClassifierRegs) (regs : EccRegs) (la : List Byte) (laPos : Nat),
      exec .encode s = .next { s with
        snk := s.snk ++ Spec.stream s.tables s.src, snkStart := s.snk.length, ck := s.tables.fold 0 s.src
        stats := stats, enc := enc, cls := cls, ecc := regs, la := la, laPos := laPos
        err := 0, engine := .idle, result := .success }

/-- Rule R137: the statistics of a successful `encode`. -/
def Obligations.EncodeCountsItsBlocks : Prop :=
  ∀ s : State, s.tblValid = true → s.NoIoFailure → ∃ t, exec .encode s = .next t ∧
    (∀ type, t.stats.count type = ((Spec.blocks s.tables (s.src.length + 1) s.src).map Prod.fst).count type) ∧
    t.stats.bytesIn = s.src.length ∧ t.snk.length = s.snk.length + t.stats.bytesOut ∧
    t.stats.literal + 2352 * t.stats.mode1 + 2336 * (t.stats.mode2form1 + t.stats.mode2form2) = t.stats.bytesIn

/-- Rules R138, R170, R171, R174: `encode` ends with 0, `IoError` or `NotReady`: with `NotReady` exactly when the tables
are not built, with 0 when no device fails, with `IoError` when the source fails before its end or the sink cannot
hold the stream; the sink keeps what it held before. -/
def Obligations.EncodeFailsOnlyOnIo : Prop :=
  ∀ s : State, ∃ t, exec .encode s = .next t ∧ (t.err = 0 ∨ t.err = 5 ∨ t.err = 6) ∧
    (t.err = 6 ↔ s.tblValid = false) ∧ s.snk <+: t.snk ∧
    (s.tblValid = true →
      (s.NoIoFailure → t.err = 0) ∧
      (∀ k, s.srcFail = some k → k < s.src.length → t.err = 5) ∧
      ∀ k, s.snkCap = some k → k < (s.snk ++ Spec.stream s.tables s.src).length → t.err = 5)

/-- Rules R140, R142: a source too short for any sector becomes one `LIT` record. -/
def Obligations.ShortSourceIsOneLiteralRecord : Prop :=
  ∀ s : State, s.tblValid = true → s.NoIoFailure → s.src ≠ [] → s.src.length < 2336 →
    ∃ t, exec .encode s = .next t ∧ t.err = 0 ∧ t.snk = s.snk ++ ([0x45, 0x43, 0x4D, 0x00] ++
      headerBytes .literal (BitVec.ofNat 32 s.src.length) ++ s.src ++ [0xFC, 0xFF, 0xFF, 0xFF, 0x3F] ++
      le32 (s.tables.fold 0 s.src))

/-! ## The Stream Decoder (44_decoder.md) -/

/-- Rules R145, R166: a source without the magic is refused as `MalformedHeader` and nothing is written to the sink. -/
def Obligations.DecodeNeedsTheMagic : Prop :=
  ∀ s : State, s.tblValid = true → s.NoIoFailure →
    (s.src.length < 4 ∨ s.src.take 4 ≠ [0x45, 0x43, 0x4D, 0x00]) →
    ∃ t, exec .decode s = .next t ∧ t.err = 1 ∧ t.engine = .idle ∧ t.result = .error .malformedHeader ∧ t.snk = s.snk

/-- Rule R149: `LIT` copies and folds its payload; a short payload is `UnexpectedEndOfInput`. That `REC_LEFT` holds 0
after it is the model's choice (log 5). -/
def Obligations.LitCopiesItsPayload : Prop :=
  ∀ (s : State) (count : Nat), s.tblValid = true → s.NoIoFailure →
    (s.dec.rpos + count ≤ s.src.length →
      exec (.lit count) s = .next { s with
        snk := s.snk ++ slice s.src s.dec.rpos count
        ck := s.tables.fold s.ck (slice s.src s.dec.rpos count)
        dec := { s.dec with rpos := s.dec.rpos + count, recLeft := 0 } }) ∧
    (s.src.length < s.dec.rpos + count → ∃ t, exec (.lit count) s = .next t ∧ t.err = 2 ∧ t.engine = .idle ∧
      t.result = .error .unexpectedEndOfInput)

/-- Rule R150, with the field map of rule R43: each sector of `M1` is rebuilt from its 2051 payload bytes, folded and
appended; a short payload is `UnexpectedEndOfInput`. -/
def Obligations.M1RebuildsItsSectors : Prop :=
  ∀ (s : State) (count : Nat), s.tblValid = true → s.NoIoFailure → s.frame.wf →
    (s.dec.rpos + 2051 * count ≤ s.src.length →
      ∃ (sectors : List (List Byte)) (m : Memory) (regs : EccRegs), sectors.length = count ∧ m.wf ∧
        (∀ k < count, Spec.IsMode1Sector s.tables (slice s.src (s.dec.rpos + 2051 * k) 2051) (sectors.getD k [])) ∧
        (∀ last, sectors.getLast? = some last → m.readBytes 0x000 2352 = last) ∧
        exec (.m1 count) s = .next { s with
          snk := s.snk ++ sectors.flatten, ck := s.tables.fold s.ck sectors.flatten, frame := m, ecc := regs
          dec := { s.dec with rpos := s.dec.rpos + 2051 * count, recLeft := 0 } }) ∧
    (1 ≤ count → s.src.length < s.dec.rpos + 2051 * count → ∃ t, exec (.m1 count) s = .next t ∧ t.err = 2 ∧ t.engine = .idle ∧
      t.result = .error .unexpectedEndOfInput)

/-- Rule R151, with the field map of rule R44: each sector of `M2F1` is rebuilt from its 2052 payload bytes, folded and
appended; the frame before the sector is not written. -/
def Obligations.M2F1RebuildsItsSectors : Prop :=
  ∀ (s : State) (count : Nat), s.tblValid = true → s.NoIoFailure → s.frame.wf →
    (s.dec.rpos + 2052 * count ≤ s.src.length →
      ∃ (sectors : List (List Byte)) (m : Memory) (regs : EccRegs), sectors.length = count ∧ m.wf ∧
        (∀ k < count, Spec.IsMode2Form1Sector s.tables (slice s.src (s.dec.rpos + 2052 * k) 2052) (sectors.getD k [])) ∧
        (∀ last, sectors.getLast? = some last → m.readBytes 0x010 2336 = last) ∧
        (∀ a < 0x010, m.read a = s.frame.read a) ∧
        exec (.m2f1 count) s = .next { s with
          snk := s.snk ++ sectors.flatten, ck := s.tables.fold s.ck sectors.flatten, frame := m, ecc := regs
          dec := { s.dec with rpos := s.dec.rpos + 2052 * count, recLeft := 0 } }) ∧
    (1 ≤ count → s.src.length < s.dec.rpos + 2052 * count → ∃ t, exec (.m2f1 count) s = .next t ∧ t.err = 2 ∧ t.engine = .idle ∧
      t.result = .error .unexpectedEndOfInput)

/-- Rule R152, with the field map of rule R45: each sector of `M2F2` is rebuilt from its 2328 payload bytes, folded and
appended, without the ECC Engine. -/
def Obligations.M2F2RebuildsItsSectors : Prop :=
  ∀ (s : State) (count : Nat), s.tblValid = true → s.NoIoFailure → s.frame.wf →
    (s.dec.rpos + 2328 * count ≤ s.src.length →
      ∃ (sectors : List (List Byte)) (m : Memory), sectors.length = count ∧ m.wf ∧
        (∀ k < count, Spec.IsMode2Form2Sector s.tables (slice s.src (s.dec.rpos + 2328 * k) 2328) (sectors.getD k [])) ∧
        (∀ last, sectors.getLast? = some last → m.readBytes 0x010 2336 = last) ∧
        (∀ a < 0x010, m.read a = s.frame.read a) ∧
        exec (.m2f2 count) s = .next { s with
          snk := s.snk ++ sectors.flatten, ck := s.tables.fold s.ck sectors.flatten, frame := m
          dec := { s.dec with rpos := s.dec.rpos + 2328 * count, recLeft := 0 } }) ∧
    (1 ≤ count → s.src.length < s.dec.rpos + 2328 * count → ∃ t, exec (.m2f2 count) s = .next t ∧ t.err = 2 ∧ t.engine = .idle ∧
      t.result = .error .unexpectedEndOfInput)

/-- Rule R153: `END` ends the record loop; nothing is written and `CK` is unchanged. The engine's state between the
records and the trailer, and that `END` runs there whatever `TBL_VALID` is, are the model's choices (log 7). -/
def Obligations.EndGoesOnToTheTrailer : Prop :=
  ∀ s : State, exec .endRecord s = .next { s with engine := .trailer }

/-- Rule R158: the trailer is four bytes compared with `LE32(CK)`, after every output byte has been written (the steps
inside a `decode` are the model's own, log 7). -/
def Obligations.TrailerIsCompared : Prop :=
  ∀ s : State, s.engine = .trailer → s.NoIoFailure →
    (s.dec.rpos + 4 ≤ s.src.length →
      (slice s.src s.dec.rpos 4 = le32 s.ck → step s = .next { s with
        dec := { s.dec with rpos := s.dec.rpos + 4 }, err := 0, engine := .idle, result := .success }) ∧
      (slice s.src s.dec.rpos 4 ≠ le32 s.ck → step s = .next { s with
        dec := { s.dec with rpos := s.dec.rpos + 4 }, err := 4, engine := .idle
        result := .error .checksumMismatch })) ∧
    (s.src.length < s.dec.rpos + 4 → ∃ t, step s = .next t ∧ t.err = 2 ∧ t.engine = .idle ∧
      t.result = .error .unexpectedEndOfInput)

/-- Rules R54, R145 to R153, R157 to R160: `decode` of a stream of records appends what the records stand for and ends
with 0, its `RPOS` after the trailer, whatever bytes follow; without a sector record the frame is unchanged, without
an `M1` record the frame before `0x010` is. -/
def Obligations.DecodeExecutesTheRecords : Prop :=
  ∀ (s : State) (recs : List Spec.Record) (sentinel junk : List Byte), s.tblValid = true → s.NoIoFailure →
    s.frame.wf → (∀ r ∈ recs, r.Legal s.tables) → decodeRecord sentinel = (sentinel.length, .ok .endRecord) →
    s.src = Spec.streamOf recs sentinel (le32 (s.tables.fold 0 (Spec.output recs))) ++ junk →
    ∃ (dec : DecoderRegs) (regs : EccRegs) (m : Memory), m.wf ∧ dec.rpos + junk.length = s.src.length ∧
      ((∀ r ∈ recs, r.type = .literal) → m = s.frame) ∧
      ((∀ r ∈ recs, r.type ≠ .mode1) → ∀ a < 0x010, m.read a = s.frame.read a) ∧
      exec .decode s = .next { s with
        snk := s.snk ++ Spec.output recs, snkStart := s.snk.length, ck := s.tables.fold 0 (Spec.output recs)
        dec := dec, ecc := regs, frame := m, err := 0, engine := .idle, result := .success }

/-- Rule R169: a stream whose trailer is not the checksum of what it stands for is a `ChecksumMismatch`. -/
def Obligations.CorruptedTrailerIsDetected : Prop :=
  ∀ (s : State) (recs : List Spec.Record) (sentinel trailer junk : List Byte), s.tblValid = true → s.NoIoFailure →
    s.frame.wf → (∀ r ∈ recs, r.Legal s.tables) → decodeRecord sentinel = (sentinel.length, .ok .endRecord) →
    trailer.length = 4 → trailer ≠ le32 (s.tables.fold 0 (Spec.output recs)) →
    s.src = Spec.streamOf recs sentinel trailer ++ junk →
    ∃ t, exec .decode s = .next t ∧ t.err = 4 ∧ t.engine = .idle ∧ t.result = .error .checksumMismatch

/-- Rules R167, R170: reads that come up short. A header cut off, a stream that ends after its records with no `END`
(or right after the magic), and a payload that reaches a failing source; every other failing read and write of a
`decode` is in `IoFailuresEndTheDecode`. The steps inside a `decode` (log 7) and how a device fails (log 9) are the
model's choices. -/
def Obligations.ShortReadsEndTheDecode : Prop :=
  (∀ s : State, s.engine = .records → s.NoIoFailure → (parseHeader s.readable).value = .error .headerShort →
    ∃ t, step s = .next t ∧ t.err = 2 ∧ t.engine = .idle ∧ t.result = .error .unexpectedEndOfInput) ∧
  (∀ (s : State) (recs : List Spec.Record), s.tblValid = true → s.NoIoFailure → s.frame.wf →
    (∀ r ∈ recs, r.Legal s.tables) → s.src = [0x45, 0x43, 0x4D, 0x00] ++ (recs.map Spec.Record.bytes).flatten →
    ∃ t, exec .decode s = .next t ∧ t.err = 2 ∧ t.engine = .idle ∧ t.result = .error .unexpectedEndOfInput) ∧
  ∀ (s : State) (count k : Nat), s.tblValid = true → s.srcFail = some k → k < s.dec.rpos + count →
    s.dec.rpos + count ≤ s.src.length →
    ∃ t, exec (.lit count) s = .next t ∧ t.err = 5 ∧ t.engine = .idle ∧ t.result = .error .ioError

/-- Rule R161: for every byte string, decoding what `encode` appended gives the bytes back. -/
def Obligations.StreamRoundTrip : Prop :=
  ∀ s u : State, s.tblValid = true → s.NoIoFailure → u.tblValid = true → u.tables = s.tables → u.NoIoFailure →
    u.frame.wf → ∃ t, exec .encode s = .next t ∧ t.err = 0 ∧
      (u.src = t.snk.drop s.snk.length → ∃ v, exec .decode u = .next v ∧ v.err = 0 ∧ v.result = .success ∧
        v.snk = u.snk ++ s.src)

/-! ## Errors and the whole machine (60_exceptions.md, 20_memory.md, 70_reset_and_hazards.md) -/

/-- Rule R171: an operation other than `build_tables` that is started before the tables are built is refused with
`NotReady` and does nothing else. -/
def Obligations.NotReadyDoesNothingElse : Prop :=
  ∀ (i : Instr) (s : State), isOperation i = true → i ≠ .buildTables → s.engine = .idle → s.tblValid = false →
    exec i s = .next { s with err := 6, result := .error .notReady }

/-- Rules R165, R172, R197: every operation ends with the engine idle; `encode` and `decode` end with success and 0, or
with an error and its code. -/
def Obligations.EveryOperationEnds : Prop :=
  ∀ (i : Instr) (s : State), isOperation i = true → s.engine = .idle → ∃ t, exec i s = .next t ∧ t.engine = .idle ∧
    (i = .encode ∨ i = .decode →
      (t.result = .success ∧ t.err = 0) ∨ ∃ e : ErrorCode, t.result = .error e ∧ t.err = (match e with
        | .malformedHeader => 1
        | .unexpectedEndOfInput => 2
        | .corruptRecord => 3
        | .checksumMismatch => 4
        | .ioError => 5
        | .notReady => 6))

/-- Rules R40, R174: the sink only grows over an operation, whether it succeeds or not; over a record it keeps what it
held before the operation; only `encode`, `decode` and the records write it. -/
def Obligations.SinkOnlyGrows : Prop :=
  ∀ (i : Instr) (s t : State), exec i s = .next t →
    (isOperation i = true → s.snk <+: t.snk) ∧
    (isOperation i = false → s.snkStart ≤ s.snk.length → s.snk.take s.snkStart <+: t.snk) ∧
    (isOperation i = true → i ≠ .encode → i ≠ .decode → t.snk = s.snk)

/-- Rules R21, R22, R23, R163: who writes the control and status registers. That `build_tables` leaves `ERR` is the
model's choice (log 14, against a note of the opcode table). -/
def Obligations.ControlRegistersHaveTheirWriters : Prop :=
  ∀ (i : Instr) (s t : State), exec i s = .next t →
    (i ≠ .encode → t.stats = s.stats) ∧ (s.tblValid = true → t.tblValid = true) ∧
    (isOperation i = true → i ≠ .encode → i ≠ .decode → s.tblValid = true → t.err = s.err) ∧
    (i ≠ .buildTables → t.tblValid = s.tblValid)

/-- Rule R51: no write of the block reaches `SRC`, so no record is changed by an earlier one; nor does the block change
the host's own side. The host's queue (log 1), the fields of the failing devices (log 9) and the steps inside a
`decode` (log 7) are the model's own. -/
def Obligations.SourceIsNeverWritten : Prop :=
  (∀ (i : Instr) (s t : State), exec i s = .next t →
    t.src = s.src ∧ t.host = s.host ∧ t.srcFail = s.srcFail ∧ t.snkCap = s.snkCap) ∧
  ∀ s t : State, s.engine ≠ .idle → step s = .next t → t.src = s.src

/-- Rules R15, R16, R30: the working registers and the lookahead buffer hold nothing that a later operation depends on:
two states that look alike to the host look alike after any operation. -/
def Obligations.WorkingRegistersAreUnobservable : Prop :=
  ∀ (i : Instr) (s s' t : State), isOperation i = true → s.visible = s'.visible → exec i s = .next t →
    ∃ t', exec i s' = .next t' ∧ t'.visible = t.visible

/-- Rules R11, R160: `decode` in one step is the sum of its rounds: from its start, some number of steps of the machine
lead to the state `decode` gives (the steps inside a `decode` are the model's own, log 7). -/
def Obligations.DecodeIsTheSumOfItsRounds : Prop :=
  ∀ s : State, s.tblValid = true → s.engine = .idle → ∃ (k : Nat) (t : State), exec .decode s = .next t ∧
    Sys2Proof.core.run k (decodeStart s) = .next t

/-- The invariant of the model holds after reset. -/
def Obligations.ResetMeetsTheInvariant : Prop := State.reset.Inv

/-- Rules R14, R15, R32, R33, R136: every step keeps the invariant, from every state that meets it. -/
def Obligations.StepKeepsTheInvariant : Prop :=
  ∀ s t : State, s.Inv → step s = .next t → t.Inv

/-! ## Failing devices inside `decode` (60_exceptions.md, 44_decoder.md) -/

/-- Rule R170: whichever access of a `decode` a device fails at, the `decode` ends with `IoError`: a failing source at
the magic, at a header, in a payload of any record, at the trailer, or anywhere in a stream of records; a sink that
cannot hold the output of a record, or of a stream of records. How a device fails, and that a failing source comes
before a source that is too short, are the model's choices (log 9), as are the steps inside a `decode` (log 7). -/
def Obligations.IoFailuresEndTheDecode : Prop :=
  (∀ (s : State) (k : Nat), s.tblValid = true → s.srcFail = some k → k < 4 → k < s.src.length →
    ∃ t, exec .decode s = .next t ∧ t.err = 5 ∧ t.engine = .idle ∧ t.result = .error .ioError ∧ s.snk <+: t.snk) ∧
  (∀ (s : State) (k : Nat), s.engine = .records → s.srcFail = some k → k < s.src.length →
    (parseHeader s.readable).value = .error .headerShort →
    ∃ t, step s = .next t ∧ t.err = 5 ∧ t.engine = .idle ∧ t.result = .error .ioError) ∧
  (∀ (s : State) (type : SectorType) (count k : Nat), s.tblValid = true → 1 ≤ count → s.srcFail = some k →
    k < s.src.length → k < s.dec.rpos + payloadSize type * count →
    ∃ t, exec (recordOf type count) s = .next t ∧ t.err = 5 ∧ t.engine = .idle ∧ t.result = .error .ioError) ∧
  (∀ (s : State) (k : Nat), s.engine = .trailer → s.srcFail = some k → k < s.src.length → k < s.dec.rpos + 4 →
    ∃ t, step s = .next t ∧ t.err = 5 ∧ t.engine = .idle ∧ t.result = .error .ioError) ∧
  (∀ (s : State) (type : SectorType) (count cap : Nat), s.tblValid = true → 1 ≤ count → s.srcFail = none →
    s.dec.rpos + payloadSize type * count ≤ s.src.length → s.snkCap = some cap →
    cap < s.snk.length + blockSize type * count →
    ∃ t, exec (recordOf type count) s = .next t ∧ t.err = 5 ∧ t.engine = .idle ∧ t.result = .error .ioError) ∧
  ∀ (s : State) (recs : List Spec.Record) (sentinel trailer junk : List Byte), s.tblValid = true →
    (∀ r ∈ recs, r.Legal s.tables) → decodeRecord sentinel = (sentinel.length, .ok .endRecord) →
    trailer.length = 4 → s.src = Spec.streamOf recs sentinel trailer ++ junk →
    ((∃ k, s.srcFail = some k ∧ k < (Spec.streamOf recs sentinel trailer).length) ∨
      (recs ≠ [] ∧ ∃ cap, s.snkCap = some cap ∧ cap < s.snk.length + (Spec.output recs).length)) →
    ∃ t, exec .decode s = .next t ∧ t.err = 5 ∧ t.engine = .idle ∧ t.result = .error .ioError ∧ s.snk <+: t.snk

end Claims
end

