-- ==== Sys2Proof/Laws/Bytes.lean ====
section
/-!
SUPPORT. The laws of byte strings: slices, little-endian words, the checksum fold.
-/

namespace Sys2Proof.Machine

theorem length_slice (x : List Byte) (a n : Nat) : (slice x a n).length = min n (x.length - a) := by simp [slice]

theorem length_slice_of_le {x : List Byte} {a n : Nat} (h : a + n ≤ x.length) : (slice x a n).length = n := by
  rw [length_slice]; omega

theorem getD_slice (x : List Byte) (a n i : Nat) :
    (slice x a n).getD i 0 = if i < n then x.getD (a + i) 0 else 0 := by
  unfold slice
  rw [List.getD_eq_getElem?_getD, List.getElem?_take]
  split
  · rw [List.getElem?_drop, List.getD_eq_getElem?_getD]
  · rfl

/-- Two byte strings of one length that agree at every index are equal. -/
theorem bytes_ext {x y : List Byte} (hl : x.length = y.length) (h : ∀ i < x.length, x.getD i 0 = y.getD i 0) :
    x = y := by
  refine List.ext_getElem hl fun i h1 h2 => ?_
  have := h i h1
  simpa [List.getD_eq_getElem?_getD, h1, h2] using this

/-- Adjacent slices join. -/
theorem slice_append_slice (x : List Byte) (a m n : Nat) : slice x a m ++ slice x (a + m) n = slice x a (m + n) := by
  unfold slice
  rw [← List.drop_drop, ← List.take_add]

theorem slice_zero_left (x : List Byte) (n : Nat) : slice x 0 n = x.take n := by simp [slice]

/-- A slice of the readable bytes of a longer string. -/
theorem slice_append_left {x y : List Byte} {a n : Nat} (h : a + n ≤ x.length) : slice (x ++ y) a n = slice x a n := by
  unfold slice
  rw [List.drop_append_of_le_length (by omega), List.take_append_of_le_length (by simp; omega)]

/-- Equal slices follow from equal bytes. -/
theorem slice_congr {x y : List Byte} {a b n : Nat} (hx : a + n ≤ x.length) (hy : b + n ≤ y.length)
    (h : ∀ i < n, x.getD (a + i) 0 = y.getD (b + i) 0) : slice x a n = slice y b n := by
  refine bytes_ext (by rw [length_slice_of_le hx, length_slice_of_le hy]) fun i hi => ?_
  rw [length_slice_of_le hx] at hi
  rw [getD_slice, getD_slice, if_pos hi, if_pos hi, h i hi]

@[simp] theorem length_le32 (v : Word) : (le32 v).length = 4 := rfl

/-- `UNLE32` undoes `LE32` (rule R90). -/
theorem unle32_le32 (v : Word) : unle32 (le32 v) = v := by
  unfold unle32 le32
  simp only [List.getD_cons_zero, List.getD_cons_succ]
  ext i hi
  simp only [BitVec.getElem_or, BitVec.getElem_shiftLeft, BitVec.getElem_setWidth, BitVec.getLsbD_extractLsb']
  rcases Nat.lt_or_ge i 8 with h | h
  · simp [h, show i < 16 by omega, show i < 24 by omega, BitVec.getLsbD_eq_getElem, hi]
  · rcases Nat.lt_or_ge i 16 with h' | h'
    · simp [h', show i - 8 < 8 by omega, show ¬ i < 8 by omega, show i < 24 by omega,
        show 8 + (i - 8) = i by omega, BitVec.getLsbD_eq_getElem, hi]
    · rcases Nat.lt_or_ge i 24 with h'' | h''
      · simp [h, h'', show i - 16 < 8 by omega, show ¬ i < 8 by omega, show ¬ i < 16 by omega,
          show 16 + (i - 16) = i by omega, BitVec.getLsbD_eq_getElem, hi, show ¬ i - 8 < 8 by omega]
      · simp [h, h', show i - 24 < 8 by omega, show ¬ i < 8 by omega, show ¬ i < 16 by omega,
          show ¬ i < 24 by omega, show 24 + (i - 24) = i by omega, BitVec.getLsbD_eq_getElem, hi,
          show ¬ i - 8 < 8 by omega, show ¬ i - 16 < 8 by omega]

theorem le32_injective {v w : Word} (h : le32 v = le32 w) : v = w := by
  rw [← unle32_le32 v, h, unle32_le32]

@[simp] theorem Tables.fold_nil (t : Tables) (ck : Word) : t.fold ck [] = ck := rfl

@[simp] theorem Tables.fold_cons (t : Tables) (ck : Word) (b : Byte) (bs : List Byte) :
    t.fold ck (b :: bs) = t.fold (t.foldByte ck b) bs := rfl

theorem Tables.fold_append (t : Tables) (ck : Word) (a b : List Byte) :
    t.fold ck (a ++ b) = t.fold (t.fold ck a) b := by simp [Tables.fold, List.foldl_append]

end Sys2Proof.Machine
end

