-- ==== Sys2Proof/Laws/Memory.lean ====
section
/-!
SUPPORT. The laws of the frame: a read after a write, reads elsewhere, and that every operation keeps the canonical
form; then the same for byte ranges.
-/

namespace Sys2Proof.Machine

@[simp] theorem Memory.read_nil (a : Nat) : Memory.read [] a = 0 := rfl

theorem Memory.read_cons (k : Nat) (v : Byte) (m : Memory) (a : Nat) :
    Memory.read ((k, v) :: m) a = if k = a then v else m.read a := rfl

theorem Memory.read_eq_zero {m : Memory} {a : Nat} (h : ∀ c ∈ m, c.1 ≠ a) : m.read a = 0 := by
  induction m with
  | nil => rfl
  | cons c m ih =>
    obtain ⟨k, v⟩ := c
    rw [read_cons, if_neg (h (k, v) (by simp))]
    exact ih fun c hc => h c (by simp [hc])

theorem Memory.read_write_ne (m : Memory) {a b : Nat} (v : Byte) (h : b ≠ a) : (m.write a v).read b = m.read b := by
  induction m with
  | nil => unfold write; split <;> simp [read_cons, Ne.symm h]
  | cons c m ih =>
    obtain ⟨k, x⟩ := c
    unfold write
    split
    · split <;> simp [read_cons, Ne.symm h]
    · split
      · rename_i h2
        subst h2
        split <;> simp [read_cons, Ne.symm h]
      · simp [read_cons, ih]

theorem Memory.read_write_self {m : Memory} (hm : m.wf) (a : Nat) (v : Byte) : (m.write a v).read a = v := by
  obtain ⟨hp, -, -⟩ := hm
  induction m with
  | nil => unfold write; split <;> simp_all [read_cons]
  | cons c m ih =>
    obtain ⟨k, x⟩ := c
    rw [List.pairwise_cons] at hp
    unfold write
    split
    · split
      · rename_i h1 h2
        rw [h2]
        refine read_eq_zero fun c hc => ?_
        rcases List.mem_cons.1 hc with rfl | hc
        · simp; omega
        · have := hp.1 c hc; simp at this; omega
      · simp [read_cons]
    · split
      · rename_i h2
        subst h2
        split
        · rename_i h3
          rw [h3]
          refine read_eq_zero fun c hc => ?_
          have := hp.1 c hc; simp at this; omega
        · simp [read_cons]
      · rename_i h1 h2
        rw [read_cons, if_neg (Ne.symm h2), ih hp.2]

theorem Memory.read_write {m : Memory} (hm : m.wf) (a b : Nat) (v : Byte) :
    (m.write a v).read b = if b = a then v else m.read b := by
  split
  · subst_vars; exact read_write_self hm _ _
  · exact read_write_ne _ _ ‹_›

theorem Memory.mem_write {m : Memory} {a : Nat} {v : Byte} {c : Host.Cell} (h : c ∈ m.write a v) :
    c ∈ m ∨ (c = (a, v) ∧ v ≠ 0) := by
  induction m with
  | nil => unfold write at h; split at h <;> simp_all
  | cons d m ih =>
    obtain ⟨k, x⟩ := d
    unfold write at h
    split at h
    · split at h
      · exact .inl h
      · rcases List.mem_cons.1 h with h | h
        · exact .inr ⟨h, ‹_›⟩
        · exact .inl h
    · split at h
      · split at h
        · exact .inl (List.mem_cons_of_mem _ h)
        · rcases List.mem_cons.1 h with h | h
          · exact .inr ⟨h, ‹_›⟩
          · exact .inl (List.mem_cons_of_mem _ h)
      · rcases List.mem_cons.1 h with h | h
        · exact .inl (by simp [h])
        · rcases ih h with h | h
          · exact .inl (List.mem_cons_of_mem _ h)
          · exact .inr h

/-- Every write inside the frame keeps the canonical form. -/
theorem Memory.write_wf {m : Memory} (hm : m.wf) {a : Nat} (ha : a < frameSize) (v : Byte) : (m.write a v).wf := by
  obtain ⟨hp, hz, hr⟩ := hm
  refine ⟨?_, fun c hc => ?_, fun c hc => ?_⟩
  · clear hz hr
    induction m with
    | nil => unfold write; split <;> simp
    | cons d m ih =>
      obtain ⟨k, x⟩ := d
      have hp' := List.pairwise_cons.1 hp
      unfold write
      split
      · split
        · exact hp
        · refine List.pairwise_cons.2 ⟨fun c hc => ?_, hp⟩
          rcases List.mem_cons.1 hc with rfl | hc
          · assumption
          · have := hp'.1 c hc; simp at this ⊢; omega
      · split
        · split
          · exact hp'.2
          · rename_i h2 _
            subst h2
            exact List.pairwise_cons.2 ⟨hp'.1, hp'.2⟩
        · refine List.pairwise_cons.2 ⟨fun c hc => ?_, ih hp'.2⟩
          rcases mem_write hc with hc | ⟨rfl, -⟩
          · exact hp'.1 c hc
          · simp; omega
  · rcases mem_write hc with hc | ⟨rfl, hv⟩
    · exact hz c hc
    · exact hv
  · rcases mem_write hc with hc | ⟨rfl, -⟩
    · exact hr c hc
    · exact ha

/-- Canonical frames that read alike are equal. -/
theorem Memory.ext_read {m n : Memory} (hm : m.wf) (hn : n.wf) (h : ∀ a, m.read a = n.read a) : m = n := by
  obtain ⟨hp, hz, -⟩ := hm
  obtain ⟨hq, hy, -⟩ := hn
  induction m generalizing n with
  | nil =>
    cases n with
    | nil => rfl
    | cons c n =>
      have h1 := h c.1
      obtain ⟨k, x⟩ := c
      rw [read_cons] at h1
      simp at h1
      exact absurd h1.symm (hy (k, x) (by simp))
  | cons c m ih =>
    obtain ⟨k, x⟩ := c
    have hx : x ≠ 0 := hz (k, x) (by simp)
    have hp' := List.pairwise_cons.1 hp
    cases n with
    | nil => exact absurd (by simpa [read_cons] using h k) hx
    | cons d n =>
      obtain ⟨l, y⟩ := d
      have hy0 : y ≠ 0 := hy (l, y) (by simp)
      have hq' := List.pairwise_cons.1 hq
      have lo : ∀ {p : Memory} {b : Nat}, (∀ c ∈ p, b < c.1) → ∀ a ≤ b, p.read a = 0 := fun hp a ha =>
        read_eq_zero fun c hc => by have := hp c hc; omega
      have hkl : k = l := by
        rcases Nat.lt_trichotomy k l with hlt | heq | hgt
        · have := h k
          rw [read_cons, read_cons, if_pos rfl, if_neg (by omega), lo hq'.1 k (by simp; omega)] at this
          exact absurd this hx
        · exact heq
        · have := h l
          rw [read_cons, read_cons, if_pos rfl, if_neg (by omega), lo hp'.1 l (by simp; omega)] at this
          exact absurd this.symm hy0
      subst hkl
      have hxy : x = y := by simpa [read_cons] using h k
      subst hxy
      congr 1
      refine ih (fun a => ?_) hp'.2 (fun c hc => hz c (List.mem_cons_of_mem _ hc)) hq'.2
        (fun c hc => hy c (List.mem_cons_of_mem _ hc))
      by_cases hak : k = a
      · subst hak
        rw [lo hp'.1 k (by simp), lo hq'.1 k (by simp)]
      · have := h a
        rwa [read_cons, read_cons, if_neg hak, if_neg hak] at this

/-! ## Byte ranges -/

@[simp] theorem Memory.length_readBytes (m : Memory) (a n : Nat) : (m.readBytes a n).length = n := by
  simp [readBytes]

theorem Memory.getD_readBytes (m : Memory) (a n i : Nat) :
    (m.readBytes a n).getD i 0 = if i < n then m.read (a + i) else 0 := by
  unfold readBytes
  rw [List.getD_eq_getElem?_getD, List.getElem?_map]
  split
  · rename_i h; simp [h]
  · rename_i h; simp [h]

@[simp] theorem Memory.writeBytes_nil (m : Memory) (a : Nat) : m.writeBytes a [] = m := rfl

theorem Memory.writeBytes_cons (m : Memory) (a : Nat) (b : Byte) (bs : List Byte) :
    m.writeBytes a (b :: bs) = (m.write a b).writeBytes (a + 1) bs := rfl

theorem Memory.writeBytes_wf {bs : List Byte} : ∀ {m : Memory} {a : Nat}, m.wf → a + bs.length ≤ frameSize →
    (m.writeBytes a bs).wf := by
  induction bs with
  | nil => intro m a hm _; exact hm
  | cons b bs ih =>
    intro m a hm h
    rw [List.length_cons] at h
    exact ih (write_wf hm (by omega) b) (by omega)

/-- A read of a range just written, or elsewhere. -/
theorem Memory.read_writeBytes {bs : List Byte} : ∀ {m : Memory} {a : Nat}, m.wf → a + bs.length ≤ frameSize →
    ∀ c, (m.writeBytes a bs).read c = if a ≤ c ∧ c < a + bs.length then bs.getD (c - a) 0 else m.read c := by
  induction bs with
  | nil => intro m a hm _ c; rw [writeBytes_nil, if_neg (by simp)]
  | cons b bs ih =>
    intro m a hm h c
    rw [List.length_cons] at h ⊢
    rw [writeBytes_cons, ih (write_wf hm (by omega) b) (by omega), read_write hm]
    by_cases h1 : c = a
    · subst h1
      rw [if_neg (by omega), if_pos rfl, if_pos (by omega)]
      simp
    · rw [if_neg h1]
      by_cases h2 : a + 1 ≤ c ∧ c < a + 1 + bs.length
      · rw [if_pos h2, if_pos (by omega)]
        obtain ⟨j, hj⟩ : ∃ j, c - a = j + 1 := ⟨c - a - 1, by omega⟩
        rw [hj, show c - (a + 1) = j by omega]
        simp
      · rw [if_neg h2, if_neg (by omega)]

/-- A range outside the one written reads as before, whatever the form of the frame. -/
theorem Memory.read_writeBytes_outside {bs : List Byte} : ∀ {m : Memory} {a c : Nat},
    ¬(a ≤ c ∧ c < a + bs.length) → (m.writeBytes a bs).read c = m.read c := by
  induction bs with
  | nil => intros; rfl
  | cons b bs ih =>
    intro m a c h
    rw [List.length_cons] at h
    rw [writeBytes_cons, ih (by omega), read_write_ne _ _ (by omega)]

/-- Reading a range back gives what was written there. -/
theorem Memory.readBytes_writeBytes_same {m : Memory} (hm : m.wf) {a : Nat} {bs : List Byte}
    (h : a + bs.length ≤ frameSize) : (m.writeBytes a bs).readBytes a bs.length = bs := by
  refine List.ext_getElem (by simp) fun i h1 h2 => ?_
  have := getD_readBytes (m.writeBytes a bs) a bs.length i
  rw [if_pos h2, read_writeBytes hm h, if_pos (by omega)] at this
  simp only [Nat.add_sub_cancel_left] at this
  simpa [List.getD_eq_getElem?_getD, h1, h2] using this

/-- Two ranges that read alike are equal byte strings. -/
theorem Memory.readBytes_congr {m n : Memory} {a b len : Nat} (h : ∀ i < len, m.read (a + i) = n.read (b + i)) :
    m.readBytes a len = n.readBytes b len := by
  unfold readBytes
  exact List.map_congr_left fun i hi => h i (List.mem_range.1 hi)

/-! ## The classifier's view of a window -/

theorem Memory.fst_ge_of_mem_ofBytes {w : List Byte} : ∀ {base : Nat} {c : Host.Cell}, c ∈ ofBytes base w →
    base ≤ c.1 ∧ c.1 < base + w.length ∧ c.2 ≠ 0 := by
  induction w with
  | nil => intro base c h; simp [ofBytes] at h
  | cons b w ih =>
    intro base c h
    unfold ofBytes at h
    rw [List.length_cons]
    split at h
    · have := ih h; exact ⟨by omega, by omega, this.2.2⟩
    · rcases List.mem_cons.1 h with rfl | h
      · exact ⟨Nat.le_refl _, by simp, ‹_›⟩
      · have := ih h; exact ⟨by omega, by omega, this.2.2⟩

theorem Memory.read_ofBytes (w : List Byte) : ∀ (base a : Nat),
    (ofBytes base w).read a = if base ≤ a then w.getD (a - base) 0 else 0 := by
  induction w with
  | nil => intro base a; simp [ofBytes]
  | cons b w ih =>
    intro base a
    unfold ofBytes
    split
    · rename_i hb
      rw [ih]
      by_cases h1 : base ≤ a
      · rw [if_pos h1]
        by_cases h2 : base + 1 ≤ a
        · rw [if_pos h2, show a - base = (a - (base + 1)) + 1 by omega]; simp
        · rw [if_neg h2, show a - base = 0 by omega]; simp [hb]
      · rw [if_neg h1, if_neg (by omega)]
    · rw [read_cons]
      by_cases h1 : base = a
      · subst h1; simp
      · rw [if_neg h1, ih]
        by_cases h2 : base ≤ a
        · rw [if_pos h2, if_pos (by omega), show a - base = (a - (base + 1)) + 1 by omega]; simp
        · rw [if_neg h2, if_neg (by omega)]

/-- The view of a window that fits in the frame is in canonical form. -/
theorem Memory.ofBytes_wf {w : List Byte} {base : Nat} (h : base + w.length ≤ frameSize) : (ofBytes base w).wf := by
  refine ⟨?_, fun c hc => (fst_ge_of_mem_ofBytes hc).2.2, fun c hc => ?_⟩
  · clear h
    induction w generalizing base with
    | nil => simp [ofBytes]
    | cons b w ih =>
      unfold ofBytes
      split
      · exact ih
      · exact List.pairwise_cons.2 ⟨fun c hc => by have := (fst_ge_of_mem_ofBytes hc).1; simp; omega, ih⟩
  · have := fst_ge_of_mem_ofBytes hc; omega

/-- The frame at reset is in canonical form. -/
theorem State.reset_frame_wf : State.reset.frame.wf := by decide

end Sys2Proof.Machine
end

