-- ==== Sys2Proof/Laws/Ecc.lean ====
section
/-!
SUPPORT. What the ECC Engine computes: the walk of a major in closed form (rules R97, R98), and everything a pass can
do in `verify` and in `write` mode (rules R100, R101), for `process` and for `generate_parity`.
-/

namespace Sys2Proof.Machine

/-! ## The geometry, in the numbers of rule R94 -/

theorem geometry_majors (l : Layer) : (geometry l).majorCount = Spec.majors l := by cases l <;> rfl

theorem geometry_steps (l : Layer) : (geometry l).minorCount = Spec.steps l := by cases l <;> rfl

theorem parityBase_field (l : Layer) : parityBase l = Spec.field l := by cases l <;> rfl

theorem geometry_index (l : Layer) (maj step : Nat) :
    ((geometry l).start maj + step * (geometry l).minorIncrement) % (geometry l).size = Spec.index l maj step := by
  cases l <;> rfl

theorem geometry_start_lt (l : Layer) {maj : Nat} (h : maj < Spec.majors l) :
    (geometry l).start maj < (geometry l).size := by
  cases l <;> simp only [Geometry.start, geometry, Geometry.size, Spec.majors] at * <;> omega

/-- The data region ends where the layer's parity field begins (rule R108 (e)). -/
theorem index_below_field (l : Layer) (maj step : Nat) : 0x00C + Spec.index l maj step < Spec.field l := by
  cases l <;> simp only [Spec.index, Spec.field] <;> omega

theorem geometry_size_le (l : Layer) : (geometry l).size ≤ 2236 := by cases l <;> decide

/-! ## One major -/

/-- The walk in closed form (rules R97, R98). -/
theorem eccWalk_eq (t : Tables) (g : Geometry) (m : Memory) : ∀ (n : Nat) (r : EccRegs), r.idx < g.size →
    eccWalk t g m n r =
      { r with
        idx := (r.idx + n * g.minorIncrement) % g.size
        accA := ((List.range n).map fun k => m.read (dataBase + (r.idx + k * g.minorIncrement) % g.size)).foldl
          (fun a b => t.double (a ^^^ b)) r.accA
        accB := ((List.range n).map fun k => m.read (dataBase + (r.idx + k * g.minorIncrement) % g.size)).foldl
          (fun a b => a ^^^ b) r.accB
        min := r.min + n } := by
  intro n
  induction n with
  | zero => intro r h; simp [eccWalk, Nat.mod_eq_of_lt h]
  | succ n ih =>
    intro r h
    have hs : 0 < g.size := by omega
    have hi : ∀ k, ((r.idx + g.minorIncrement) % g.size + k * g.minorIncrement) % g.size
        = (r.idx + (k + 1) * g.minorIncrement) % g.size := fun k => by
      rw [Nat.mod_add_mod, Nat.add_one_mul]; congr 1; omega
    rw [eccWalk, ih _ (Nat.mod_lt _ hs)]
    simp only [hi, List.range_succ_eq_map, List.map_cons, List.map_map, Function.comp_def, List.foldl_cons,
      Nat.zero_mul, Nat.add_zero, Nat.mod_eq_of_lt h, Nat.succ_eq_add_one, Nat.add_assoc, Nat.add_comm 1 n]

/-- Everything the walk of one major leaves in the working registers. -/
theorem eccMajor_eq (t : Tables) (l : Layer) (m : Memory) {maj : Nat} (h : maj < Spec.majors l) (r : EccRegs) :
    eccMajor t (geometry l) m maj r =
      { r with
        maj := maj
        min := Spec.steps l
        idx := Spec.index l maj (Spec.steps l)
        accA := Spec.accA t m l maj
        accB := Spec.accB m l maj } := by
  unfold eccMajor
  rw [eccWalk_eq _ _ _ _ _ (geometry_start_lt l h)]
  simp only [majorStart, geometry_index, geometry_steps, Nat.zero_add]
  rfl

theorem parity0_eccMajor (t : Tables) (l : Layer) (m : Memory) {maj : Nat} (h : maj < Spec.majors l) (r : EccRegs) :
    parity0 t (eccMajor t (geometry l) m maj r) = Spec.p0 t m l maj := by rw [eccMajor_eq t l m h]; rfl

theorem parity1_eccMajor (t : Tables) (l : Layer) (m : Memory) {maj : Nat} (h : maj < Spec.majors l) (r : EccRegs) :
    parity1 t (eccMajor t (geometry l) m maj r) = Spec.p1 t m l maj := by rw [eccMajor_eq t l m h]; rfl

/-! ## The parity of a data region is a function of its bytes -/

/-- Frames that agree on the data region of a layer have the same codewords. -/
theorem Spec.codeword_congr {m n : Memory} (l : Layer)
    (h : ∀ a, 0x00C ≤ a → a < Spec.field l → m.read a = n.read a) (maj : Nat) :
    Spec.codeword m l maj = Spec.codeword n l maj :=
  List.map_congr_left fun step _ => h _ (by omega) (index_below_field l maj step)

theorem Spec.p0_congr {t : Tables} {m n : Memory} {l : Layer}
    (h : ∀ a, 0x00C ≤ a → a < Spec.field l → m.read a = n.read a) (maj : Nat) :
    Spec.p0 t m l maj = Spec.p0 t n l maj := by
  unfold Spec.p0 Spec.accA Spec.accB; rw [codeword_congr l h]

theorem Spec.p1_congr {t : Tables} {m n : Memory} {l : Layer}
    (h : ∀ a, 0x00C ≤ a → a < Spec.field l → m.read a = n.read a) (maj : Nat) :
    Spec.p1 t m l maj = Spec.p1 t n l maj := by
  unfold Spec.p1 Spec.accB; rw [p0_congr h, codeword_congr l h]

/-- The parity relation looks only at the data region of the first frame and the parity field of the second. -/
theorem Spec.ParityOf.congr {t : Tables} {m n m' n' : Memory} {l : Layer}
    (hm : ∀ a, 0x00C ≤ a → a < Spec.field l → m.read a = m'.read a)
    (hn : ∀ a, Spec.InField l a → n.read a = n'.read a)
    (h : Spec.ParityOf t m n l) : Spec.ParityOf t m' n' l := by
  intro maj hmaj
  obtain ⟨h0, h1⟩ := h maj hmaj
  refine ⟨?_, ?_⟩
  · rw [← hn _ ⟨by omega, by omega⟩, h0, p0_congr hm]
  · rw [← hn _ ⟨by omega, by omega⟩, h1, p1_congr hm]

/-! ## One layer -/

/-- Every pass keeps the ranges of rule R15 and leaves `ADDR_SAVE`; its flag is the result. -/
theorem processFrom_regs (t : Tables) (l : Layer) (mode : EccMode) : ∀ (left maj : Nat) (r : EccRegs) (m : Memory),
    maj + left = Spec.majors l → r.min ≤ 43 → r.idx < 2236 →
    (processFrom t l mode left maj r m).regs.maj ≤ Spec.majors l ∧
    (processFrom t l mode left maj r m).regs.min ≤ 43 ∧ (processFrom t l mode left maj r m).regs.idx < 2236 ∧
    (processFrom t l mode left maj r m).regs.addrSave = r.addrSave ∧
    (processFrom t l mode left maj r m).regs.ok = (processFrom t l mode left maj r m).ok := by
  intro left
  induction left with
  | zero => intro maj r m h1 h2 h3; exact ⟨by simp [processFrom]; omega, h2, h3, rfl, rfl⟩
  | succ left ih =>
    intro maj r m h1 _ _
    have hlt : maj < Spec.majors l := by omega
    have hmin : Spec.steps l ≤ 43 := by cases l <;> decide
    have hidx : Spec.index l maj (Spec.steps l) < 2236 := by cases l <;> simp only [Spec.index] <;> omega
    unfold processFrom
    cases mode with
    | verify =>
      simp only
      split
      · have := ih (maj + 1) (eccMajor t (geometry l) m maj r) m (by omega)
          (by rw [eccMajor_eq t l m hlt]; exact hmin) (by rw [eccMajor_eq t l m hlt]; exact hidx)
        rwa [show (eccMajor t (geometry l) m maj r).addrSave = r.addrSave by rw [eccMajor_eq t l m hlt]] at this
      · rw [eccMajor_eq t l m hlt]; exact ⟨by simp; omega, hmin, hidx, rfl, rfl⟩
    | write =>
      simp only
      have := ih (maj + 1) (eccMajor t (geometry l) m maj r)
        ((m.write (parityBase l + maj) (parity0 t (eccMajor t (geometry l) m maj r))).write
          (parityBase l + maj + (geometry l).majorCount) (parity1 t (eccMajor t (geometry l) m maj r))) (by omega)
        (by rw [eccMajor_eq t l m hlt]; exact hmin) (by rw [eccMajor_eq t l m hlt]; exact hidx)
      rwa [show (eccMajor t (geometry l) m maj r).addrSave = r.addrSave by rw [eccMajor_eq t l m hlt]] at this

/-- `verify` writes nothing (rule R100). -/
theorem processFrom_verify_frame (t : Tables) (l : Layer) : ∀ (left maj : Nat) (r : EccRegs) (m : Memory),
    (processFrom t l .verify left maj r m).frame = m := by
  intro left
  induction left with
  | zero => intros; rfl
  | succ left ih => intro maj r m; unfold processFrom; simp only; split <;> simp [ih]

/-- `verify` answers whether every remaining parity byte matches (rule R100). -/
theorem processFrom_verify_ok (t : Tables) (l : Layer) : ∀ (left maj : Nat) (r : EccRegs) (m : Memory),
    maj + left = Spec.majors l →
    ((processFrom t l .verify left maj r m).ok = true ↔ ∀ k, maj ≤ k → k < Spec.majors l →
      m.read (Spec.field l + k) = Spec.p0 t m l k ∧ m.read (Spec.field l + k + Spec.majors l) = Spec.p1 t m l k) := by
  intro left
  induction left with
  | zero =>
    intro maj r m h
    exact ⟨fun _ k hk hk' => by omega, fun _ => rfl⟩
  | succ left ih =>
    intro maj r m h
    have hlt : maj < Spec.majors l := by omega
    unfold processFrom
    simp only [parity0_eccMajor t l m hlt, parity1_eccMajor t l m hlt, parityBase_field, geometry_majors]
    split
    · rename_i hm
      rw [ih _ _ _ (by omega)]
      refine ⟨fun hk k h1 h2 => ?_, fun hk k h1 h2 => hk k (by omega) h2⟩
      rcases Nat.eq_or_lt_of_le h1 with rfl | h1
      · exact hm
      · exact hk k h1 h2
    · rename_i hm
      exact ⟨fun hf => by simp at hf, fun hk => absurd (hk maj (Nat.le_refl _) hlt) hm⟩

/-- Everything `write` does from a major on: it answers 1, writes the parity of the frame it started from into the
two bytes of every remaining major, and nothing else (rule R101). -/
theorem processFrom_write (t : Tables) (l : Layer) : ∀ (left maj : Nat) (r : EccRegs) (m : Memory),
    maj + left = Spec.majors l → m.wf →
    (processFrom t l .write left maj r m).ok = true ∧ (processFrom t l .write left maj r m).frame.wf ∧
    (∀ k, maj ≤ k → k < Spec.majors l →
      (processFrom t l .write left maj r m).frame.read (Spec.field l + k) = Spec.p0 t m l k ∧
      (processFrom t l .write left maj r m).frame.read (Spec.field l + k + Spec.majors l) = Spec.p1 t m l k) ∧
    ∀ a, (∀ k, maj ≤ k → k < Spec.majors l → a ≠ Spec.field l + k ∧ a ≠ Spec.field l + k + Spec.majors l) →
      (processFrom t l .write left maj r m).frame.read a = m.read a := by
  intro left
  induction left with
  | zero =>
    intro maj r m h hm
    exact ⟨rfl, hm, fun k h1 h2 => by omega, fun a _ => rfl⟩
  | succ left ih =>
    intro maj r m h hm
    have hlt : maj < Spec.majors l := by omega
    have hsz : Spec.field l + 2 * Spec.majors l ≤ frameSize := by cases l <;> decide
    unfold processFrom
    simp only [parity0_eccMajor t l m hlt, parity1_eccMajor t l m hlt, parityBase_field, geometry_majors]
    have hw1 := Memory.write_wf hm (a := Spec.field l + maj) (by omega) (Spec.p0 t m l maj)
    have hw2 := Memory.write_wf hw1 (a := Spec.field l + maj + Spec.majors l) (by omega) (Spec.p1 t m l maj)
    have hread : ∀ a, ((m.write (Spec.field l + maj) (Spec.p0 t m l maj)).write
        (Spec.field l + maj + Spec.majors l) (Spec.p1 t m l maj)).read a =
        if a = Spec.field l + maj + Spec.majors l then Spec.p1 t m l maj
        else if a = Spec.field l + maj then Spec.p0 t m l maj else m.read a := fun a => by
      rw [Memory.read_write hw1, Memory.read_write hm]
    generalize (m.write (Spec.field l + maj) (Spec.p0 t m l maj)).write
      (Spec.field l + maj + Spec.majors l) (Spec.p1 t m l maj) = m' at *
    have hdata : ∀ a, 0x00C ≤ a → a < Spec.field l → m'.read a = m.read a := fun a _ ha => by
      rw [hread, if_neg (by omega), if_neg (by omega)]
    obtain ⟨h1, h2, h3, h4⟩ := ih (maj + 1) (eccMajor t (geometry l) m maj r) m' (by omega) hw2
    refine ⟨h1, h2, fun k hk hk' => ?_, fun a ha => ?_⟩
    · rcases Nat.eq_or_lt_of_le hk with rfl | hk
      · rw [h4 _ (fun j hj hj' => ⟨by omega, by omega⟩), h4 _ (fun j hj hj' => ⟨by omega, by omega⟩), hread, hread,
          if_neg (by omega), if_pos rfl, if_pos rfl]
        exact ⟨rfl, rfl⟩
      · have := h3 k hk hk'
        rwa [Spec.p0_congr hdata, Spec.p1_congr hdata] at this
    · rw [h4 a (fun j hj hj' => ha j (by omega) hj'), hread, if_neg (ha maj (Nat.le_refl _) hlt).2,
        if_neg (ha maj (Nat.le_refl _) hlt).1]

/-! ## `process` over a frame -/

theorem processFrame_verify_frame (t : Tables) (l : Layer) (r : EccRegs) (m : Memory) :
    (processFrame t l .verify r m).frame = m := processFrom_verify_frame t l _ _ r m

theorem processFrame_verify_ok (t : Tables) (l : Layer) (r : EccRegs) (m : Memory) :
    (processFrame t l .verify r m).ok = true ↔ Spec.ParityHolds t m l := by
  rw [processFrame, processFrom_verify_ok t l _ _ r m (by rw [geometry_majors]; omega)]
  exact ⟨fun h k hk => h k (Nat.zero_le _) hk, fun h k _ hk => h k hk⟩

theorem processFrame_regs (t : Tables) (l : Layer) (mode : EccMode) {r : EccRegs} (m : Memory) (h1 : r.min ≤ 43)
    (h2 : r.idx < 2236) : (processFrame t l mode r m).regs.maj ≤ 86 ∧ (processFrame t l mode r m).regs.min ≤ 43 ∧
    (processFrame t l mode r m).regs.idx < 2236 ∧ (processFrame t l mode r m).regs.addrSave = r.addrSave ∧
    (processFrame t l mode r m).regs.ok = (processFrame t l mode r m).ok := by
  obtain ⟨h3, h4⟩ := processFrom_regs t l mode (geometry l).majorCount 0 r m (by rw [geometry_majors]; omega) h1 h2
  refine ⟨Nat.le_trans h3 (by cases l <;> decide), h4⟩

/-- Everything `process` does in `write` mode (rule R101). -/
theorem processFrame_write (t : Tables) (l : Layer) (r : EccRegs) {m : Memory} (hm : m.wf) :
    (processFrame t l .write r m).ok = true ∧ (processFrame t l .write r m).frame.wf ∧
    Spec.ParityOf t m (processFrame t l .write r m).frame l ∧
    ∀ a, ¬Spec.InField l a → (processFrame t l .write r m).frame.read a = m.read a := by
  obtain ⟨h1, h2, h3, h4⟩ :=
    processFrom_write t l (geometry l).majorCount 0 r m (by rw [geometry_majors]; omega) hm
  refine ⟨h1, h2, fun k hk => h3 k (Nat.zero_le _) hk, fun a ha => h4 a fun k _ hk => ⟨?_, ?_⟩⟩
  · intro h; exact ha ⟨by omega, by omega⟩
  · intro h; exact ha ⟨by omega, by omega⟩

/-! ## `generate_parity` over a frame -/

theorem seen_wf (z : Bool) {m : Memory} (hm : m.wf) : (Spec.seen z m).wf := by
  cases z
  · exact hm
  · exact Memory.writeBytes_wf hm (by decide)

theorem read_seen (z : Bool) {m : Memory} (hm : m.wf) (a : Nat) :
    (Spec.seen z m).read a = if z = true ∧ 0x00C ≤ a ∧ a < 0x010 then 0 else m.read a := by
  cases z
  · simp [Spec.seen]
  · unfold Spec.seen
    rw [if_pos rfl, Memory.read_writeBytes hm (by decide)]
    by_cases h : 0x00C ≤ a ∧ a < 0x00C + [(0 : Byte), 0, 0, 0].length
    · rw [if_pos h, if_pos ⟨rfl, h⟩]
      obtain rfl | rfl | rfl | rfl : a = 12 ∨ a = 13 ∨ a = 14 ∨ a = 15 := by
        have h' : 12 ≤ a ∧ a < 12 + 4 := h
        omega
      all_goals rfl
    · rw [if_neg h, if_neg fun h' => h h'.2]

/-- `verify` leaves the frame as it was and answers whether both layers hold (rules R100, R104, R107). -/
theorem bothPasses_verify (t : Tables) (r : EccRegs) (m : Memory) :
    (bothPasses t .verify r m).frame = m ∧
    ((bothPasses t .verify r m).ok = true ↔ ∀ l, Spec.ParityHolds t m l) := by
  unfold bothPasses
  simp only [processFrame_verify_frame]
  have hp := processFrame_verify_ok t .p r m
  split
  · rename_i h
    refine ⟨processFrame_verify_frame t .q _ m, ?_⟩
    rw [processFrame_verify_ok]
    exact ⟨fun hq l => by cases l; exact hp.1 h; exact hq, fun hl => hl .q⟩
  · rename_i h
    refine ⟨processFrame_verify_frame t .p r m, fun h' => absurd h' h, fun hl => absurd (hp.2 (hl .p)) h⟩

/-- Everything both passes do in `write` mode: P from the data region, then Q from the data region and the P bytes
just written (rules R104, R106). -/
theorem bothPasses_write (t : Tables) (r : EccRegs) {m : Memory} (hm : m.wf) :
    (bothPasses t .write r m).ok = true ∧ (bothPasses t .write r m).frame.wf ∧
    (∀ l, Spec.ParityHolds t (bothPasses t .write r m).frame l) ∧
    ∀ a, ¬(0x81C ≤ a ∧ a < 0x930) → (bothPasses t .write r m).frame.read a = m.read a := by
  unfold bothPasses
  obtain ⟨p1, p2, p3, p4⟩ := processFrame_write t .p r hm
  simp only [p1, if_true]
  obtain ⟨q1, q2, q3, q4⟩ := processFrame_write t .q (processFrame t .p .write r m).regs p2
  refine ⟨q1, q2, fun l => ?_, fun a ha => ?_⟩
  · cases l with
    | p =>
      refine Spec.ParityOf.congr (fun a _ ha => ?_) (fun a ha => ?_) p3
      · rw [q4 a (by simp only [Spec.InField, Spec.field, Spec.majors] at *; omega),
          p4 a (by simp only [Spec.InField, Spec.field, Spec.majors] at *; omega)]
      · exact (q4 a (by simp only [Spec.InField, Spec.field, Spec.majors] at *; omega)).symm
    | q =>
      refine Spec.ParityOf.congr (fun a _ ha => ?_) (fun a _ => rfl) q3
      exact (q4 a (by simp only [Spec.InField, Spec.field, Spec.majors] at *; omega)).symm
  · rw [q4 a (by simp only [Spec.InField, Spec.field, Spec.majors] at *; omega),
      p4 a (by simp only [Spec.InField, Spec.field, Spec.majors] at *; omega)]

theorem bothPasses_regs (t : Tables) (mode : EccMode) {r : EccRegs} (m : Memory) (h1 : r.min ≤ 43)
    (h2 : r.idx < 2236) : (bothPasses t mode r m).regs.maj ≤ 86 ∧ (bothPasses t mode r m).regs.min ≤ 43 ∧
    (bothPasses t mode r m).regs.idx < 2236 ∧ (bothPasses t mode r m).regs.addrSave = r.addrSave ∧
    (bothPasses t mode r m).regs.ok = (bothPasses t mode r m).ok := by
  unfold bothPasses
  obtain ⟨a1, a2, a3, a4, a5⟩ := processFrame_regs t .p mode m h1 h2
  simp only
  split
  · obtain ⟨b1, b2, b3, b4, b5⟩ := processFrame_regs t .q mode (processFrame t .p mode r m).frame a2 a3
    exact ⟨b1, b2, b3, b4.trans a4, b5⟩
  · exact ⟨a1, a2, a3, a4, a5⟩

/-- Everything `generate_parity` does in `verify` mode (rules R104, R105, R107). -/
theorem generateParityFrame_verify (t : Tables) (z : Bool) (r : EccRegs) {m : Memory} (hm : m.wf) :
    (generateParityFrame t z .verify r m).frame = m ∧
    ((generateParityFrame t z .verify r m).ok = true ↔ ∀ l, Spec.ParityHolds t (Spec.seen z m) l) := by
  cases z with
  | false => exact bothPasses_verify t r m
  | true =>
    unfold generateParityFrame
    obtain ⟨h1, h2⟩ := bothPasses_verify t { r with addrSave := m.readBytes addressBase 4 }
      (m.writeBytes addressBase [0, 0, 0, 0])
    refine ⟨?_, h2⟩
    simp only [if_true, h1]
    have hz := Memory.writeBytes_wf (a := addressBase) (bs := [0, 0, 0, 0]) hm (by decide)
    have hl : addressBase + (m.readBytes addressBase 4).length ≤ frameSize := by simp [addressBase, frameSize]
    refine Memory.ext_read (Memory.writeBytes_wf hz hl) hm fun a => ?_
    rw [Memory.read_writeBytes hz hl, Memory.read_writeBytes hm (by decide)]
    simp only [Memory.length_readBytes, List.length_cons, List.length_nil, Memory.getD_readBytes]
    split
    · rw [if_pos (by omega)]; congr 1; omega
    · rfl

/-- Everything `generate_parity` does in `write` mode: it answers 1, writes the two parity fields, and leaves every
other byte, the address field included (rules R104 to R107). -/
theorem generateParityFrame_write (t : Tables) (z : Bool) (r : EccRegs) {m : Memory} (hm : m.wf) :
    (generateParityFrame t z .write r m).ok = true ∧ (generateParityFrame t z .write r m).frame.wf ∧
    (∀ l, Spec.ParityHolds t (Spec.seen z (generateParityFrame t z .write r m).frame) l) ∧
    ∀ a, ¬(0x81C ≤ a ∧ a < 0x930) → (generateParityFrame t z .write r m).frame.read a = m.read a := by
  cases z with
  | false =>
    have := bothPasses_write t r hm
    simpa [generateParityFrame, Spec.seen] using this
  | true =>
    unfold generateParityFrame
    simp only [if_true]
    have hz := Memory.writeBytes_wf (a := addressBase) (bs := [0, 0, 0, 0]) hm (by decide)
    have hzr : ∀ a, (m.writeBytes addressBase [0, 0, 0, 0]).read a =
        if True ∧ 0x00C ≤ a ∧ a < 0x010 then 0 else m.read a := fun a => by
      have := read_seen true hm a
      simpa [Spec.seen, addressBase] using this
    obtain ⟨h1, h2, h3, h4⟩ := bothPasses_write t { r with addrSave := m.readBytes addressBase 4 } hz
    generalize bothPasses t .write { r with addrSave := m.readBytes addressBase 4 }
      (m.writeBytes addressBase [0, 0, 0, 0]) = out at *
    have hl : addressBase + (m.readBytes addressBase 4).length ≤ frameSize := by simp [addressBase, frameSize]
    have hwf := Memory.writeBytes_wf h2 hl
    have hr := fun a => Memory.read_writeBytes h2 hl a
    simp only [Memory.length_readBytes, Memory.getD_readBytes, addressBase] at hr
    refine ⟨h1, hwf, fun l => ?_, fun a ha => ?_⟩
    · refine Spec.ParityOf.congr (fun a h5 h6 => ?_) (fun a ha => ?_) (h3 l)
      · rw [read_seen true hwf]
        split
        · rename_i h
          rw [h4 a (by omega), hzr a, if_pos ⟨trivial, h.2⟩]
        · rename_i h
          rw [show addressBase = 12 from rfl, hr, if_neg fun h' => h ⟨rfl, by omega⟩]
      · rw [read_seen true hwf, if_neg, show addressBase = 12 from rfl, hr, if_neg]
        · cases l <;> simp only [Spec.InField, Spec.field, Spec.majors] at ha <;> omega
        · cases l <;> simp only [Spec.InField, Spec.field, Spec.majors] at ha <;> omega
    · rw [show addressBase = 12 from rfl, hr]
      split
      · rw [if_pos (by omega)]; congr 1; omega
      · rw [h4 a ha, hzr, if_neg (by omega)]

theorem generateParityFrame_regs (t : Tables) (z : Bool) (mode : EccMode) {r : EccRegs} (m : Memory)
    (h1 : r.min ≤ 43) (h2 : r.idx < 2236) (h3 : r.addrSave.length = 4) :
    (generateParityFrame t z mode r m).regs.maj ≤ 86 ∧ (generateParityFrame t z mode r m).regs.min ≤ 43 ∧
    (generateParityFrame t z mode r m).regs.idx < 2236 ∧
    (generateParityFrame t z mode r m).regs.addrSave.length = 4 ∧
    (generateParityFrame t z mode r m).regs.ok = (generateParityFrame t z mode r m).ok := by
  unfold generateParityFrame
  split
  · obtain ⟨a1, a2, a3, a4, a5⟩ := bothPasses_regs t mode (r := { r with addrSave := m.readBytes addressBase 4 })
      (m.writeBytes addressBase [0, 0, 0, 0]) h1 h2
    exact ⟨a1, a2, a3, by rw [a4]; simp, a5⟩
  · obtain ⟨a1, a2, a3, a4, a5⟩ := bothPasses_regs t mode m h1 h2
    exact ⟨a1, a2, a3, by rw [a4, h3], a5⟩

end Sys2Proof.Machine
end

