-- ==== Sys2Proof/Laws/Classifier.lean ====
section
/-!
SUPPORT. What a classification answers, in the terms of rules R112 to R118, whatever its working registers held; and
the ranges of the registers it leaves.
-/

namespace Sys2Proof.Machine

theorem mode1View_wf (w : List Byte) : (mode1View w).wf :=
  Memory.ofBytes_wf (by simp [frameSize])

theorem mode2View_wf (w : List Byte) : (mode2View w).wf :=
  Memory.ofBytes_wf (by simp [frameSize]; omega)

/-- The four bytes that `zero_address` zeroes lie before a shifted window and read 0 anyway (rule R117). -/
theorem seen_ofBytes {w : List Byte} (h : 0x010 + w.length ≤ frameSize) :
    Spec.seen true (Memory.ofBytes 0x010 w) = Memory.ofBytes 0x010 w := by
  have hw := Memory.ofBytes_wf h
  refine Memory.ext_read (seen_wf true hw) hw fun a => ?_
  rw [read_seen true hw]
  split
  · rw [Memory.read_ofBytes, if_neg (by omega)]
  · rfl

theorem eccCheckMode1_eq (t : Tables) (w : List Byte) (c : ClassifierRegs) (e : EccRegs) :
    ((eccCheckMode1 t w c e).1.c1 = true ↔ c.c1 = true ∧ Spec.ParityOfBytes t 0x000 (w.take 2352)) ∧
    (eccCheckMode1 t w c e).1.c2 = c.c2 ∧ (eccCheckMode1 t w c e).1.c3 = c.c3 := by
  unfold eccCheckMode1
  split
  · rename_i h
    refine ⟨?_, rfl, rfl⟩
    simp only [h, true_and]
    exact (generateParityFrame_verify t false e (mode1View_wf w)).2
  · rename_i h
    exact ⟨by simp [h], rfl, rfl⟩

theorem eccCheckMode2_eq (t : Tables) (w : List Byte) (c : ClassifierRegs) (e : EccRegs) :
    ((eccCheckMode2 t w c e).1.c2 = true ↔ c.c2 = true ∧ Spec.ParityOfBytes t 0x010 (w.take 2336)) ∧
    (eccCheckMode2 t w c e).1.c1 = c.c1 ∧ (eccCheckMode2 t w c e).1.c3 = c.c3 := by
  unfold eccCheckMode2
  split
  · rename_i h
    refine ⟨?_, rfl, rfl⟩
    simp only [h, true_and]
    have := (generateParityFrame_verify t true e (mode2View_wf w)).2
    rwa [mode2View, seen_ofBytes (by simp [frameSize]; omega)] at this
  · rename_i h
    exact ⟨by simp [h], rfl, rfl⟩

/-- The three accumulators of rule R116 are the folds of the bytes before each field. -/
theorem checksumChecks_eq (t : Tables) (w : List Byte) (c : ClassifierRegs) :
    ((checksumChecks t w c).c1 = true ↔ c.c1 = true ∧ Spec.ChecksumAt t w 0x810) ∧
    ((checksumChecks t w c).c2 = true ↔ c.c2 = true ∧ Spec.ChecksumAt t w 0x808) ∧
    ((checksumChecks t w c).c3 = true ↔ c.c3 = true ∧ Spec.ChecksumAt t w 0x91C) := by
  have h1 : t.fold (t.fold 0 (slice w 0x000 0x808)) (slice w 0x808 8) = t.fold 0 (slice w 0 0x810) := by
    rw [← Tables.fold_append]; exact congrArg _ (slice_append_slice w 0 0x808 8)
  have h2 : t.fold (t.fold 0 (slice w 0 0x810)) (slice w 0x810 0x10C) = t.fold 0 (slice w 0 0x91C) := by
    rw [← Tables.fold_append]; exact congrArg _ (slice_append_slice w 0 0x810 0x10C)
  unfold checksumChecks
  simp only [h1, h2, checksumMatches, Bool.and_eq_true, decide_eq_true_eq]
  refine ⟨?_, ?_, ?_⟩ <;> trivial

/-! ## The window of a command (rule R111, log 19) -/

/-- A window whose bytes are all supplied is the one the command carries. -/
theorem fullWindow_of_le {w : List Byte} {n : Nat} (h : min n 2352 ≤ w.length) (draw : Nat) : fullWindow draw w n = w := by
  unfold fullWindow
  rw [Nat.sub_eq_zero_of_le h]
  exact List.append_nil w

/-- Every supplied byte stands where the command says. -/
theorem prefix_fullWindow (draw : Nat) (w : List Byte) (n : Nat) : w <+: fullWindow draw w n :=
  List.prefix_append _ _

/-- Every byte a classification may read is there (rule R122). -/
theorem le_length_fullWindow (draw : Nat) (w : List Byte) (n : Nat) : min n 2352 ≤ (fullWindow draw w n).length := by
  unfold fullWindow
  rw [List.length_append, List.length_map, List.length_range]
  omega

/-- A command leaves out bytes exactly when the classification may read more than it supplies. -/
theorem windowShort_iff (w : List Byte) (n : Nat) :
    windowShort w n = true ↔ 2336 ≤ n ∧ w.length < min n 2352 := by
  unfold windowShort
  rw [Bool.and_eq_true, decide_eq_true_eq, decide_eq_true_eq]

/-! ## The checks -/

/-- A `Mode1` candidate that survives its fixed fields clears both Mode2 candidates (rule R120): byte 0 is `00`, byte
4 is `FF`. -/
theorem candidates_exclusive {w : List Byte} {n : Nat} {a : Bool} (h : (candidates w n a).c1 = true) :
    (candidates w n a).c2 = false ∧ (candidates w n a).c3 = false := by
  have hs : slice w 0 12 = syncPattern := by
    simp only [candidates, mode1FixedFields, Bool.and_eq_true, decide_eq_true_eq] at h
    exact h.2.1.1
  have h0 : slice w 0 4 = (slice w 0 12).take 4 := by simp [slice, List.take_take]
  have h4 : slice w 4 4 = ((slice w 0 12).drop 4).take 4 := by simp [slice, List.drop_take, List.take_take]
  have hne : addressDuplicated w = false := by
    unfold addressDuplicated
    rw [h0, h4, hs]
    decide
  exact ⟨hne, hne⟩

/-- What survives all the checks when the window is long enough (rules R113 to R117). -/
theorem candidates_eq (w : List Byte) (n : Nat) (a : Bool) :
    ((candidates w n a).c1 = true ↔ (a = true ∧ 2352 ≤ n) ∧
      slice w 0 12 = [0x00, 0xFF, 0xFF, 0xFF, 0xFF, 0xFF, 0xFF, 0xFF, 0xFF, 0xFF, 0xFF, 0x00] ∧
      slice w 0x00F 1 = [0x01] ∧ slice w 0x814 8 = [0, 0, 0, 0, 0, 0, 0, 0]) ∧
    ((candidates w n a).c2 = true ↔ slice w 0 4 = slice w 4 4) ∧
    ((candidates w n a).c3 = true ↔ slice w 0 4 = slice w 4 4) := by
  unfold candidates mode1Allowed mode1FixedFields addressDuplicated
  simp only [Bool.and_eq_true, decide_eq_true_eq, and_assoc]
  refine ⟨?_, ?_, ?_⟩ <;> trivial

/-- The answer of `classify` is decided by the checks of the rules alone (rules R112, R118, R119). -/
theorem classifyWindow_type (t : Tables) (w : List Byte) (n : Nat) (a : Bool) (c : ClassifierRegs) (e : EccRegs) :
    ((classifyWindow t w n a c e).type = .mode1 ↔ Spec.Mode1Window t w n a) ∧
    ((classifyWindow t w n a c e).type = .mode2form1 ↔
      Spec.Mode2Form1Window t w n ∧ ¬Spec.Mode1Window t w n a) ∧
    ((classifyWindow t w n a c e).type = .mode2form2 ↔
      Spec.Mode2Form2Window t w n ∧ ¬Spec.Mode1Window t w n a ∧ ¬Spec.Mode2Form1Window t w n) := by
  obtain ⟨s1, s2, s3⟩ := candidates_eq w n a
  unfold Spec.Mode1Window Spec.Mode2Form1Window Spec.Mode2Form2Window
  unfold classifyWindow
  split
  · rename_i h
    have h1 : ¬2336 ≤ n := by omega
    have h2 : ¬2352 ≤ n := by omega
    simp [h1, h2]
  · rename_i h
    have h1 : 2336 ≤ n := by omega
    simp only
    split
    · rename_i h2
      rw [Bool.and_eq_true, Bool.not_eq_true', Bool.not_eq_true'] at h2
      have n1 : ¬(candidates w n a).c1 = true := by simp [h2.1]
      have n2 : ¬(candidates w n a).c2 = true := by simp [h2.2]
      rw [s1] at n1
      rw [s2] at n2
      refine ⟨⟨fun hf => by simp at hf, fun ⟨x1, x2, x3, x4, x5, _⟩ => absurd ⟨⟨x1, x2⟩, x3, x4, x5⟩ n1⟩,
        ⟨fun hf => by simp at hf, fun ⟨⟨_, x2, _⟩, _⟩ => absurd x2 n2⟩,
        ⟨fun hf => by simp at hf, fun ⟨⟨_, x2, _⟩, _⟩ => absurd x2 n2⟩⟩
    · obtain ⟨k1, k2, k3⟩ := checksumChecks_eq t w (candidates w n a)
      obtain ⟨m1, m2, m3⟩ := eccCheckMode1_eq t w (checksumChecks t w (candidates w n a)) e
      obtain ⟨p1, p2, p3⟩ := eccCheckMode2_eq t w (eccCheckMode1 t w (checksumChecks t w (candidates w n a)) e).1
        (eccCheckMode1 t w (checksumChecks t w (candidates w n a)) e).2
      rw [m2, k2, s2] at p1
      rw [← p2, k1, s1] at m1
      rw [← m3, ← p3, s3] at k3
      generalize (eccCheckMode2 t w (eccCheckMode1 t w (checksumChecks t w (candidates w n a)) e).1
        (eccCheckMode1 t w (checksumChecks t w (candidates w n a)) e).2).1 = r at *
      have e1 : (a = true ∧ 2352 ≤ n ∧
          slice w 0 12 = [0x00, 0xFF, 0xFF, 0xFF, 0xFF, 0xFF, 0xFF, 0xFF, 0xFF, 0xFF, 0xFF, 0x00] ∧
          slice w 0x00F 1 = [0x01] ∧ slice w 0x814 8 = [0, 0, 0, 0, 0, 0, 0, 0] ∧ Spec.ChecksumAt t w 0x810 ∧
          Spec.ParityOfBytes t 0x000 (w.take 2352)) ↔ r.c1 = true := by rw [m1]; simp only [and_assoc]
      have e2 : (2336 ≤ n ∧ slice w 0 4 = slice w 4 4 ∧ Spec.ChecksumAt t w 0x808 ∧
          Spec.ParityOfBytes t 0x010 (w.take 2336)) ↔ r.c2 = true := by rw [p1]; simp only [h1, true_and, and_assoc]
      have e3 : (2336 ≤ n ∧ slice w 0 4 = slice w 4 4 ∧ Spec.ChecksumAt t w 0x91C) ↔ r.c3 = true := by
        rw [k3]; simp only [h1, true_and]
      rw [e1, e2, e3]
      unfold survivor
      cases r.c1 <;> cases r.c2 <;> cases r.c3 <;> simp

/-- Among the flags a classification leaves, that of `Mode1` excludes the other two (rule R120): a flag once cleared is
never set again (rule R113). -/
theorem classifyWindow_exclusive (t : Tables) (w : List Byte) {n : Nat} (a : Bool) (c : ClassifierRegs) (e : EccRegs)
    (hn : 2336 ≤ n) (h : (classifyWindow t w n a c e).cls.c1 = true) :
    (classifyWindow t w n a c e).cls.c2 = false ∧ (classifyWindow t w n a c e).cls.c3 = false := by
  unfold classifyWindow at h ⊢
  rw [if_neg (by omega)] at h ⊢
  simp only at h ⊢
  split at h
  · rename_i hs
    rw [if_pos hs]
    exact candidates_exclusive h
  · rename_i hs
    rw [if_neg hs]
    obtain ⟨k1, k2, k3⟩ := checksumChecks_eq t w (candidates w n a)
    obtain ⟨m1, m2, m3⟩ := eccCheckMode1_eq t w (checksumChecks t w (candidates w n a)) e
    obtain ⟨p1, p2, p3⟩ := eccCheckMode2_eq t w (eccCheckMode1 t w (checksumChecks t w (candidates w n a)) e).1
      (eccCheckMode1 t w (checksumChecks t w (candidates w n a)) e).2
    obtain ⟨x2, x3⟩ := candidates_exclusive (k1.1 (m1.1 (by rw [← p2]; exact h)).1).1
    refine ⟨Bool.eq_false_iff.2 fun h2 => ?_, Bool.eq_false_iff.2 fun h3 => ?_⟩
    · have := (k2.1 (by rw [← m2]; exact (p1.1 h2).1)).1
      rw [x2] at this; cases this
    · have := (k3.1 (by rw [← m3, ← p3]; exact h3)).1
      rw [x3] at this; cases this

/-- The working registers a classification starts from do not decide its answer (rules R16, R121). -/
theorem classifyWindow_type_congr (t : Tables) (w : List Byte) (n : Nat) (a : Bool) (c c' : ClassifierRegs)
    (e e' : EccRegs) : (classifyWindow t w n a c e).type = (classifyWindow t w n a c' e').type := by
  obtain ⟨h1, h2, h3⟩ := classifyWindow_type t w n a c e
  obtain ⟨k1, k2, k3⟩ := classifyWindow_type t w n a c' e'
  rw [← k1] at h1; rw [← k2] at h2; rw [← k3] at h3
  generalize (classifyWindow t w n a c e).type = x at *
  generalize (classifyWindow t w n a c' e').type = y at *
  cases x <;> cases y <;> simp_all

/-- A block of a type is only found when the window holds a whole one (rule R128). -/
theorem blockSize_le_of_classify {t : Tables} {w : List Byte} {n : Nat} {a : Bool} {c : ClassifierRegs} {e : EccRegs}
    (hn : 1 ≤ n) : blockSize (classifyWindow t w n a c e).type ≤ n := by
  obtain ⟨h1, h2, h3⟩ := classifyWindow_type t w n a c e
  cases h : (classifyWindow t w n a c e).type with
  | literal => exact hn
  | mode1 => exact (h1.1 h).2.1
  | mode2form1 => exact (h2.1 h).1.1
  | mode2form2 => exact (h3.1 h).1.1

/-- The ranges of rule R15 are kept. -/
theorem classifyWindow_ecc (t : Tables) (w : List Byte) (n : Nat) (a : Bool) (c : ClassifierRegs) {e : EccRegs}
    (h0 : e.maj ≤ 86) (h1 : e.min ≤ 43) (h2 : e.idx < 2236) (h3 : e.addrSave.length = 4) :
    (classifyWindow t w n a c e).ecc.maj ≤ 86 ∧ (classifyWindow t w n a c e).ecc.min ≤ 43 ∧
    (classifyWindow t w n a c e).ecc.idx < 2236 ∧ (classifyWindow t w n a c e).ecc.addrSave.length = 4 := by
  unfold classifyWindow
  split
  · exact ⟨h0, h1, h2, h3⟩
  · simp only
    split
    · exact ⟨h0, h1, h2, h3⟩
    · generalize checksumChecks t w (candidates w n a) = c0
      have one : (eccCheckMode1 t w c0 e).2.maj ≤ 86 ∧ (eccCheckMode1 t w c0 e).2.min ≤ 43 ∧
          (eccCheckMode1 t w c0 e).2.idx < 2236 ∧ (eccCheckMode1 t w c0 e).2.addrSave.length = 4 := by
        unfold eccCheckMode1
        split
        · obtain ⟨a1, a2, a3, a4, -⟩ := generateParityFrame_regs t false .verify (mode1View w) h1 h2 h3
          exact ⟨a1, a2, a3, a4⟩
        · exact ⟨h0, h1, h2, h3⟩
      obtain ⟨o1, o2, o3, o4⟩ := one
      unfold eccCheckMode2
      split
      · obtain ⟨a1, a2, a3, a4, -⟩ := generateParityFrame_regs t true .verify (mode2View w) o2 o3 o4
        exact ⟨a1, a2, a3, a4⟩
      · exact ⟨o1, o2, o3, o4⟩

end Sys2Proof.Machine
end

