-- ==== Sys2Proof/Laws/State.lean ====
section
/-!
SUPPORT. One lemma per field per named update of State, each true by rfl, so that no later proof unfolds a record
update.
-/

namespace Sys2Proof.Machine

@[simp] theorem State.returning_tblValid (s : State) (r : Result) : (s.returning r).tblValid = s.tblValid := rfl
@[simp] theorem State.returning_err (s : State) (r : Result) : (s.returning r).err = s.err := rfl
@[simp] theorem State.returning_stats (s : State) (r : Result) : (s.returning r).stats = s.stats := rfl
@[simp] theorem State.returning_tables (s : State) (r : Result) : (s.returning r).tables = s.tables := rfl
@[simp] theorem State.returning_frame (s : State) (r : Result) : (s.returning r).frame = s.frame := rfl
@[simp] theorem State.returning_la (s : State) (r : Result) : (s.returning r).la = s.la := rfl
@[simp] theorem State.returning_laPos (s : State) (r : Result) : (s.returning r).laPos = s.laPos := rfl
@[simp] theorem State.returning_src (s : State) (r : Result) : (s.returning r).src = s.src := rfl
@[simp] theorem State.returning_snk (s : State) (r : Result) : (s.returning r).snk = s.snk := rfl
@[simp] theorem State.returning_ck (s : State) (r : Result) : (s.returning r).ck = s.ck := rfl
@[simp] theorem State.returning_ecc (s : State) (r : Result) : (s.returning r).ecc = s.ecc := rfl
@[simp] theorem State.returning_cls (s : State) (r : Result) : (s.returning r).cls = s.cls := rfl
@[simp] theorem State.returning_enc (s : State) (r : Result) : (s.returning r).enc = s.enc := rfl
@[simp] theorem State.returning_dec (s : State) (r : Result) : (s.returning r).dec = s.dec := rfl
@[simp] theorem State.returning_engine (s : State) (r : Result) : (s.returning r).engine = s.engine := rfl
@[simp] theorem State.returning_snkStart (s : State) (r : Result) : (s.returning r).snkStart = s.snkStart := rfl
@[simp] theorem State.returning_result (s : State) (r : Result) : (s.returning r).result = r := rfl
@[simp] theorem State.returning_host (s : State) (r : Result) : (s.returning r).host = s.host := rfl
@[simp] theorem State.returning_srcFail (s : State) (r : Result) : (s.returning r).srcFail = s.srcFail := rfl
@[simp] theorem State.returning_snkCap (s : State) (r : Result) : (s.returning r).snkCap = s.snkCap := rfl
@[simp] theorem State.returning_draws (s : State) (r : Result) : (s.returning r).draws = s.draws := rfl

@[simp] theorem State.append_tblValid (s : State) (bytes : List Byte) : (s.append bytes).tblValid = s.tblValid := rfl
@[simp] theorem State.append_err (s : State) (bytes : List Byte) : (s.append bytes).err = s.err := rfl
@[simp] theorem State.append_stats (s : State) (bytes : List Byte) : (s.append bytes).stats = s.stats := rfl
@[simp] theorem State.append_tables (s : State) (bytes : List Byte) : (s.append bytes).tables = s.tables := rfl
@[simp] theorem State.append_frame (s : State) (bytes : List Byte) : (s.append bytes).frame = s.frame := rfl
@[simp] theorem State.append_la (s : State) (bytes : List Byte) : (s.append bytes).la = s.la := rfl
@[simp] theorem State.append_laPos (s : State) (bytes : List Byte) : (s.append bytes).laPos = s.laPos := rfl
@[simp] theorem State.append_src (s : State) (bytes : List Byte) : (s.append bytes).src = s.src := rfl
@[simp] theorem State.append_snk (s : State) (bytes : List Byte) : (s.append bytes).snk = s.snk ++ bytes := rfl
@[simp] theorem State.append_ck (s : State) (bytes : List Byte) : (s.append bytes).ck = s.ck := rfl
@[simp] theorem State.append_ecc (s : State) (bytes : List Byte) : (s.append bytes).ecc = s.ecc := rfl
@[simp] theorem State.append_cls (s : State) (bytes : List Byte) : (s.append bytes).cls = s.cls := rfl
@[simp] theorem State.append_enc (s : State) (bytes : List Byte) : (s.append bytes).enc = s.enc := rfl
@[simp] theorem State.append_dec (s : State) (bytes : List Byte) : (s.append bytes).dec = s.dec := rfl
@[simp] theorem State.append_engine (s : State) (bytes : List Byte) : (s.append bytes).engine = s.engine := rfl
@[simp] theorem State.append_snkStart (s : State) (bytes : List Byte) : (s.append bytes).snkStart = s.snkStart := rfl
@[simp] theorem State.append_result (s : State) (bytes : List Byte) : (s.append bytes).result = s.result := rfl
@[simp] theorem State.append_host (s : State) (bytes : List Byte) : (s.append bytes).host = s.host := rfl
@[simp] theorem State.append_srcFail (s : State) (bytes : List Byte) : (s.append bytes).srcFail = s.srcFail := rfl
@[simp] theorem State.append_snkCap (s : State) (bytes : List Byte) : (s.append bytes).snkCap = s.snkCap := rfl
@[simp] theorem State.append_draws (s : State) (bytes : List Byte) : (s.append bytes).draws = s.draws := rfl

@[simp] theorem State.succeed_tblValid (s : State) : s.succeed.tblValid = s.tblValid := rfl
@[simp] theorem State.succeed_err (s : State) : s.succeed.err = 0 := rfl
@[simp] theorem State.succeed_stats (s : State) : s.succeed.stats = s.stats := rfl
@[simp] theorem State.succeed_tables (s : State) : s.succeed.tables = s.tables := rfl
@[simp] theorem State.succeed_frame (s : State) : s.succeed.frame = s.frame := rfl
@[simp] theorem State.succeed_la (s : State) : s.succeed.la = s.la := rfl
@[simp] theorem State.succeed_laPos (s : State) : s.succeed.laPos = s.laPos := rfl
@[simp] theorem State.succeed_src (s : State) : s.succeed.src = s.src := rfl
@[simp] theorem State.succeed_snk (s : State) : s.succeed.snk = s.snk := rfl
@[simp] theorem State.succeed_ck (s : State) : s.succeed.ck = s.ck := rfl
@[simp] theorem State.succeed_ecc (s : State) : s.succeed.ecc = s.ecc := rfl
@[simp] theorem State.succeed_cls (s : State) : s.succeed.cls = s.cls := rfl
@[simp] theorem State.succeed_enc (s : State) : s.succeed.enc = s.enc := rfl
@[simp] theorem State.succeed_dec (s : State) : s.succeed.dec = s.dec := rfl
@[simp] theorem State.succeed_engine (s : State) : s.succeed.engine = .idle := rfl
@[simp] theorem State.succeed_snkStart (s : State) : s.succeed.snkStart = s.snkStart := rfl
@[simp] theorem State.succeed_result (s : State) : s.succeed.result = .success := rfl
@[simp] theorem State.succeed_host (s : State) : s.succeed.host = s.host := rfl
@[simp] theorem State.succeed_srcFail (s : State) : s.succeed.srcFail = s.srcFail := rfl
@[simp] theorem State.succeed_snkCap (s : State) : s.succeed.snkCap = s.snkCap := rfl
@[simp] theorem State.succeed_draws (s : State) : s.succeed.draws = s.draws := rfl

@[simp] theorem State.advanceRead_tblValid (s : State) (n : Nat) : (s.advanceRead n).tblValid = s.tblValid := rfl
@[simp] theorem State.advanceRead_err (s : State) (n : Nat) : (s.advanceRead n).err = s.err := rfl
@[simp] theorem State.advanceRead_stats (s : State) (n : Nat) : (s.advanceRead n).stats = s.stats := rfl
@[simp] theorem State.advanceRead_tables (s : State) (n : Nat) : (s.advanceRead n).tables = s.tables := rfl
@[simp] theorem State.advanceRead_frame (s : State) (n : Nat) : (s.advanceRead n).frame = s.frame := rfl
@[simp] theorem State.advanceRead_la (s : State) (n : Nat) : (s.advanceRead n).la = s.la := rfl
@[simp] theorem State.advanceRead_laPos (s : State) (n : Nat) : (s.advanceRead n).laPos = s.laPos := rfl
@[simp] theorem State.advanceRead_src (s : State) (n : Nat) : (s.advanceRead n).src = s.src := rfl
@[simp] theorem State.advanceRead_snk (s : State) (n : Nat) : (s.advanceRead n).snk = s.snk := rfl
@[simp] theorem State.advanceRead_ck (s : State) (n : Nat) : (s.advanceRead n).ck = s.ck := rfl
@[simp] theorem State.advanceRead_ecc (s : State) (n : Nat) : (s.advanceRead n).ecc = s.ecc := rfl
@[simp] theorem State.advanceRead_cls (s : State) (n : Nat) : (s.advanceRead n).cls = s.cls := rfl
@[simp] theorem State.advanceRead_enc (s : State) (n : Nat) : (s.advanceRead n).enc = s.enc := rfl
@[simp] theorem State.advanceRead_dec (s : State) (n : Nat) : (s.advanceRead n).dec = { s.dec with rpos := s.dec.rpos + n } := rfl
@[simp] theorem State.advanceRead_engine (s : State) (n : Nat) : (s.advanceRead n).engine = s.engine := rfl
@[simp] theorem State.advanceRead_snkStart (s : State) (n : Nat) : (s.advanceRead n).snkStart = s.snkStart := rfl
@[simp] theorem State.advanceRead_result (s : State) (n : Nat) : (s.advanceRead n).result = s.result := rfl
@[simp] theorem State.advanceRead_host (s : State) (n : Nat) : (s.advanceRead n).host = s.host := rfl
@[simp] theorem State.advanceRead_srcFail (s : State) (n : Nat) : (s.advanceRead n).srcFail = s.srcFail := rfl
@[simp] theorem State.advanceRead_snkCap (s : State) (n : Nat) : (s.advanceRead n).snkCap = s.snkCap := rfl
@[simp] theorem State.advanceRead_draws (s : State) (n : Nat) : (s.advanceRead n).draws = s.draws := rfl

@[simp] theorem State.withLeft_tblValid (s : State) (n : Nat) : (s.withLeft n).tblValid = s.tblValid := rfl
@[simp] theorem State.withLeft_err (s : State) (n : Nat) : (s.withLeft n).err = s.err := rfl
@[simp] theorem State.withLeft_stats (s : State) (n : Nat) : (s.withLeft n).stats = s.stats := rfl
@[simp] theorem State.withLeft_tables (s : State) (n : Nat) : (s.withLeft n).tables = s.tables := rfl
@[simp] theorem State.withLeft_frame (s : State) (n : Nat) : (s.withLeft n).frame = s.frame := rfl
@[simp] theorem State.withLeft_la (s : State) (n : Nat) : (s.withLeft n).la = s.la := rfl
@[simp] theorem State.withLeft_laPos (s : State) (n : Nat) : (s.withLeft n).laPos = s.laPos := rfl
@[simp] theorem State.withLeft_src (s : State) (n : Nat) : (s.withLeft n).src = s.src := rfl
@[simp] theorem State.withLeft_snk (s : State) (n : Nat) : (s.withLeft n).snk = s.snk := rfl
@[simp] theorem State.withLeft_ck (s : State) (n : Nat) : (s.withLeft n).ck = s.ck := rfl
@[simp] theorem State.withLeft_ecc (s : State) (n : Nat) : (s.withLeft n).ecc = s.ecc := rfl
@[simp] theorem State.withLeft_cls (s : State) (n : Nat) : (s.withLeft n).cls = s.cls := rfl
@[simp] theorem State.withLeft_enc (s : State) (n : Nat) : (s.withLeft n).enc = s.enc := rfl
@[simp] theorem State.withLeft_dec (s : State) (n : Nat) : (s.withLeft n).dec = { s.dec with recLeft := BitVec.ofNat 32 n } := rfl
@[simp] theorem State.withLeft_engine (s : State) (n : Nat) : (s.withLeft n).engine = s.engine := rfl
@[simp] theorem State.withLeft_snkStart (s : State) (n : Nat) : (s.withLeft n).snkStart = s.snkStart := rfl
@[simp] theorem State.withLeft_result (s : State) (n : Nat) : (s.withLeft n).result = s.result := rfl
@[simp] theorem State.withLeft_host (s : State) (n : Nat) : (s.withLeft n).host = s.host := rfl
@[simp] theorem State.withLeft_srcFail (s : State) (n : Nat) : (s.withLeft n).srcFail = s.srcFail := rfl
@[simp] theorem State.withLeft_snkCap (s : State) (n : Nat) : (s.withLeft n).snkCap = s.snkCap := rfl
@[simp] theorem State.withLeft_draws (s : State) (n : Nat) : (s.withLeft n).draws = s.draws := rfl

@[simp] theorem State.afterEcc_tblValid (s : State) (out : EccOut) : (s.afterEcc out).tblValid = s.tblValid := rfl
@[simp] theorem State.afterEcc_err (s : State) (out : EccOut) : (s.afterEcc out).err = s.err := rfl
@[simp] theorem State.afterEcc_stats (s : State) (out : EccOut) : (s.afterEcc out).stats = s.stats := rfl
@[simp] theorem State.afterEcc_tables (s : State) (out : EccOut) : (s.afterEcc out).tables = s.tables := rfl
@[simp] theorem State.afterEcc_frame (s : State) (out : EccOut) : (s.afterEcc out).frame = out.frame := rfl
@[simp] theorem State.afterEcc_la (s : State) (out : EccOut) : (s.afterEcc out).la = s.la := rfl
@[simp] theorem State.afterEcc_laPos (s : State) (out : EccOut) : (s.afterEcc out).laPos = s.laPos := rfl
@[simp] theorem State.afterEcc_src (s : State) (out : EccOut) : (s.afterEcc out).src = s.src := rfl
@[simp] theorem State.afterEcc_snk (s : State) (out : EccOut) : (s.afterEcc out).snk = s.snk := rfl
@[simp] theorem State.afterEcc_ck (s : State) (out : EccOut) : (s.afterEcc out).ck = s.ck := rfl
@[simp] theorem State.afterEcc_ecc (s : State) (out : EccOut) : (s.afterEcc out).ecc = out.regs := rfl
@[simp] theorem State.afterEcc_cls (s : State) (out : EccOut) : (s.afterEcc out).cls = s.cls := rfl
@[simp] theorem State.afterEcc_enc (s : State) (out : EccOut) : (s.afterEcc out).enc = s.enc := rfl
@[simp] theorem State.afterEcc_dec (s : State) (out : EccOut) : (s.afterEcc out).dec = s.dec := rfl
@[simp] theorem State.afterEcc_engine (s : State) (out : EccOut) : (s.afterEcc out).engine = s.engine := rfl
@[simp] theorem State.afterEcc_snkStart (s : State) (out : EccOut) : (s.afterEcc out).snkStart = s.snkStart := rfl
@[simp] theorem State.afterEcc_result (s : State) (out : EccOut) : (s.afterEcc out).result = .ok out.ok := rfl
@[simp] theorem State.afterEcc_host (s : State) (out : EccOut) : (s.afterEcc out).host = s.host := rfl
@[simp] theorem State.afterEcc_srcFail (s : State) (out : EccOut) : (s.afterEcc out).srcFail = s.srcFail := rfl
@[simp] theorem State.afterEcc_snkCap (s : State) (out : EccOut) : (s.afterEcc out).snkCap = s.snkCap := rfl
@[simp] theorem State.afterEcc_draws (s : State) (out : EccOut) : (s.afterEcc out).draws = s.draws := rfl

@[simp] theorem State.afterClassify_tblValid (s : State) (out : ClassifyOut) : (s.afterClassify out).tblValid = s.tblValid := rfl
@[simp] theorem State.afterClassify_err (s : State) (out : ClassifyOut) : (s.afterClassify out).err = s.err := rfl
@[simp] theorem State.afterClassify_stats (s : State) (out : ClassifyOut) : (s.afterClassify out).stats = s.stats := rfl
@[simp] theorem State.afterClassify_tables (s : State) (out : ClassifyOut) : (s.afterClassify out).tables = s.tables := rfl
@[simp] theorem State.afterClassify_frame (s : State) (out : ClassifyOut) : (s.afterClassify out).frame = s.frame := rfl
@[simp] theorem State.afterClassify_la (s : State) (out : ClassifyOut) : (s.afterClassify out).la = s.la := rfl
@[simp] theorem State.afterClassify_laPos (s : State) (out : ClassifyOut) : (s.afterClassify out).laPos = s.laPos := rfl
@[simp] theorem State.afterClassify_src (s : State) (out : ClassifyOut) : (s.afterClassify out).src = s.src := rfl
@[simp] theorem State.afterClassify_snk (s : State) (out : ClassifyOut) : (s.afterClassify out).snk = s.snk := rfl
@[simp] theorem State.afterClassify_ck (s : State) (out : ClassifyOut) : (s.afterClassify out).ck = s.ck := rfl
@[simp] theorem State.afterClassify_ecc (s : State) (out : ClassifyOut) : (s.afterClassify out).ecc = out.ecc := rfl
@[simp] theorem State.afterClassify_cls (s : State) (out : ClassifyOut) : (s.afterClassify out).cls = out.cls := rfl
@[simp] theorem State.afterClassify_enc (s : State) (out : ClassifyOut) : (s.afterClassify out).enc = s.enc := rfl
@[simp] theorem State.afterClassify_dec (s : State) (out : ClassifyOut) : (s.afterClassify out).dec = s.dec := rfl
@[simp] theorem State.afterClassify_engine (s : State) (out : ClassifyOut) : (s.afterClassify out).engine = s.engine := rfl
@[simp] theorem State.afterClassify_snkStart (s : State) (out : ClassifyOut) : (s.afterClassify out).snkStart = s.snkStart := rfl
@[simp] theorem State.afterClassify_result (s : State) (out : ClassifyOut) : (s.afterClassify out).result = s.result := rfl
@[simp] theorem State.afterClassify_host (s : State) (out : ClassifyOut) : (s.afterClassify out).host = s.host := rfl
@[simp] theorem State.afterClassify_srcFail (s : State) (out : ClassifyOut) : (s.afterClassify out).srcFail = s.srcFail := rfl
@[simp] theorem State.afterClassify_snkCap (s : State) (out : ClassifyOut) : (s.afterClassify out).snkCap = s.snkCap := rfl
@[simp] theorem State.afterClassify_draws (s : State) (out : ClassifyOut) : (s.afterClassify out).draws = s.draws := rfl

@[simp] theorem State.afterWindow_tblValid (s : State) (w : List Byte) (n : Nat) :
    (s.afterWindow w n).tblValid = s.tblValid := rfl
@[simp] theorem State.afterWindow_err (s : State) (w : List Byte) (n : Nat) :
    (s.afterWindow w n).err = s.err := rfl
@[simp] theorem State.afterWindow_stats (s : State) (w : List Byte) (n : Nat) :
    (s.afterWindow w n).stats = s.stats := rfl
@[simp] theorem State.afterWindow_tables (s : State) (w : List Byte) (n : Nat) :
    (s.afterWindow w n).tables = s.tables := rfl
@[simp] theorem State.afterWindow_frame (s : State) (w : List Byte) (n : Nat) :
    (s.afterWindow w n).frame = s.frame := rfl
@[simp] theorem State.afterWindow_la (s : State) (w : List Byte) (n : Nat) :
    (s.afterWindow w n).la = s.la := rfl
@[simp] theorem State.afterWindow_laPos (s : State) (w : List Byte) (n : Nat) :
    (s.afterWindow w n).laPos = s.laPos := rfl
@[simp] theorem State.afterWindow_src (s : State) (w : List Byte) (n : Nat) :
    (s.afterWindow w n).src = s.src := rfl
@[simp] theorem State.afterWindow_snk (s : State) (w : List Byte) (n : Nat) :
    (s.afterWindow w n).snk = s.snk := rfl
@[simp] theorem State.afterWindow_ck (s : State) (w : List Byte) (n : Nat) :
    (s.afterWindow w n).ck = s.ck := rfl
@[simp] theorem State.afterWindow_ecc (s : State) (w : List Byte) (n : Nat) :
    (s.afterWindow w n).ecc = s.ecc := rfl
@[simp] theorem State.afterWindow_cls (s : State) (w : List Byte) (n : Nat) :
    (s.afterWindow w n).cls = s.cls := rfl
@[simp] theorem State.afterWindow_enc (s : State) (w : List Byte) (n : Nat) :
    (s.afterWindow w n).enc = s.enc := rfl
@[simp] theorem State.afterWindow_dec (s : State) (w : List Byte) (n : Nat) :
    (s.afterWindow w n).dec = s.dec := rfl
@[simp] theorem State.afterWindow_engine (s : State) (w : List Byte) (n : Nat) :
    (s.afterWindow w n).engine = s.engine := rfl
@[simp] theorem State.afterWindow_snkStart (s : State) (w : List Byte) (n : Nat) :
    (s.afterWindow w n).snkStart = s.snkStart := rfl
@[simp] theorem State.afterWindow_result (s : State) (w : List Byte) (n : Nat) :
    (s.afterWindow w n).result = s.result := rfl
@[simp] theorem State.afterWindow_host (s : State) (w : List Byte) (n : Nat) :
    (s.afterWindow w n).host = s.host := rfl
@[simp] theorem State.afterWindow_srcFail (s : State) (w : List Byte) (n : Nat) :
    (s.afterWindow w n).srcFail = s.srcFail := rfl
@[simp] theorem State.afterWindow_snkCap (s : State) (w : List Byte) (n : Nat) :
    (s.afterWindow w n).snkCap = s.snkCap := rfl
@[simp] theorem State.afterWindow_draws (s : State) (w : List Byte) (n : Nat) :
    (s.afterWindow w n).draws = if windowShort w n then s.draws + 1 else s.draws := rfl

@[simp] theorem State.popHost_tblValid (s : State) (rest : List HostEvent) : (s.popHost rest).tblValid = s.tblValid := rfl
@[simp] theorem State.popHost_err (s : State) (rest : List HostEvent) : (s.popHost rest).err = s.err := rfl
@[simp] theorem State.popHost_stats (s : State) (rest : List HostEvent) : (s.popHost rest).stats = s.stats := rfl
@[simp] theorem State.popHost_tables (s : State) (rest : List HostEvent) : (s.popHost rest).tables = s.tables := rfl
@[simp] theorem State.popHost_frame (s : State) (rest : List HostEvent) : (s.popHost rest).frame = s.frame := rfl
@[simp] theorem State.popHost_la (s : State) (rest : List HostEvent) : (s.popHost rest).la = s.la := rfl
@[simp] theorem State.popHost_laPos (s : State) (rest : List HostEvent) : (s.popHost rest).laPos = s.laPos := rfl
@[simp] theorem State.popHost_src (s : State) (rest : List HostEvent) : (s.popHost rest).src = s.src := rfl
@[simp] theorem State.popHost_snk (s : State) (rest : List HostEvent) : (s.popHost rest).snk = s.snk := rfl
@[simp] theorem State.popHost_ck (s : State) (rest : List HostEvent) : (s.popHost rest).ck = s.ck := rfl
@[simp] theorem State.popHost_ecc (s : State) (rest : List HostEvent) : (s.popHost rest).ecc = s.ecc := rfl
@[simp] theorem State.popHost_cls (s : State) (rest : List HostEvent) : (s.popHost rest).cls = s.cls := rfl
@[simp] theorem State.popHost_enc (s : State) (rest : List HostEvent) : (s.popHost rest).enc = s.enc := rfl
@[simp] theorem State.popHost_dec (s : State) (rest : List HostEvent) : (s.popHost rest).dec = s.dec := rfl
@[simp] theorem State.popHost_engine (s : State) (rest : List HostEvent) : (s.popHost rest).engine = s.engine := rfl
@[simp] theorem State.popHost_snkStart (s : State) (rest : List HostEvent) : (s.popHost rest).snkStart = s.snkStart := rfl
@[simp] theorem State.popHost_result (s : State) (rest : List HostEvent) : (s.popHost rest).result = s.result := rfl
@[simp] theorem State.popHost_host (s : State) (rest : List HostEvent) : (s.popHost rest).host = rest := rfl
@[simp] theorem State.popHost_srcFail (s : State) (rest : List HostEvent) : (s.popHost rest).srcFail = s.srcFail := rfl
@[simp] theorem State.popHost_snkCap (s : State) (rest : List HostEvent) : (s.popHost rest).snkCap = s.snkCap := rfl
@[simp] theorem State.popHost_draws (s : State) (rest : List HostEvent) : (s.popHost rest).draws = s.draws := rfl

@[simp] theorem raise_tblValid (e : ErrorCode) (s : State) : (raise e s).tblValid = s.tblValid := rfl
@[simp] theorem raise_err (e : ErrorCode) (s : State) : (raise e s).err = e.code := rfl
@[simp] theorem raise_stats (e : ErrorCode) (s : State) : (raise e s).stats = s.stats := rfl
@[simp] theorem raise_tables (e : ErrorCode) (s : State) : (raise e s).tables = s.tables := rfl
@[simp] theorem raise_frame (e : ErrorCode) (s : State) : (raise e s).frame = s.frame := rfl
@[simp] theorem raise_la (e : ErrorCode) (s : State) : (raise e s).la = s.la := rfl
@[simp] theorem raise_laPos (e : ErrorCode) (s : State) : (raise e s).laPos = s.laPos := rfl
@[simp] theorem raise_src (e : ErrorCode) (s : State) : (raise e s).src = s.src := rfl
@[simp] theorem raise_snk (e : ErrorCode) (s : State) : (raise e s).snk = sinkAfterError e s := rfl
@[simp] theorem raise_ck (e : ErrorCode) (s : State) : (raise e s).ck = s.ck := rfl
@[simp] theorem raise_ecc (e : ErrorCode) (s : State) : (raise e s).ecc = s.ecc := rfl
@[simp] theorem raise_cls (e : ErrorCode) (s : State) : (raise e s).cls = s.cls := rfl
@[simp] theorem raise_enc (e : ErrorCode) (s : State) : (raise e s).enc = s.enc := rfl
@[simp] theorem raise_dec (e : ErrorCode) (s : State) : (raise e s).dec = s.dec := rfl
@[simp] theorem raise_engine (e : ErrorCode) (s : State) : (raise e s).engine = .idle := rfl
@[simp] theorem raise_snkStart (e : ErrorCode) (s : State) : (raise e s).snkStart = s.snkStart := rfl
@[simp] theorem raise_result (e : ErrorCode) (s : State) : (raise e s).result = .error e := rfl
@[simp] theorem raise_host (e : ErrorCode) (s : State) : (raise e s).host = s.host := rfl
@[simp] theorem raise_srcFail (e : ErrorCode) (s : State) : (raise e s).srcFail = s.srcFail := rfl
@[simp] theorem raise_snkCap (e : ErrorCode) (s : State) : (raise e s).snkCap = s.snkCap := rfl
@[simp] theorem raise_draws (e : ErrorCode) (s : State) : (raise e s).draws = if e.leavesSinkOpen then s.draws + 1 else s.draws := rfl

@[simp] theorem refill_tblValid (s : State) : (refill s).tblValid = s.tblValid := rfl
@[simp] theorem refill_err (s : State) : (refill s).err = s.err := rfl
@[simp] theorem refill_stats (s : State) : (refill s).stats = s.stats := rfl
@[simp] theorem refill_tables (s : State) : (refill s).tables = s.tables := rfl
@[simp] theorem refill_frame (s : State) : (refill s).frame = s.frame := rfl
@[simp] theorem refill_la (s : State) : (refill s).la = s.la ++ slice s.src s.laPos (windowMax - s.la.length) := rfl
@[simp] theorem refill_laPos (s : State) : (refill s).laPos = s.laPos + (slice s.src s.laPos (windowMax - s.la.length)).length := rfl
@[simp] theorem refill_src (s : State) : (refill s).src = s.src := rfl
@[simp] theorem refill_snk (s : State) : (refill s).snk = s.snk := rfl
@[simp] theorem refill_ck (s : State) : (refill s).ck = s.ck := rfl
@[simp] theorem refill_ecc (s : State) : (refill s).ecc = s.ecc := rfl
@[simp] theorem refill_cls (s : State) : (refill s).cls = s.cls := rfl
@[simp] theorem refill_enc (s : State) : (refill s).enc = s.enc := rfl
@[simp] theorem refill_dec (s : State) : (refill s).dec = s.dec := rfl
@[simp] theorem refill_engine (s : State) : (refill s).engine = s.engine := rfl
@[simp] theorem refill_snkStart (s : State) : (refill s).snkStart = s.snkStart := rfl
@[simp] theorem refill_result (s : State) : (refill s).result = s.result := rfl
@[simp] theorem refill_host (s : State) : (refill s).host = s.host := rfl
@[simp] theorem refill_srcFail (s : State) : (refill s).srcFail = s.srcFail := rfl
@[simp] theorem refill_snkCap (s : State) : (refill s).snkCap = s.snkCap := rfl
@[simp] theorem refill_draws (s : State) : (refill s).draws = s.draws := rfl

@[simp] theorem advance_tblValid (t : SectorType) (s : State) : (advance t s).tblValid = s.tblValid := rfl
@[simp] theorem advance_err (t : SectorType) (s : State) : (advance t s).err = s.err := rfl
@[simp] theorem advance_stats (t : SectorType) (s : State) : (advance t s).stats = s.stats := rfl
@[simp] theorem advance_tables (t : SectorType) (s : State) : (advance t s).tables = s.tables := rfl
@[simp] theorem advance_frame (t : SectorType) (s : State) : (advance t s).frame = s.frame := rfl
@[simp] theorem advance_la (t : SectorType) (s : State) : (advance t s).la = s.la.drop (blockSize t) := rfl
@[simp] theorem advance_laPos (t : SectorType) (s : State) : (advance t s).laPos = s.laPos := rfl
@[simp] theorem advance_src (t : SectorType) (s : State) : (advance t s).src = s.src := rfl
@[simp] theorem advance_snk (t : SectorType) (s : State) : (advance t s).snk = s.snk := rfl
@[simp] theorem advance_ck (t : SectorType) (s : State) : (advance t s).ck = s.ck := rfl
@[simp] theorem advance_ecc (t : SectorType) (s : State) : (advance t s).ecc = s.ecc := rfl
@[simp] theorem advance_cls (t : SectorType) (s : State) : (advance t s).cls = s.cls := rfl
@[simp] theorem advance_enc (t : SectorType) (s : State) : (advance t s).enc = { s.enc with cur := s.enc.cur + blockSize t } := rfl
@[simp] theorem advance_dec (t : SectorType) (s : State) : (advance t s).dec = s.dec := rfl
@[simp] theorem advance_engine (t : SectorType) (s : State) : (advance t s).engine = s.engine := rfl
@[simp] theorem advance_snkStart (t : SectorType) (s : State) : (advance t s).snkStart = s.snkStart := rfl
@[simp] theorem advance_result (t : SectorType) (s : State) : (advance t s).result = s.result := rfl
@[simp] theorem advance_host (t : SectorType) (s : State) : (advance t s).host = s.host := rfl
@[simp] theorem advance_srcFail (t : SectorType) (s : State) : (advance t s).srcFail = s.srcFail := rfl
@[simp] theorem advance_snkCap (t : SectorType) (s : State) : (advance t s).snkCap = s.snkCap := rfl
@[simp] theorem advance_draws (t : SectorType) (s : State) : (advance t s).draws = s.draws := rfl

@[simp] theorem runEnd_tblValid (s : State) : (runEnd s).tblValid = s.tblValid := rfl
@[simp] theorem runEnd_err (s : State) : (runEnd s).err = s.err := rfl
@[simp] theorem runEnd_stats (s : State) : (runEnd s).stats = s.stats := rfl
@[simp] theorem runEnd_tables (s : State) : (runEnd s).tables = s.tables := rfl
@[simp] theorem runEnd_frame (s : State) : (runEnd s).frame = s.frame := rfl
@[simp] theorem runEnd_la (s : State) : (runEnd s).la = s.la := rfl
@[simp] theorem runEnd_laPos (s : State) : (runEnd s).laPos = s.laPos := rfl
@[simp] theorem runEnd_src (s : State) : (runEnd s).src = s.src := rfl
@[simp] theorem runEnd_snk (s : State) : (runEnd s).snk = s.snk := rfl
@[simp] theorem runEnd_ck (s : State) : (runEnd s).ck = s.ck := rfl
@[simp] theorem runEnd_ecc (s : State) : (runEnd s).ecc = s.ecc := rfl
@[simp] theorem runEnd_cls (s : State) : (runEnd s).cls = s.cls := rfl
@[simp] theorem runEnd_enc (s : State) : (runEnd s).enc = s.enc := rfl
@[simp] theorem runEnd_dec (s : State) : (runEnd s).dec = s.dec := rfl
@[simp] theorem runEnd_engine (s : State) : (runEnd s).engine = .trailer := rfl
@[simp] theorem runEnd_snkStart (s : State) : (runEnd s).snkStart = s.snkStart := rfl
@[simp] theorem runEnd_result (s : State) : (runEnd s).result = s.result := rfl
@[simp] theorem runEnd_host (s : State) : (runEnd s).host = s.host := rfl
@[simp] theorem runEnd_srcFail (s : State) : (runEnd s).srcFail = s.srcFail := rfl
@[simp] theorem runEnd_snkCap (s : State) : (runEnd s).snkCap = s.snkCap := rfl
@[simp] theorem runEnd_draws (s : State) : (runEnd s).draws = s.draws := rfl

end Sys2Proof.Machine
end

