-- ==== Sys2Proof/Laws/Ops.lean ====
section
/-!
SUPPORT. What each shared operation over the source, the sink and the errors can do.
-/

namespace Sys2Proof.Machine

/-! ## Reads (rule R39) -/

theorem State.srcLimit_le (s : State) : s.srcLimit ≤ s.src.length := by
  unfold srcLimit; split <;> omega

theorem State.NoIoFailure.srcLimit {s : State} (h : s.NoIoFailure) : s.srcLimit = s.src.length := by
  unfold State.srcLimit; rw [h.1]

theorem State.NoIoFailure.sinkFull {s : State} (h : s.NoIoFailure) (n : Nat) : s.sinkFull n = false := by
  unfold State.sinkFull; rw [h.2]

theorem State.NoIoFailure.shortError {s : State} (h : s.NoIoFailure) : s.shortError = .unexpectedEndOfInput := by
  unfold State.shortError; rw [h.srcLimit, if_neg (by omega)]

theorem srcRead_of_le {a n : Nat} {s : State} (h : a + n ≤ s.srcLimit) : srcRead a n s = .ok (slice s.src a n) :=
  if_pos h

theorem srcRead_of_not_le {a n : Nat} {s : State} (h : ¬a + n ≤ s.srcLimit) :
    srcRead a n s = .error ⟨s.shortError, s⟩ := if_neg h

/-- What a read can do. -/
theorem srcRead_cases (a n : Nat) (s : State) :
    (a + n ≤ s.srcLimit ∧ srcRead a n s = .ok (slice s.src a n)) ∨
    (¬a + n ≤ s.srcLimit ∧ srcRead a n s = .error ⟨s.shortError, s⟩) := by
  by_cases h : a + n ≤ s.srcLimit
  · exact .inl ⟨h, srcRead_of_le h⟩
  · exact .inr ⟨h, srcRead_of_not_le h⟩

/-- A short read is a failing device or the end of the source. -/
theorem State.shortError_cases (s : State) : s.shortError = .ioError ∨ s.shortError = .unexpectedEndOfInput := by
  unfold shortError; split <;> simp

/-! ## Writes (rule R40) -/

/-- What a write can do. -/
theorem snkWrite_cases (bytes : List Byte) (s : State) :
    snkWrite bytes s = .ok (s.append bytes) ∨ snkWrite bytes s = .error ⟨.ioError, s⟩ := by
  unfold snkWrite; split <;> simp

theorem State.NoIoFailure.snkWrite {s : State} (h : s.NoIoFailure) (bytes : List Byte) :
    snkWrite bytes s = .ok (s.append bytes) := by
  unfold Machine.snkWrite; rw [h.sinkFull]; rfl

/-! ## Errors (rule R172) -/

@[simp] theorem settle_ok (s : State) : settle (.ok s) = s := rfl

@[simp] theorem settle_error (a : Abort) : settle (.error a) = raise a.error a.state := rfl

theorem ErrorCode.code_ne (e : ErrorCode) : e.code ≠ 7 ∧ e.code ≠ 0 := by cases e <;> decide

theorem ErrorCode.code_injective {e e' : ErrorCode} (h : e.code = e'.code) : e = e' := by
  cases e <;> cases e' <;> first | rfl | (revert h; decide)

/-- After an error the sink still begins with what it held before the operation (rule R174). -/
theorem raise_snk_take (e : ErrorCode) {s : State} (h : s.snkStart ≤ s.snk.length) :
    (raise e s).snk.take s.snkStart = s.snk.take s.snkStart ∧ s.snkStart ≤ (raise e s).snk.length := by
  rw [raise_snk]
  unfold sinkAfterError
  split
  · have hl : (s.snk.take s.snkStart).length = s.snkStart := by simp; omega
    exact ⟨by rw [List.take_append_of_le_length (by omega), List.take_take, Nat.min_self], by simp; omega⟩
  · exact ⟨rfl, h⟩

theorem whenReady_ready {s : State} (h : s.tblValid = true) (f : State → State) : whenReady s f = f s := if_pos h

theorem whenReady_notReady {s : State} (h : s.tblValid = false) (f : State → State) :
    whenReady s f = raise .notReady s := by unfold whenReady; rw [h]; rfl

/-- `NotReady` writes `ERR` and nothing else the host can see but its result (rule R171). -/
theorem raise_notReady (s : State) : raise .notReady s =
    { s with err := 6, engine := .idle, result := .error .notReady } := rfl

end Sys2Proof.Machine
end

