-- ==== Sys2Proof/Laws/Decoder.lean ====
section
/-!
SUPPORT. What a part of `decode` can do: the relation `DecoderKeeps` says once what none of them changes, each part is
shown to keep it, and every round of `decode` makes progress, so that `decode` ends (rule R198).
-/

namespace Sys2Proof.Machine

/-- The ranges of the ECC working registers (rule R15). -/
def EccRegs.InRange (r : EccRegs) : Prop := r.maj ≤ 86 ∧ r.min ≤ 43 ∧ r.idx < 2236 ∧ r.addrSave.length = 4

/-- What every part of `decode` leaves from a state to a later one: tables, statistics, the source, the encoder's and
the classifier's registers and the host's side; the canonical frame; and the sink as it was before the operation. -/
structure DecoderKeeps (s t : State) : Prop where
  tblValid : t.tblValid = s.tblValid
  tables   : t.tables = s.tables
  stats    : t.stats = s.stats
  src      : t.src = s.src
  la       : t.la = s.la
  laPos    : t.laPos = s.laPos
  cls      : t.cls = s.cls
  enc      : t.enc = s.enc
  host     : t.host = s.host
  srcFail  : t.srcFail = s.srcFail
  snkCap   : t.snkCap = s.snkCap
  snkStart : t.snkStart = s.snkStart
  errCode  : s.err ≠ 7 → t.err ≠ 7
  frameWf  : s.frame.wf → t.frame.wf
  ecc      : s.ecc.InRange → t.ecc.InRange
  sink     : s.snkStart ≤ s.snk.length →
    s.snkStart ≤ t.snk.length ∧ t.snk.take s.snkStart = s.snk.take s.snkStart

theorem DecoderKeeps.refl (s : State) : DecoderKeeps s s :=
  ⟨rfl, rfl, rfl, rfl, rfl, rfl, rfl, rfl, rfl, rfl, rfl, rfl, id, id, id, fun h => ⟨h, rfl⟩⟩

theorem DecoderKeeps.trans {s t u : State} (h : DecoderKeeps s t) (k : DecoderKeeps t u) : DecoderKeeps s u where
  tblValid := k.tblValid.trans h.tblValid
  tables := k.tables.trans h.tables
  stats := k.stats.trans h.stats
  src := k.src.trans h.src
  la := k.la.trans h.la
  laPos := k.laPos.trans h.laPos
  cls := k.cls.trans h.cls
  enc := k.enc.trans h.enc
  host := k.host.trans h.host
  srcFail := k.srcFail.trans h.srcFail
  snkCap := k.snkCap.trans h.snkCap
  snkStart := k.snkStart.trans h.snkStart
  errCode := fun x => k.errCode (h.errCode x)
  frameWf := fun x => k.frameWf (h.frameWf x)
  ecc := fun x => k.ecc (h.ecc x)
  sink := fun x => by
    obtain ⟨a, b⟩ := h.sink x
    obtain ⟨c, d⟩ := k.sink (by rw [h.snkStart]; exact a)
    rw [h.snkStart] at c d
    exact ⟨c, d.trans b⟩

theorem DecoderKeeps.raise (e : ErrorCode) (s : State) : DecoderKeeps s (raise e s) :=
  ⟨rfl, rfl, rfl, rfl, rfl, rfl, rfl, rfl, rfl, rfl, rfl, rfl, fun _ => e.code_ne.1, id, id, fun h => by
    obtain ⟨a, b⟩ := raise_snk_take e h; exact ⟨b, a⟩⟩

theorem DecoderKeeps.advanceRead (s : State) (n : Nat) : DecoderKeeps s (s.advanceRead n) :=
  ⟨rfl, rfl, rfl, rfl, rfl, rfl, rfl, rfl, rfl, rfl, rfl, rfl, id, id, id, fun h => ⟨h, rfl⟩⟩

theorem DecoderKeeps.withLeft (s : State) (n : Nat) : DecoderKeeps s (s.withLeft n) :=
  ⟨rfl, rfl, rfl, rfl, rfl, rfl, rfl, rfl, rfl, rfl, rfl, rfl, id, id, id, fun h => ⟨h, rfl⟩⟩

theorem DecoderKeeps.append (s : State) (bytes : List Byte) : DecoderKeeps s (s.append bytes) :=
  ⟨rfl, rfl, rfl, rfl, rfl, rfl, rfl, rfl, rfl, rfl, rfl, rfl, id, id, id, fun h =>
    ⟨by simp; omega, by simp [List.take_append_of_le_length h]⟩⟩

theorem DecoderKeeps.runEnd (s : State) : DecoderKeeps s (runEnd s) :=
  ⟨rfl, rfl, rfl, rfl, rfl, rfl, rfl, rfl, rfl, rfl, rfl, rfl, id, id, id, fun h => ⟨h, rfl⟩⟩

theorem DecoderKeeps.succeed (s : State) : DecoderKeeps s s.succeed :=
  ⟨rfl, rfl, rfl, rfl, rfl, rfl, rfl, rfl, rfl, rfl, rfl, rfl, fun _ => by simp, id, id, fun h => ⟨h, rfl⟩⟩

/-- The state at which a part of `decode` ends, in either way. -/
def endOf : Except Abort State → State
  | .ok s => s
  | .error a => a.state

/-- A part keeps what it must whether or not it raised. -/
theorem DecoderKeeps.settle {s : State} {x : Except Abort State} (h : DecoderKeeps s (endOf x)) :
    DecoderKeeps s (settle x) := by
  cases x with
  | ok t => exact h
  | error a => exact h.trans (DecoderKeeps.raise a.error a.state)

theorem DecoderKeeps.snkWrite {s t : State} (h : DecoderKeeps s t) (bytes : List Byte) :
    DecoderKeeps s (endOf (snkWrite bytes t)) := by
  rcases snkWrite_cases bytes t with e | e <;> rw [e]
  · exact h.trans (.append t bytes)
  · exact h

/-! ## The frame builders -/

theorem fillMode1_wf (t : Tables) {pay : List Byte} {m : Memory} (hm : m.wf) : (fillMode1 t pay m).wf := by
  unfold fillMode1
  refine Memory.writeBytes_wf (Memory.writeBytes_wf (Memory.writeBytes_wf (Memory.write_wf (Memory.writeBytes_wf
    (Memory.writeBytes_wf hm (by decide)) ?_) (by decide) _) ?_) ?_) (by decide)
  · rw [length_slice]; simp only [frameSize]; omega
  · rw [length_slice]; simp only [frameSize]; omega
  · rw [length_le32]; decide

theorem fillMode2Form1_wf (t : Tables) {pay : List Byte} {m : Memory} (hm : m.wf) (hp : pay.length ≤ 2052) :
    (fillMode2Form1 t pay m).wf := by
  unfold fillMode2Form1
  refine Memory.writeBytes_wf (Memory.writeBytes_wf (Memory.writeBytes_wf hm ?_) ?_) ?_
  · simp only [frameSize]; omega
  · simp [frameSize]
  · rw [length_le32]; decide

theorem fillMode2Form2_wf (t : Tables) {pay : List Byte} {m : Memory} (hm : m.wf) (hp : pay.length ≤ 2328) :
    (fillMode2Form2 t pay m).wf := by
  unfold fillMode2Form2
  refine Memory.writeBytes_wf (Memory.writeBytes_wf (Memory.writeBytes_wf hm ?_) ?_) ?_
  · simp only [frameSize]; omega
  · simp [frameSize]
  · rw [length_le32]; decide

/-- What a sector builder keeps: the canonical frame and the ranges of the working registers. -/
def BuilderKeeps (size : Nat) (build : Tables → List Byte → EccRegs → Memory → EccOut) : Prop :=
  ∀ t pay r m, pay.length ≤ size →
    (m.wf → (build t pay r m).frame.wf) ∧ (r.InRange → (build t pay r m).regs.InRange)

theorem eccRange_generateParityFrame (t : Tables) (z : Bool) (mode : EccMode) {r : EccRegs} (m : Memory)
    (h : r.InRange) : (generateParityFrame t z mode r m).regs.InRange := by
  obtain ⟨a, b, c, d, -⟩ := generateParityFrame_regs t z mode m h.2.1 h.2.2.1 h.2.2.2
  exact ⟨a, b, c, d⟩

theorem buildMode1_keeps : BuilderKeeps 2051 buildMode1 := fun t _ r _ _ =>
  ⟨fun hm => (generateParityFrame_write t false r (fillMode1_wf t hm)).2.1,
    fun hr => eccRange_generateParityFrame t false .write _ hr⟩

theorem buildMode2Form1_keeps : BuilderKeeps 2052 buildMode2Form1 := fun t _ r _ hp =>
  ⟨fun hm => (generateParityFrame_write t true r (fillMode2Form1_wf t hm hp)).2.1,
    fun hr => eccRange_generateParityFrame t true .write _ hr⟩

theorem buildMode2Form2_keeps : BuilderKeeps 2328 buildMode2Form2 := fun t _ _ _ hp =>
  ⟨fun hm => fillMode2Form2_wf t hm hp, fun hr => hr⟩

/-! ## One sector, and a record -/

/-- What one sector of a record can do: it is rebuilt from its payload and emitted, the payload is short, or the sink
fails (rules R150 to R152, R157, R167, R170). -/
theorem rebuildSector_cases (type : SectorType) (base : Nat)
    (build : Tables → List Byte → EccRegs → Memory → EccOut) (s : State) :
    (¬s.dec.rpos + payloadSize type ≤ s.srcLimit ∧
      rebuildSector type base build s = .error ⟨s.shortError, s⟩) ∨
    ∃ out sector, s.dec.rpos + payloadSize type ≤ s.srcLimit ∧
      out = build s.tables (slice s.src s.dec.rpos (payloadSize type)) s.ecc s.frame ∧
      sector = out.frame.readBytes base (blockSize type) ∧
      rebuildSector type base build s = snkWrite sector
        { s.advanceRead (payloadSize type) with
          ecc := out.regs, frame := out.frame, ck := s.tables.fold s.ck sector } := by
  unfold rebuildSector
  rcases srcRead_cases s.dec.rpos (payloadSize type) s with ⟨h, e⟩ | ⟨h, e⟩
  · rw [e]; exact .inr ⟨_, _, h, rfl, rfl, rfl⟩
  · rw [e]; exact .inl ⟨h, rfl⟩

theorem DecoderKeeps.rebuildSector (type : SectorType) (base : Nat)
    {build : Tables → List Byte → EccRegs → Memory → EccOut} (hb : BuilderKeeps (payloadSize type) build) (s : State) :
    DecoderKeeps s (endOf (rebuildSector type base build s)) := by
  rcases rebuildSector_cases type base build s with ⟨-, e⟩ | ⟨out, sector, h, ho, -, e⟩
  · rw [e]; exact .refl s
  · rw [e]
    refine .snkWrite ?_ sector
    obtain ⟨k1, k2⟩ := hb s.tables (slice s.src s.dec.rpos (payloadSize type)) s.ecc s.frame
      (by rw [length_slice]; omega)
    rw [← ho] at k1 k2
    exact ⟨rfl, rfl, rfl, rfl, rfl, rfl, rfl, rfl, rfl, rfl, rfl, rfl, id, k1, k2, fun h => ⟨h, rfl⟩⟩

theorem DecoderKeeps.sectorLoop {one : State → Except Abort State} (h1 : ∀ s, DecoderKeeps s (endOf (one s))) :
    ∀ (count : Nat) (s : State), DecoderKeeps s (endOf (sectorLoop one count s)) := by
  intro count
  induction count with
  | zero => intro s; exact .refl s
  | succ count ih =>
    intro s
    unfold Machine.sectorLoop
    have h := h1 s
    cases e : one s with
    | error a => rw [e] at h; exact h
    | ok t =>
      rw [e] at h
      exact (h.trans (.withLeft t count)).trans (ih (t.withLeft count))

theorem DecoderKeeps.runLit (count : Nat) (s : State) : DecoderKeeps s (runLit count s) := by
  unfold Machine.runLit
  refine DecoderKeeps.settle ?_
  rcases srcRead_cases s.dec.rpos count (s.withLeft count) with ⟨-, e⟩ | ⟨-, e⟩ <;> rw [e]
  · refine DecoderKeeps.snkWrite ?_ _
    exact ⟨rfl, rfl, rfl, rfl, rfl, rfl, rfl, rfl, rfl, rfl, rfl, rfl, id, id, id, fun h => ⟨h, rfl⟩⟩
  · exact .withLeft s count

theorem DecoderKeeps.runM1 (count : Nat) (s : State) : DecoderKeeps s (runM1 count s) :=
  .settle ((DecoderKeeps.withLeft s count).trans
    (.sectorLoop (fun s => .rebuildSector .mode1 0x000 buildMode1_keeps s) count _))

theorem DecoderKeeps.runM2F1 (count : Nat) (s : State) : DecoderKeeps s (runM2F1 count s) :=
  .settle ((DecoderKeeps.withLeft s count).trans
    (.sectorLoop (fun s => .rebuildSector .mode2form1 0x010 buildMode2Form1_keeps s) count _))

theorem DecoderKeeps.runM2F2 (count : Nat) (s : State) : DecoderKeeps s (runM2F2 count s) :=
  .settle ((DecoderKeeps.withLeft s count).trans
    (.sectorLoop (fun s => .rebuildSector .mode2form2 0x010 buildMode2Form2_keeps s) count _))

theorem DecoderKeeps.runRecord (type : SectorType) (count : Nat) (s : State) :
    DecoderKeeps s (runRecord type count s) := by
  cases type
  · exact .runLit count s
  · exact .runM1 count s
  · exact .runM2F1 count s
  · exact .runM2F2 count s

/-! ## Rounds -/

/-- What reading a header can do (rules R58, R146): `RPOS` moves past the bytes read and `REC_TYPE`, `REC_NUM` are
written, or there is an error at that position. -/
theorem fetchHeader_cases (s : State) :
    (∃ f, (parseHeader s.readable).value = .ok f ∧ fetchHeader s =
      .ok (f, { s.advanceRead (parseHeader s.readable).used with
        dec := { (s.advanceRead (parseHeader s.readable).used).dec with
          recType := f.1, recNum := BitVec.ofNat 32 f.2 } })) ∨
    (∃ e, (parseHeader s.readable).value = .error e ∧ fetchHeader s =
      .error ⟨errorOfDecode e (s.advanceRead (parseHeader s.readable).used),
        s.advanceRead (parseHeader s.readable).used⟩) := by
  unfold fetchHeader
  simp only
  split
  · exact .inl ⟨_, ‹_›, rfl⟩
  · exact .inr ⟨_, ‹_›, rfl⟩

/-- What one round of `decode` can do. -/
theorem recordRound_cases (s : State) :
    (∃ e t, DecoderKeeps s t ∧ recordRound s = raise e t) ∨
    ∃ f t, fetchHeader s = .ok (f, t) ∧ DecoderKeeps s t ∧
      ((f.2 = 0xFFFFFFFF ∧ recordRound s = runEnd t) ∨
       (f.2 + 1 < 0x80000000 ∧ recordRound s = runRecord f.1 (f.2 + 1) t)) := by
  unfold recordRound
  rcases fetchHeader_cases s with ⟨f, -, e⟩ | ⟨x, -, e⟩
  · have hk : DecoderKeeps s { s.advanceRead (parseHeader s.readable).used with
        dec := { (s.advanceRead (parseHeader s.readable).used).dec with
          recType := f.1, recNum := BitVec.ofNat 32 f.2 } } :=
      ⟨rfl, rfl, rfl, rfl, rfl, rfl, rfl, rfl, rfl, rfl, rfl, rfl, id, id, id, fun h => ⟨h, rfl⟩⟩
    rw [e]
    by_cases h1 : f.2 = 0xFFFFFFFF
    · exact .inr ⟨f, _, rfl, hk, .inl ⟨h1, if_pos h1⟩⟩
    · by_cases h2 : 0x80000000 ≤ f.2 + 1
      · exact .inl ⟨_, _, hk, by simp only; rw [if_neg h1, if_pos h2]⟩
      · exact .inr ⟨f, _, rfl, hk, .inr ⟨by omega, by simp only; rw [if_neg h1, if_neg h2]⟩⟩
  · rw [e]; exact .inl ⟨_, _, .advanceRead s _, rfl⟩

theorem DecoderKeeps.recordRound (s : State) : DecoderKeeps s (recordRound s) := by
  rcases recordRound_cases s with ⟨e, t, h, k⟩ | ⟨f, t, -, h, ⟨-, k⟩ | ⟨-, k⟩⟩ <;> rw [k]
  · exact h.trans (.raise e t)
  · exact h.trans (.runEnd t)
  · exact h.trans (.runRecord _ _ t)

theorem DecoderKeeps.runTrailer (s : State) : DecoderKeeps s (runTrailer s) := by
  unfold Machine.runTrailer
  refine .settle ?_
  rcases srcRead_cases s.dec.rpos 4 s with ⟨-, e⟩ | ⟨-, e⟩ <;> rw [e]
  · show DecoderKeeps s (endOf (if _ then _ else _))
    split
    · exact (DecoderKeeps.advanceRead s 4).trans (.succeed _)
    · exact .advanceRead s 4
  · exact .refl s

theorem DecoderKeeps.decodeLoop : ∀ (rounds : Nat) (s : State), DecoderKeeps s (decodeLoop rounds s) := by
  intro rounds
  induction rounds with
  | zero => intro s; exact .refl s
  | succ rounds ih =>
    intro s
    unfold Machine.decodeLoop
    split
    · exact .refl s
    · exact (DecoderKeeps.recordRound s).trans (ih _)
    · exact (DecoderKeeps.runTrailer s).trans (ih _)

/-! ## Progress (rule R198) -/

theorem parseContinuation_used (type : SectorType) : ∀ (l : List Byte) (bits num used : Nat),
    used ≤ (parseContinuation type bits num used l).used ∧
    (parseContinuation type bits num used l).used ≤ used + l.length := by
  intro l
  induction l with
  | nil => intro bits num used; simp [parseContinuation]
  | cons c l ih =>
    intro bits num used
    unfold parseContinuation
    simp only [List.length_cons]
    split
    · simp
    · split
      · have := ih (bits + 7) (num ||| (c.toNat &&& 0x7F) <<< bits) (used + 1); omega
      · simp

/-- A header that is read uses at least one byte and none that is not there. -/
theorem parseHeader_used {l : List Byte} : (parseHeader l).used ≤ l.length ∧
    ((∃ f, (parseHeader l).value = .ok f) → 1 ≤ (parseHeader l).used) := by
  cases l with
  | nil => exact ⟨Nat.le_refl _, fun ⟨f, h⟩ => by simp [parseHeader] at h⟩
  | cons c l =>
    unfold parseHeader
    simp only
    split
    · have := parseContinuation_used (sectorTypeOfBits (c.toNat &&& 3)) l 5 ((c.toNat >>> 2) &&& 0x1F) 1
      exact ⟨by rw [List.length_cons]; omega, fun _ => by omega⟩
    · exact ⟨by simp, fun _ => Nat.le_refl _⟩

/-- A part that ends well moves `RPOS` forward within what can be read and leaves the engine. -/
def Moves (s : State) (x : Except Abort State) : Prop :=
  ∀ t, x = .ok t → t.engine = s.engine ∧ s.dec.rpos ≤ t.dec.rpos ∧ t.srcLimit = s.srcLimit ∧
    (s.dec.rpos ≤ s.srcLimit → t.dec.rpos ≤ s.srcLimit)

theorem moves_rebuildSector (type : SectorType) (base : Nat)
    (build : Tables → List Byte → EccRegs → Memory → EccOut) (s : State) :
    Moves s (rebuildSector type base build s) := by
  intro t ht
  rcases rebuildSector_cases type base build s with ⟨-, e⟩ | ⟨out, sector, h, -, -, e⟩
  · rw [e] at ht; simp at ht
  · rw [e] at ht
    rcases snkWrite_cases sector { s.advanceRead (payloadSize type) with
          ecc := out.regs, frame := out.frame, ck := s.tables.fold s.ck sector } with e' | e' <;> rw [e'] at ht
    · cases ht
      exact ⟨rfl, by simp, rfl, fun _ => by simpa using h⟩
    · simp at ht

theorem moves_sectorLoop {one : State → Except Abort State} (h1 : ∀ s, Moves s (one s)) :
    ∀ (count : Nat) (s : State), Moves s (sectorLoop one count s) := by
  intro count
  induction count with
  | zero => intro s t ht; cases ht; exact ⟨rfl, Nat.le_refl _, rfl, id⟩
  | succ count ih =>
    intro s t ht
    unfold sectorLoop at ht
    cases e : one s with
    | error a => rw [e] at ht; simp [Except.bind] at ht
    | ok u =>
      rw [e] at ht
      obtain ⟨a1, a2, a3, a4⟩ := h1 s u e
      obtain ⟨b1, b2, b3, b4⟩ := ih (u.withLeft count) t ht
      refine ⟨b1.trans a1, Nat.le_trans a2 b2, b3.trans a3, fun h => ?_⟩
      have := b4 (by rw [show (u.withLeft count).srcLimit = u.srcLimit from rfl, a3]; exact a4 h)
      rwa [show (u.withLeft count).srcLimit = u.srcLimit from rfl, a3] at this

/-- A record ends the operation, or leaves the engine inside `decode` at a later record boundary. -/
theorem runRecord_progress (type : SectorType) (count : Nat) (s : State) :
    (runRecord type count s).engine = .idle ∨
    ((runRecord type count s).engine = s.engine ∧ s.dec.rpos ≤ (runRecord type count s).dec.rpos ∧
      (runRecord type count s).srcLimit = s.srcLimit ∧
      (s.dec.rpos ≤ s.srcLimit → (runRecord type count s).dec.rpos ≤ s.srcLimit)) := by
  have key : ∀ {x : Except Abort State}, Moves (s.withLeft count) x → (settle x).engine = .idle ∨
      ((settle x).engine = s.engine ∧ s.dec.rpos ≤ (settle x).dec.rpos ∧
        (settle x).srcLimit = s.srcLimit ∧ (s.dec.rpos ≤ s.srcLimit → (settle x).dec.rpos ≤ s.srcLimit)) := by
    intro x hx
    cases x with
    | error a => exact .inl rfl
    | ok t => exact .inr (hx t rfl)
  cases type with
  | literal =>
    refine key fun t ht => ?_
    rcases srcRead_cases s.dec.rpos count (s.withLeft count) with ⟨h, e⟩ | ⟨-, e⟩ <;> rw [e] at ht
    · simp only [Except.bind] at ht
      rcases snkWrite_cases (slice (s.withLeft count).src s.dec.rpos count)
          { (s.withLeft 0).advanceRead count with
            ck := s.tables.fold s.ck (slice (s.withLeft count).src s.dec.rpos count) } with e' | e' <;> rw [e'] at ht
      · cases ht
        exact ⟨rfl, by simp, rfl, fun _ => by simpa using h⟩
      · simp at ht
    · simp [Except.bind] at ht
  | mode1 => exact key (moves_sectorLoop (moves_rebuildSector _ _ _) count _)
  | mode2form1 => exact key (moves_sectorLoop (moves_rebuildSector _ _ _) count _)
  | mode2form2 => exact key (moves_sectorLoop (moves_rebuildSector _ _ _) count _)

/-- The bytes that can be read after `RPOS`. -/
theorem State.length_readable (s : State) : s.readable.length = s.srcLimit - s.dec.rpos := by
  unfold readable
  rw [List.length_drop, List.length_take, Nat.min_eq_left s.srcLimit_le]

/-- A round at a record boundary ends the operation, reaches the trailer, or leaves a later record boundary. -/
theorem recordRound_progress (s : State) (he : s.engine = .records) :
    (recordRound s).engine = .idle ∨ (recordRound s).engine = .trailer ∧ s.dec.rpos < s.srcLimit ∨
    ((recordRound s).engine = .records ∧ s.dec.rpos < (recordRound s).dec.rpos ∧
      (recordRound s).dec.rpos ≤ s.srcLimit ∧ (recordRound s).srcLimit = s.srcLimit) := by
  rcases recordRound_cases s with ⟨e, t, -, k⟩ | ⟨f, t, hf, -, hk⟩
  · exact .inl (by rw [k]; rfl)
  · rcases fetchHeader_cases s with ⟨f', hv, e⟩ | ⟨x, -, e⟩
    · obtain ⟨u1, u2⟩ := parseHeader_used (l := s.readable)
      have u2 := u2 ⟨f', hv⟩
      rw [s.length_readable] at u1
      rw [hf] at e
      cases e
      have t1 : (s.advanceRead (parseHeader s.readable).used).dec.rpos = s.dec.rpos + (parseHeader s.readable).used :=
        rfl
      rcases hk with ⟨-, k⟩ | ⟨-, k⟩
      · exact .inr (.inl ⟨by rw [k]; rfl, by omega⟩)
      · rw [k]
        rcases runRecord_progress f.1 (f.2 + 1) { s.advanceRead (parseHeader s.readable).used with
            dec := { (s.advanceRead (parseHeader s.readable).used).dec with
              recType := f.1, recNum := BitVec.ofNat 32 f.2 } } with h | ⟨h1, h2, h3, h4⟩
        · exact .inl h
        · refine .inr (.inr ⟨h1.trans he, ?_, h4 ?_, h3⟩)
          · have : s.dec.rpos + (parseHeader s.readable).used ≤ _ := h2
            omega
          · show s.dec.rpos + (parseHeader s.readable).used ≤ s.srcLimit
            omega
    · rw [hf] at e; cases e

theorem runTrailer_engine (s : State) : (runTrailer s).engine = .idle := by
  unfold runTrailer
  rcases srcRead_cases s.dec.rpos 4 s with ⟨-, e⟩ | ⟨-, e⟩ <;> rw [e]
  · show (settle (if _ then _ else _)).engine = .idle
    split <;> rfl
  · rfl

theorem decodeLoop_idle (rounds : Nat) {s : State} (h : s.engine = .idle) : decodeLoop rounds s = s := by
  cases rounds with
  | zero => rfl
  | succ n => unfold decodeLoop; rw [h]

/-- With one round for every byte that can still be read and two to spare, `decode` ends. -/
theorem decodeLoop_ends : ∀ (rounds : Nat) (s : State),
    (s.engine = .records → s.srcLimit - s.dec.rpos + 1 ≤ rounds) → (s.engine = .trailer → 1 ≤ rounds) →
    (decodeLoop rounds s).engine = .idle := by
  intro rounds
  induction rounds with
  | zero =>
    intro s h1 h2
    cases e : s.engine with
    | idle => exact e
    | records => have := h1 e; omega
    | trailer => have := h2 e; omega
  | succ rounds ih =>
    intro s h1 h2
    unfold decodeLoop
    split
    · assumption
    · rename_i e
      have hr := h1 e
      rcases recordRound_progress s e with h | ⟨h, hl⟩ | ⟨h, k1, k2, k3⟩
      · rw [decodeLoop_idle _ h]; exact h
      · refine ih _ (fun h' => ?_) (fun _ => by omega)
        rw [h] at h'; exact absurd h' (by simp)
      · refine ih _ (fun _ => by rw [k3]; omega) (fun h' => ?_)
        rw [h] at h'; exact absurd h' (by simp)
    · exact (congrArg State.engine (decodeLoop_idle _ (runTrailer_engine s))).trans (runTrailer_engine s)

/-- What the start of `decode` can do (rules R144, R145): it raises, or the engine is at the first record. -/
theorem decodeStart_cases (s : State) :
    (∃ e t, decodeStart s = raise e t ∧ t = { s with
      dec := { s.dec with rpos := 0 }, ck := 0, snkStart := s.snk.length }) ∨
    (decodeStart s = { s with
      dec := { s.dec with rpos := 4 }, ck := 0, snkStart := s.snk.length, engine := .records } ∧
      s.src.take 4 = magic ∧ 4 ≤ s.srcLimit) := by
  unfold decodeStart
  simp only
  split
  · exact .inl ⟨_, _, rfl, rfl⟩
  · rename_i h1
    split
    · rename_i h2
      refine .inr ⟨rfl, h2, ?_⟩
      have h3 : (s.src.take 4).length = 4 := by rw [h2]; rfl
      rw [List.length_take] at h3
      have h4 : ¬s.srcLimit < min 4 s.src.length := h1
      omega
    · exact .inl ⟨_, _, rfl, rfl⟩

/-- `decode` always ends with the engine idle (rules R197, R198). -/
theorem decodeRun_engine (s : State) : (decodeRun s).engine = .idle := by
  unfold decodeRun
  rcases decodeStart_cases s with ⟨e, t, h, -⟩ | ⟨h, -, -⟩ <;> rw [h]
  · rw [decodeLoop_idle _ rfl]; rfl
  · refine decodeLoop_ends _ _ (fun _ => ?_) (fun h' => absurd h' (by simp))
    have h1 := s.srcLimit_le
    show s.srcLimit - 4 + 1 ≤ _
    omega

end Sys2Proof.Machine
end

