-- ==== Sys2Proof/Laws/Encoder.lean ====
section
/-!
SUPPORT. What the parts of `encode` can do: the relation `EncoderKeeps` says once what none of them changes; a flush in
closed form; and the loop as the function of rule R135.
-/

namespace Sys2Proof.Machine

/-! ## Frames -/

/-- What every part of `encode` before its end leaves: everything but `CK`, the lookahead buffer, the classifier's and
the ECC Engine's working registers, the run registers, `STAT_*`, and a sink that has only grown. -/
structure EncoderKeeps (s t : State) : Prop where
  tblValid : t.tblValid = s.tblValid
  err      : t.err = s.err
  tables   : t.tables = s.tables
  frame    : t.frame = s.frame
  src      : t.src = s.src
  dec      : t.dec = s.dec
  engine   : t.engine = s.engine
  snkStart : t.snkStart = s.snkStart
  result   : t.result = s.result
  host     : t.host = s.host
  srcFail  : t.srcFail = s.srcFail
  snkCap   : t.snkCap = s.snkCap
  draws    : t.draws = s.draws
  sink     : s.snk <+: t.snk

theorem EncoderKeeps.refl (s : State) : EncoderKeeps s s :=
  ⟨rfl, rfl, rfl, rfl, rfl, rfl, rfl, rfl, rfl, rfl, rfl, rfl, rfl, List.prefix_refl _⟩

theorem EncoderKeeps.trans {s t u : State} (h : EncoderKeeps s t) (k : EncoderKeeps t u) : EncoderKeeps s u where
  tblValid := k.tblValid.trans h.tblValid
  err := k.err.trans h.err
  tables := k.tables.trans h.tables
  frame := k.frame.trans h.frame
  src := k.src.trans h.src
  dec := k.dec.trans h.dec
  engine := k.engine.trans h.engine
  snkStart := k.snkStart.trans h.snkStart
  result := k.result.trans h.result
  host := k.host.trans h.host
  srcFail := k.srcFail.trans h.srcFail
  snkCap := k.snkCap.trans h.snkCap
  draws := k.draws.trans h.draws
  sink := h.sink.trans k.sink

/-! ## A flush in closed form (rule R133) -/

/-- The raw blocks of a run of `count` blocks that starts at source offset `p`. -/
def blocksAt (x : List Byte) (type : SectorType) : (count p : Nat) → List (List Byte)
  | 0, _ => []
  | count + 1, p => slice x p (blockSize type) :: blocksAt x type count (p + blockSize type)

@[simp] theorem length_blocksAt (x : List Byte) (type : SectorType) : ∀ count p : Nat,
    (blocksAt x type count p).length = count := by
  intro count
  induction count with
  | zero => intro p; rfl
  | succ n ih => intro p; simp [blocksAt, ih]

theorem blocksAt_succ (x : List Byte) (type : SectorType) : ∀ count p : Nat,
    blocksAt x type (count + 1) p =
      blocksAt x type count p ++ [slice x (p + count * blockSize type) (blockSize type)] := by
  intro count
  induction count with
  | zero => intro p; simp [blocksAt]
  | succ n ih =>
    intro p
    rw [blocksAt, ih (p + blockSize type)]
    conv_rhs => rw [blocksAt]
    rw [List.cons_append, show p + blockSize type + n * blockSize type = p + (n + 1) * blockSize type by
      rw [Nat.succ_mul]; omega]

/-- The blocks of a run are the source bytes it covers. -/
theorem flatten_blocksAt (x : List Byte) (type : SectorType) : ∀ count p : Nat,
    (blocksAt x type count p).flatten = slice x p (count * blockSize type) := by
  intro count
  induction count with
  | zero => intro p; simp [blocksAt, slice]
  | succ n ih =>
    intro p
    rw [blocksAt, List.flatten_cons, ih, slice_append_slice, Nat.succ_mul, Nat.add_comm (blockSize type)]

theorem flushBlocks_eq (type : SectorType) : ∀ (count p : Nat) (s : State), flushBlocks type count p s =
    { s with
      ck := s.tables.fold s.ck (blocksAt s.src type count p).flatten
      snk := s.snk ++ ((blocksAt s.src type count p).map (payload type)).flatten } := by
  intro count
  induction count with
  | zero => intro p s; simp [flushBlocks, blocksAt]
  | succ n ih =>
    intro p s
    rw [flushBlocks, ih]
    simp [flushBlock, blocksAt, Tables.fold_append]

/-- The raw blocks of the open run. -/
def State.held (s : State) : List (List Byte) :=
  blocksAt s.src s.enc.runType s.enc.runCount.toNat s.enc.runStart

theorem flush_eq (s : State) : flush s =
    { s with
      ck := s.tables.fold s.ck s.held.flatten
      snk := s.snk ++ Spec.runBytes (s.enc.runType, s.held)
      stats := s.stats.addCount s.enc.runType s.held.length } := by
  unfold flush
  simp only [flushBlocks_eq]
  simp [State.held, Spec.runBytes, List.append_assoc]

theorem EncoderKeeps.flush (s : State) : EncoderKeeps s (flush s) := by
  rw [flush_eq]
  exact ⟨rfl, rfl, rfl, rfl, rfl, rfl, rfl, rfl, rfl, rfl, rfl, rfl, rfl, List.prefix_append _ _⟩

theorem EncoderKeeps.flushOpenRun (s : State) : EncoderKeeps s (flushOpenRun s) := by
  unfold Machine.flushOpenRun; split
  · exact .flush s
  · exact .refl s

theorem EncoderKeeps.bookkeep (type : SectorType) (s : State) : EncoderKeeps s (bookkeep type s) := by
  unfold Machine.bookkeep; split
  · exact (EncoderKeeps.flushOpenRun s).trans
      ⟨rfl, rfl, rfl, rfl, rfl, rfl, rfl, rfl, rfl, rfl, rfl, rfl, rfl, List.prefix_refl _⟩
  · exact ⟨rfl, rfl, rfl, rfl, rfl, rfl, rfl, rfl, rfl, rfl, rfl, rfl, rfl, List.prefix_refl _⟩

theorem EncoderKeeps.encodeBlock (s : State) : EncoderKeeps s (encodeBlock s) := by
  unfold Machine.encodeBlock
  refine EncoderKeeps.trans (t := (refill s).afterClassify (classifyAtCursor (refill s))) ?_ ?_
  · exact ⟨rfl, rfl, rfl, rfl, rfl, rfl, rfl, rfl, rfl, rfl, rfl, rfl, rfl, List.prefix_refl _⟩
  · exact (EncoderKeeps.bookkeep _ _).trans
      ⟨rfl, rfl, rfl, rfl, rfl, rfl, rfl, rfl, rfl, rfl, rfl, rfl, rfl, List.prefix_refl _⟩

theorem EncoderKeeps.encodeLoop : ∀ (rounds : Nat) (s : State), EncoderKeeps s (encodeLoop rounds s) := by
  intro rounds
  induction rounds with
  | zero => intro s; exact .refl s
  | succ n ih =>
    intro s
    unfold Machine.encodeLoop; split
    · exact (EncoderKeeps.encodeBlock s).trans (ih _)
    · exact .refl s

theorem EncoderKeeps.encodeEnd (s : State) : EncoderKeeps s (encodeEnd s) := by
  unfold Machine.encodeEnd
  refine (EncoderKeeps.flushOpenRun s).trans ?_
  exact ⟨rfl, rfl, rfl, rfl, rfl, rfl, rfl, rfl, rfl, rfl, rfl, rfl, rfl, List.prefix_append _ _⟩

/-- What `encode` leaves before it is known whether a read or a write failed. -/
theorem EncoderKeeps.encodeAll (s : State) : EncoderKeeps { s with snkStart := s.snk.length } (encodeAll s) := by
  unfold Machine.encodeAll
  refine EncoderKeeps.trans (t := encodeStart s) ?_ ((EncoderKeeps.encodeLoop _ _).trans (.encodeEnd _))
  exact ⟨rfl, rfl, rfl, rfl, rfl, rfl, rfl, rfl, rfl, rfl, rfl, rfl, rfl, List.prefix_append _ _⟩

/-! ## The lookahead window (rules R35, R127) -/

/-- The lookahead buffer holds the source bytes from the cursor on, and the next refill goes on after them. -/
structure State.AtCursor (s : State) : Prop where
  window : s.la = slice s.src s.enc.cur s.la.length
  next   : s.laPos = s.enc.cur + s.la.length
  short  : s.la.length ≤ 2352
  inside : s.enc.cur ≤ s.src.length

/-- A refill makes one whole window, or all that is left (rule R127). -/
theorem State.AtCursor.refill {s : State} (h : s.AtCursor) : refill s =
    { s with la := slice s.src s.enc.cur 2352, laPos := s.enc.cur + (slice s.src s.enc.cur 2352).length } := by
  have key : s.la ++ slice s.src s.laPos (windowMax - s.la.length) = slice s.src s.enc.cur 2352 := by
    have h1 := slice_append_slice s.src s.enc.cur s.la.length (windowMax - s.la.length)
    rw [← h.window, ← h.next] at h1
    rw [h1]
    have := h.short
    simp only [windowMax]
    congr 1; omega
  unfold Machine.refill
  simp only [key]
  rw [h.next, Nat.add_assoc, ← List.length_append, ← h.next, key]

/-- The bytes left in the source. -/
def State.rest (s : State) : List Byte := s.src.drop s.enc.cur

theorem classifyAtCursor_type {s : State} (h : s.AtCursor) :
    (classifyAtCursor (refill s)).type = Spec.typeAt s.tables s.rest := by
  rw [h.refill]
  unfold classifyAtCursor Spec.typeAt
  have hl : (slice s.src s.enc.cur 2352).length = min s.rest.length 2352 := by
    simp [slice, State.rest, Nat.min_comm]
  have hd : decide (2352 ≤ (slice s.src s.enc.cur 2352).length) = decide (2352 ≤ s.rest.length) := by
    rw [hl]; exact decide_eq_decide.2 (by omega)
  simp only [hd]
  simp only [hl]
  exact classifyWindow_type_congr _ _ _ _ _ _ _ _

theorem blockSize_typeAt_le (t : Tables) {x : List Byte} (h : x ≠ []) : blockSize (Spec.typeAt t x) ≤ x.length := by
  have h1 : 1 ≤ x.length := List.length_pos_iff.2 h
  exact Nat.le_trans (blockSize_le_of_classify (n := min x.length 2352) (by omega)) (Nat.min_le_left _ _)

theorem blockSize_pos (type : SectorType) : 1 ≤ blockSize type := by cases type <;> decide

theorem blockSize_le (type : SectorType) : blockSize type ≤ 2352 := by cases type <;> decide

/-- One round in terms of the block it takes (rules R129 to R132). -/
theorem encodeBlock_eq {s : State} (h : s.AtCursor) : ∃ cls ecc la laPos, encodeBlock s =
    { bookkeep (Spec.typeAt s.tables s.rest) s with
      cls := cls, ecc := ecc, la := la, laPos := laPos
      enc := { (bookkeep (Spec.typeAt s.tables s.rest) s).enc with
        cur := s.enc.cur + blockSize (Spec.typeAt s.tables s.rest) } } ∧
    la = slice s.src (s.enc.cur + blockSize (Spec.typeAt s.tables s.rest))
      (2352 - blockSize (Spec.typeAt s.tables s.rest)) ∧
    laPos = s.enc.cur + (slice s.src s.enc.cur 2352).length := by
  have ht := classifyAtCursor_type h
  refine ⟨(classifyAtCursor (refill s)).cls, (classifyAtCursor (refill s)).ecc, _, _, ?_, rfl, rfl⟩
  unfold encodeBlock
  simp only [ht]
  generalize Spec.typeAt s.tables s.rest = type
  have hd : (slice s.src s.enc.cur 2352).drop (blockSize type) =
      slice s.src (s.enc.cur + blockSize type) (2352 - blockSize type) := by
    unfold slice; rw [List.drop_take, List.drop_drop]
  rw [← hd, h.refill]
  unfold bookkeep flushOpenRun
  simp only [State.afterClassify, flush_eq, advance, State.held]
  by_cases h1 : startsRun s.enc type = true
  · by_cases h2 : s.enc.runOpen = true <;> simp [h1, h2]
  · simp [h1]

/-- A round keeps the window at the cursor. -/
theorem State.AtCursor.encodeBlock {s : State} (h : s.AtCursor) (hc : s.enc.cur < s.src.length) :
    (encodeBlock s).AtCursor := by
  have hk := EncoderKeeps.encodeBlock s
  obtain ⟨cls, ecc, la, laPos, e, e1, e2⟩ := encodeBlock_eq h
  have hne : s.rest ≠ [] := by
    intro hr
    have := congrArg List.length hr
    simp [State.rest] at this; omega
  have hb := blockSize_typeAt_le s.tables hne
  have hp := blockSize_pos (Spec.typeAt s.tables s.rest)
  have hm := blockSize_le (Spec.typeAt s.tables s.rest)
  have hl : s.rest.length = s.src.length - s.enc.cur := by simp [State.rest]
  rw [hl] at hb
  have hs : (Machine.encodeBlock s).src = s.src := hk.src
  have hcur : (Machine.encodeBlock s).enc.cur = s.enc.cur + blockSize (Spec.typeAt s.tables s.rest) := by rw [e]
  have hla : (Machine.encodeBlock s).la = la := by rw [e]
  have hlp : (Machine.encodeBlock s).laPos = laPos := by rw [e]
  generalize blockSize (Spec.typeAt s.tables s.rest) = b at *
  have len : la.length = min (2352 - b) (s.src.length - (s.enc.cur + b)) := by rw [e1, length_slice]
  refine ⟨?_, ?_, ?_, ?_⟩
  · rw [hla, hs, hcur, len, e1]
    unfold slice
    rw [List.take_eq_take_iff]
    simp
  · rw [hlp, hcur, hla, len, e2, length_slice]; omega
  · rw [hla, len]; omega
  · rw [hcur, hs]; omega

/-! ## The loop as a function (rules R130, R135, R136) -/

/-- The open run covers the source bytes from `RUN_START` to the cursor (rule R133). -/
structure State.RunOpen (s : State) : Prop where
  isOpen : s.enc.runOpen = true
  covers : s.enc.cur = s.enc.runStart + s.enc.runCount.toNat * blockSize s.enc.runType
  count  : s.enc.runCount.toNat ≤ 0x7FFFFFFF

/-- A block that joins the open run (rule R130). -/
theorem bookkeep_joins {s : State} (h : s.RunOpen) {type : SectorType} (h1 : type = s.enc.runType)
    (h2 : s.held.length ≠ 0x7FFFFFFF) : bookkeep type s = { s with enc := { s.enc with runCount := s.enc.runCount + 1 } } := by
  unfold bookkeep
  rw [if_neg]
  simp only [startsRun, h.isOpen, Bool.not_true, Bool.false_or, Bool.or_eq_true, decide_eq_true_eq, not_or]
  refine ⟨fun hn => hn h1, fun hn => h2 ?_⟩
  rw [State.held, length_blocksAt, hn]; rfl

/-- A block that opens a new run behind an open one. -/
theorem bookkeep_opens {s : State} (h : s.RunOpen) {type : SectorType}
    (h1 : ¬(type = s.enc.runType ∧ s.held.length ≠ 0x7FFFFFFF)) : bookkeep type s =
      { flush s with enc := { s.enc with runOpen := true, runType := type, runStart := s.enc.cur, runCount := 1 } } := by
  unfold bookkeep
  rw [if_pos]
  · unfold flushOpenRun; rw [if_pos h.isOpen]; rw [flush_eq]
  · simp only [startsRun, h.isOpen, Bool.not_true, Bool.false_or, Bool.or_eq_true, decide_eq_true_eq]
    by_cases ht : type = s.enc.runType
    · right
      have h3 : s.held.length = 0x7FFFFFFF := by
        by_cases h3 : s.held.length = 0x7FFFFFFF
        · exact h3
        · exact absurd ⟨ht, h3⟩ h1
      rw [State.held, length_blocksAt] at h3
      exact BitVec.eq_of_toNat_eq h3
    · exact .inl ht

/-- The first block of a source opens the first run. -/
theorem bookkeep_first {s : State} (h : s.enc.runOpen = false) (type : SectorType) : bookkeep type s =
    { s with enc := { s.enc with runOpen := true, runType := type, runStart := s.enc.cur, runCount := 1 } } := by
  unfold bookkeep
  rw [if_pos (by simp [startsRun, h])]
  unfold flushOpenRun
  rw [if_neg (by simp [h])]

theorem Spec.blocks_cons {t : Tables} {x : List Byte} (h : x ≠ []) (rounds : Nat) :
    Spec.blocks t (rounds + 1) x = (Spec.typeAt t x, x.take (blockSize (Spec.typeAt t x))) ::
      Spec.blocks t rounds (x.drop (blockSize (Spec.typeAt t x))) := by
  cases x with
  | nil => exact absurd rfl h
  | cons b x => rfl

theorem Spec.blocks_nil (t : Tables) (rounds : Nat) : Spec.blocks t rounds [] = [] := by cases rounds <;> rfl

theorem one_le_limit : (1 : Word).toNat ≤ 0x7FFFFFFF := by decide

theorem BitVec_succ_toNat {c : Word} (h : c.toNat < 0x7FFFFFFF) : (c + 1).toNat = c.toNat + 1 := by
  rw [BitVec.toNat_add]; simp; omega

/-- What the loop followed by the flush of the open run does, from an open run on: the runs of rule R135, all source
bytes folded (rule R141), every block counted (rule R137). -/
theorem encodeLoop_open : ∀ (rounds : Nat) (s : State), s.AtCursor → s.RunOpen →
    (flushOpenRun (encodeLoop rounds s)).snk = s.snk ++
      ((Spec.runsFrom s.enc.runType s.held (Spec.blocks s.tables rounds s.rest)).map Spec.runBytes).flatten ∧
    (flushOpenRun (encodeLoop rounds s)).ck = s.tables.fold s.ck
      (s.held.flatten ++ ((Spec.blocks s.tables rounds s.rest).map Prod.snd).flatten) ∧
    ∀ type, (flushOpenRun (encodeLoop rounds s)).stats.count type = s.stats.count type +
      (if type = s.enc.runType then s.held.length else 0) +
      ((Spec.blocks s.tables rounds s.rest).map Prod.fst).count type := by
  have stop : ∀ s : State, s.RunOpen →
      (flushOpenRun s).snk = s.snk ++ ((Spec.runsFrom s.enc.runType s.held []).map Spec.runBytes).flatten ∧
      (flushOpenRun s).ck = s.tables.fold s.ck (s.held.flatten ++ (([] : List (SectorType × List Byte)).map Prod.snd).flatten) ∧
      ∀ type, (flushOpenRun s).stats.count type = s.stats.count type +
        (if type = s.enc.runType then s.held.length else 0) +
        (([] : List (SectorType × List Byte)).map Prod.fst).count type := by
    intro s h
    unfold flushOpenRun
    rw [if_pos h.isOpen, flush_eq]
    refine ⟨by simp [Spec.runsFrom], by simp, fun type => ?_⟩
    generalize s.held.length = n
    cases type <;> cases s.enc.runType <;> simp [Stats.addCount, Stats.count]
  intro rounds
  induction rounds with
  | zero => intro s _ h; exact stop s h
  | succ n ih =>
    intro s ha ho
    by_cases hc : s.enc.cur < s.src.length
    · have hne : s.rest ≠ [] := by
        intro hr
        have := congrArg List.length hr
        simp [State.rest] at this; omega
      have ha' := ha.encodeBlock hc
      have hk := EncoderKeeps.encodeBlock s
      obtain ⟨cls, ecc, la, laPos, e, -, -⟩ := encodeBlock_eq ha
      rw [show encodeLoop (n + 1) s = encodeLoop n (encodeBlock s) by rw [encodeLoop, if_pos hc]]
      rw [Spec.blocks_cons hne]
      have hrest : (encodeBlock s).rest = s.rest.drop (blockSize (Spec.typeAt s.tables s.rest)) := by
        unfold State.rest; rw [hk.src, e, List.drop_drop]; rfl
      have hblk : s.rest.take (blockSize (Spec.typeAt s.tables s.rest)) =
          slice s.src s.enc.cur (blockSize (Spec.typeAt s.tables s.rest)) := rfl
      rw [← hrest, hblk, ← hk.tables]
      generalize hty : Spec.typeAt (encodeBlock s).tables s.rest = ty
      rw [hk.tables] at hty
      rw [hty] at e
      by_cases hj : ty = s.enc.runType ∧ s.held.length ≠ 0x7FFFFFFF
      · rw [bookkeep_joins ho hj.1 hj.2] at e
        have hlt : s.enc.runCount.toNat < 0x7FFFFFFF := by
          have := ho.count
          have h2 := hj.2
          rw [State.held, length_blocksAt] at h2
          omega
        have hcnt : (encodeBlock s).enc.runCount.toNat = s.enc.runCount.toNat + 1 := by
          rw [e]; exact BitVec_succ_toNat hlt
        have ho' : (encodeBlock s).RunOpen := by
          refine ⟨by rw [e]; exact ho.isOpen, ?_, by rw [hcnt]; omega⟩
          rw [hcnt, e]
          show s.enc.cur + blockSize ty = s.enc.runStart + (s.enc.runCount.toNat + 1) * blockSize s.enc.runType
          rw [ho.covers, hj.1, Nat.succ_mul]; omega
        have hheld : (encodeBlock s).held = s.held ++ [slice s.src s.enc.cur (blockSize ty)] := by
          unfold State.held
          rw [hcnt, hk.src, e]
          show blocksAt s.src s.enc.runType (s.enc.runCount.toNat + 1) s.enc.runStart = _
          rw [blocksAt_succ, ← ho.covers, hj.1]
        obtain ⟨i1, i2, i3⟩ := ih _ ha' ho'
        rw [i1, i2]
        have e1 : (encodeBlock s).enc.runType = s.enc.runType := by rw [e]
        have e2 : (encodeBlock s).snk = s.snk := by rw [e]
        have e3 : (encodeBlock s).ck = s.ck := by rw [e]
        have e4 : (encodeBlock s).stats = s.stats := by rw [e]
        refine ⟨?_, ?_, fun type => ?_⟩
        · rw [e1, e2, hheld, Spec.runsFrom, if_pos hj]
        · rw [e3, hheld, hk.tables]; simp
        · rw [i3, e1, e4, hheld, hj.1]
          simp only [List.length_append, List.length_singleton, List.map_cons, List.count_cons]
          by_cases hx : type = s.enc.runType
          · subst hx; simp; omega
          · have hx' : ¬(s.enc.runType = type) := fun h => hx h.symm
            simp [hx, hx']
      · rw [bookkeep_opens ho hj] at e
        have ho' : (encodeBlock s).RunOpen := by
          refine ⟨by rw [e], ?_, by rw [e]; exact one_le_limit⟩
          rw [e]; simp
        have hheld : (encodeBlock s).held = [slice s.src s.enc.cur (blockSize ty)] := by
          unfold State.held
          rw [hk.src, e]
          rfl
        obtain ⟨i1, i2, i3⟩ := ih _ ha' ho'
        rw [i1, i2]
        have e1 : (encodeBlock s).enc.runType = ty := by rw [e]
        have e2 : (encodeBlock s).snk = s.snk ++ Spec.runBytes (s.enc.runType, s.held) := by rw [e, flush_eq]
        have e3 : (encodeBlock s).ck = s.tables.fold s.ck s.held.flatten := by rw [e, flush_eq]
        have e4 : (encodeBlock s).stats = s.stats.addCount s.enc.runType s.held.length := by rw [e, flush_eq]
        refine ⟨?_, ?_, fun type => ?_⟩
        · rw [e1, e2, hheld, Spec.runsFrom, if_neg hj]; simp
        · rw [e3, hheld, hk.tables, ← Tables.fold_append]; simp
        · rw [i3, e1, e4, hheld]
          simp only [List.length_singleton, List.map_cons, List.count_cons]
          have : (s.stats.addCount s.enc.runType s.held.length).count type =
              s.stats.count type + (if type = s.enc.runType then s.held.length else 0) := by
            generalize s.held.length = k
            cases type <;> cases s.enc.runType <;> simp [Stats.addCount, Stats.count]
          rw [this]
          by_cases hx : type = ty
          · subst hx; simp; omega
          · have hx' : ¬(ty = type) := fun h => hx h.symm
            simp [hx, hx']
    · have hr : s.rest = [] := by
        unfold State.rest; rw [List.drop_eq_nil_iff]; omega
      rw [hr, Spec.blocks_nil, show encodeLoop (n + 1) s = s by rw [encodeLoop, if_neg hc]]
      exact stop s ho

/-- The same from the start of a source, where no run is open. -/
theorem encodeLoop_closed (rounds : Nat) {s : State} (ha : s.AtCursor) (ho : s.enc.runOpen = false) :
    (flushOpenRun (encodeLoop rounds s)).snk = s.snk ++
      ((Spec.runs (Spec.blocks s.tables rounds s.rest)).map Spec.runBytes).flatten ∧
    (flushOpenRun (encodeLoop rounds s)).ck = s.tables.fold s.ck
      ((Spec.blocks s.tables rounds s.rest).map Prod.snd).flatten ∧
    ∀ type, (flushOpenRun (encodeLoop rounds s)).stats.count type = s.stats.count type +
      ((Spec.blocks s.tables rounds s.rest).map Prod.fst).count type := by
  have stop : (flushOpenRun s) = s := by unfold flushOpenRun; rw [if_neg (by simp [ho])]
  cases rounds with
  | zero => rw [encodeLoop, stop]; exact ⟨by simp [Spec.blocks, Spec.runs], by simp [Spec.blocks], fun _ => by simp [Spec.blocks]⟩
  | succ n =>
    by_cases hc : s.enc.cur < s.src.length
    · have hne : s.rest ≠ [] := by
        intro hr
        have := congrArg List.length hr
        simp [State.rest] at this; omega
      have ha' := ha.encodeBlock hc
      have hk := EncoderKeeps.encodeBlock s
      obtain ⟨cls, ecc, la, laPos, e, -, -⟩ := encodeBlock_eq ha
      rw [show encodeLoop (n + 1) s = encodeLoop n (encodeBlock s) by rw [encodeLoop, if_pos hc]]
      rw [Spec.blocks_cons hne]
      have hrest : (encodeBlock s).rest = s.rest.drop (blockSize (Spec.typeAt s.tables s.rest)) := by
        unfold State.rest; rw [hk.src, e, List.drop_drop]; rfl
      have hblk : s.rest.take (blockSize (Spec.typeAt s.tables s.rest)) =
          slice s.src s.enc.cur (blockSize (Spec.typeAt s.tables s.rest)) := rfl
      rw [← hrest, hblk, ← hk.tables]
      generalize hty : Spec.typeAt (encodeBlock s).tables s.rest = ty
      rw [hk.tables] at hty
      rw [hty, bookkeep_first ho] at e
      have ho' : (encodeBlock s).RunOpen := by
        refine ⟨by rw [e], ?_, by rw [e]; exact one_le_limit⟩
        rw [e]; simp
      have hheld : (encodeBlock s).held = [slice s.src s.enc.cur (blockSize ty)] := by
        unfold State.held
        rw [hk.src, e]
        rfl
      obtain ⟨i1, i2, i3⟩ := encodeLoop_open n _ ha' ho'
      rw [i1, i2]
      have e1 : (encodeBlock s).enc.runType = ty := by rw [e]
      have e2 : (encodeBlock s).snk = s.snk := by rw [e]
      have e3 : (encodeBlock s).ck = s.ck := by rw [e]
      have e4 : (encodeBlock s).stats = s.stats := by rw [e]
      refine ⟨?_, ?_, fun type => ?_⟩
      · rw [e1, e2, hheld, Spec.runs]
      · rw [e3, hheld, hk.tables]; simp
      · rw [i3, e1, e4, hheld]
        simp only [List.length_singleton, List.map_cons, List.count_cons]
        by_cases hx : type = ty
        · subst hx; simp; omega
        · have hx' : ¬(ty = type) := fun h => hx h.symm
          simp [hx, hx']
    · have hr : s.rest = [] := by
        unfold State.rest; rw [List.drop_eq_nil_iff]; omega
      rw [hr, Spec.blocks_nil, show encodeLoop (n + 1) s = s by rw [encodeLoop, if_neg hc], stop]
      exact ⟨by simp [Spec.runs], by simp, fun _ => by simp⟩

/-- The blocks of a source are the source (rule R141). -/
theorem Spec.flatten_blocks (t : Tables) : ∀ (rounds : Nat) (x : List Byte), x.length ≤ rounds →
    ((Spec.blocks t rounds x).map Prod.snd).flatten = x := by
  intro rounds
  induction rounds with
  | zero => intro x h; rw [List.length_eq_zero_iff.1 (Nat.le_zero.1 h)]; rfl
  | succ n ih =>
    intro x h
    by_cases hx : x = []
    · rw [hx]; rfl
    · have hp := blockSize_pos (Spec.typeAt t x)
      rw [Spec.blocks_cons hx, List.map_cons, List.flatten_cons, ih _ (by rw [List.length_drop]; omega),
        List.take_append_drop]

theorem State.AtCursor.encodeStart (s : State) : (encodeStart s).AtCursor :=
  ⟨rfl, rfl, by simp [Machine.encodeStart], Nat.zero_le _⟩

theorem headerBytes_sentinel : headerBytes .literal 0 = [0xFC, 0xFF, 0xFF, 0xFF, 0x3F] := by decide

/-- The whole of `encode` (rules R134, R135, R137, R141). -/
theorem encodeAll_eq (s : State) :
    (encodeAll s).snk = s.snk ++ Spec.stream s.tables s.src ∧
    (∀ type, (encodeAll s).stats.count type =
      ((Spec.blocks s.tables (s.src.length + 1) s.src).map Prod.fst).count type) ∧
    (encodeAll s).stats.bytesIn = s.src.length ∧
    (encodeAll s).stats.bytesOut = (Spec.stream s.tables s.src).length ∧
    (encodeAll s).ck = s.tables.fold 0 s.src := by
  obtain ⟨h1, h2, h3⟩ := encodeLoop_closed (s.src.length + 1) (State.AtCursor.encodeStart s) rfl
  have hr : (encodeStart s).rest = s.src := rfl
  have ht : (encodeStart s).tables = s.tables := rfl
  rw [hr, ht] at h1 h2 h3
  rw [Spec.flatten_blocks _ _ _ (by omega)] at h2
  have hk := (EncoderKeeps.encodeLoop (s.src.length + 1) (encodeStart s)).trans (.flushOpenRun _)
  have hs : (encodeAll s).snk = s.snk ++ Spec.stream s.tables s.src := by
    unfold encodeAll encodeEnd
    simp only [State.append_snk, h1, h2, headerBytes_sentinel]
    simp [encodeStart, Spec.stream, magic]
  refine ⟨hs, fun type => ?_, ?_, ?_, h2⟩
  · unfold encodeAll encodeEnd
    have := h3 type
    rw [show (encodeStart s).stats.count type = 0 by cases type <;> rfl, Nat.zero_add] at this
    rw [← this]
    cases type <;> rfl
  · exact congrArg List.length hk.src
  · have : (encodeAll s).stats.bytesOut = (encodeAll s).snk.length - s.snk.length := by
      unfold encodeAll encodeEnd
      simp only [State.append_snkStart, hk.snkStart]
      rfl
    rw [this, hs]; simp

/-! ## The ranges of the working registers -/

/-- What the rules bound: `RUN_COUNT` (rule R136), the lookahead buffer (rule R33), the ECC Engine's registers. -/
structure State.EncoderRanges (s : State) : Prop where
  runCount : s.enc.runCount.toNat ≤ 0x7FFFFFFF
  la       : s.la.length ≤ 2352
  maj      : s.ecc.maj ≤ 86
  min      : s.ecc.min ≤ 43
  idx      : s.ecc.idx < 2236
  addrSave : s.ecc.addrSave.length = 4

theorem bookkeep_runCount (type : SectorType) {s : State} (h : s.enc.runCount.toNat ≤ 0x7FFFFFFF) :
    (bookkeep type s).enc.runCount.toNat ≤ 0x7FFFFFFF := by
  unfold bookkeep
  split
  · exact one_le_limit
  · rename_i hs
    have : s.enc.runCount ≠ 0x7FFFFFFF#32 := by
      intro h'; apply hs; simp [startsRun, h']
    have h3 : s.enc.runCount.toNat ≠ 0x7FFFFFFF := fun h' => this (BitVec.eq_of_toNat_eq h')
    show (s.enc.runCount + 1).toNat ≤ _
    rw [BitVec_succ_toNat (by omega)]; omega

theorem State.EncoderRanges.encodeBlock {s : State} (h : s.EncoderRanges) : (encodeBlock s).EncoderRanges := by
  have hr : (refill s).la.length ≤ 2352 := by
    simp only [refill_la, List.length_append, length_slice, windowMax]
    have := h.la
    omega
  generalize ho : classifyAtCursor (refill s) = out
  have he : out.ecc.maj ≤ 86 ∧ out.ecc.min ≤ 43 ∧ out.ecc.idx < 2236 ∧ out.ecc.addrSave.length = 4 := by
    rw [← ho]
    exact classifyWindow_ecc _ _ _ _ _ h.maj h.min h.idx h.addrSave
  have hb : ∀ (u : State) (type : SectorType), (bookkeep type u).ecc = u.ecc ∧ (bookkeep type u).la = u.la := by
    intro u type
    unfold bookkeep flushOpenRun
    simp only [flush_eq]
    split <;> [split; skip] <;> exact ⟨rfl, rfl⟩
  obtain ⟨b1, b2⟩ := hb ((refill s).afterClassify out) out.type
  have b3 : (advance out.type (bookkeep out.type ((refill s).afterClassify out))).ecc = out.ecc := b1
  have b4 : (advance out.type (bookkeep out.type ((refill s).afterClassify out))).la =
      (refill s).la.drop (blockSize out.type) := congrArg (List.drop _) b2
  have e : Machine.encodeBlock s = advance out.type (bookkeep out.type ((refill s).afterClassify out)) := by
    rw [← ho]; rfl
  rw [e]
  refine ⟨bookkeep_runCount out.type (s := (refill s).afterClassify out) h.runCount, ?_, ?_, ?_, ?_, ?_⟩
  · rw [b4, List.length_drop]; omega
  · rw [b3]; exact he.1
  · rw [b3]; exact he.2.1
  · rw [b3]; exact he.2.2.1
  · rw [b3]; exact he.2.2.2

theorem State.EncoderRanges.encodeLoop : ∀ (rounds : Nat) {s : State}, s.EncoderRanges →
    (encodeLoop rounds s).EncoderRanges := by
  intro rounds
  induction rounds with
  | zero => intro s h; exact h
  | succ n ih =>
    intro s h
    unfold Machine.encodeLoop; split
    · exact ih h.encodeBlock
    · exact h

theorem State.EncoderRanges.encodeAll {s : State} (h : s.EncoderRanges) : (encodeAll s).EncoderRanges := by
  have hs : (encodeStart s).EncoderRanges :=
    ⟨h.runCount, by simp [Machine.encodeStart], h.maj, h.min, h.idx, h.addrSave⟩
  have := hs.encodeLoop (s.src.length + 1)
  unfold Machine.encodeAll
  generalize Machine.encodeLoop (s.src.length + 1) (encodeStart s) = u at *
  unfold encodeEnd flushOpenRun
  simp only [flush_eq]
  split <;> exact ⟨this.runCount, this.la, this.maj, this.min, this.idx, this.addrSave⟩

end Sys2Proof.Machine
end

