-- ==== Sys2Proof/Laws/Sectors.lean ====
section
/-!
SUPPORT. The sector a record rebuilds: it has the fields the rules give it, and those fields determine it.
-/

namespace Sys2Proof.Machine

/-! ## Ranges of a frame -/

/-- A range that does not meet the one written reads as before. -/
theorem Memory.readBytes_writeBytes_apart (m : Memory) {a b n : Nat} {bs : List Byte}
    (h : a + n ≤ b ∨ b + bs.length ≤ a) : (m.writeBytes b bs).readBytes a n = m.readBytes a n :=
  readBytes_congr fun i hi => read_writeBytes_outside (by omega)

theorem Memory.readBytes_write_apart (m : Memory) {a b n : Nat} {v : Byte} (h : a + n ≤ b ∨ b + 1 ≤ a) :
    (m.write b v).readBytes a n = m.readBytes a n :=
  readBytes_congr fun i hi => read_write_ne _ _ (by omega)

theorem Memory.readBytes_write_self {m : Memory} (hm : m.wf) (a : Nat) (v : Byte) :
    (m.write a v).readBytes a 1 = [v] := by
  simp [readBytes, read_write_self hm]

/-- A slice of a range is a range. -/
theorem slice_readBytes (m : Memory) {base n a k : Nat} (h : a + k ≤ n) :
    slice (m.readBytes base n) a k = m.readBytes (base + a) k := by
  refine bytes_ext (by rw [length_slice, Memory.length_readBytes, Memory.length_readBytes]; omega) fun i hi => ?_
  rw [length_slice, Memory.length_readBytes] at hi
  rw [getD_slice, Memory.getD_readBytes, Memory.getD_readBytes, if_pos (by omega), if_pos (by omega),
    if_pos (by omega), Nat.add_assoc]

theorem Memory.readBytes_writeBytes_eq {m : Memory} (hm : m.wf) {a n : Nat} {bs : List Byte} (hn : bs.length = n)
    (h : a + n ≤ frameSize) : (m.writeBytes a bs).readBytes a n = bs := by
  subst hn; exact readBytes_writeBytes_same hm h

/-! ## Parity is determined by the data region -/

/-- Two frames in which both layers hold and whose data regions agree agree on both parity fields. -/
theorem Spec.parity_unique {t : Tables} {m n : Memory} (hm : ∀ l, Spec.ParityHolds t m l)
    (hn : ∀ l, Spec.ParityHolds t n l) (h : ∀ a, 0x00C ≤ a → a < 0x81C → m.read a = n.read a) :
    ∀ a, 0x00C ≤ a → a < 0x930 → m.read a = n.read a := by
  have layer : ∀ l : Layer, (∀ a, 0x00C ≤ a → a < Spec.field l → m.read a = n.read a) →
      ∀ a, 0x00C ≤ a → a < Spec.field l + 2 * Spec.majors l → m.read a = n.read a := by
    intro l hl a h1 h2
    rcases Nat.lt_or_ge a (Spec.field l) with h3 | h3
    · exact hl a h1 h3
    · rcases Nat.lt_or_ge a (Spec.field l + Spec.majors l) with h4 | h4
      · have k1 := (hm l (a - Spec.field l) (by omega)).1
        have k2 := (hn l (a - Spec.field l) (by omega)).1
        rw [show Spec.field l + (a - Spec.field l) = a by omega] at k1 k2
        rw [k1, k2, Spec.p0_congr hl]
      · have k1 := (hm l (a - Spec.field l - Spec.majors l) (by omega)).2
        have k2 := (hn l (a - Spec.field l - Spec.majors l) (by omega)).2
        rw [show Spec.field l + (a - Spec.field l - Spec.majors l) + Spec.majors l = a by omega] at k1 k2
        rw [k1, k2, Spec.p1_congr hl]
  have hp := layer .p h
  exact layer .q hp

/-- The parity of a frame from `base` on, as the parity of the bytes read from it. -/
theorem Spec.parityOfBytes_readBytes {t : Tables} {m : Memory} {base len : Nat} {z : Bool} (hm : m.wf)
    (hb : base = 0 ∧ z = false ∨ base = 0x010 ∧ z = true) (hl : base + len = 0x930)
    (h : ∀ l, Spec.ParityHolds t (Spec.seen z m) l) : Spec.ParityOfBytes t base (m.readBytes base len) := by
  intro l
  have hr : ∀ a, 0x00C ≤ a → a < 0x930 → (Spec.seen z m).read a = (Memory.ofBytes base (m.readBytes base len)).read a := by
    intro a h1 h2
    rw [read_seen z hm, Memory.read_ofBytes]
    by_cases h3 : base ≤ a
    · have hz : ¬(z = true ∧ 0x00C ≤ a ∧ a < 0x010) := by
        rintro ⟨k1, k2, k3⟩
        rcases hb with ⟨_, k4⟩ | ⟨k4, _⟩
        · rw [k1] at k4; cases k4
        · omega
      have hlen : a - base < len := by omega
      rw [if_neg hz, if_pos h3, Memory.getD_readBytes, if_pos hlen, show base + (a - base) = a by omega]
    · have hz : z = true ∧ 0x00C ≤ a ∧ a < 0x010 := by
        rcases hb with ⟨k4, _⟩ | ⟨k4, k5⟩
        · omega
        · exact ⟨k5, h1, by omega⟩
      rw [if_pos hz, if_neg h3]
  have hf : Spec.field l + 2 * Spec.majors l ≤ 0x930 := by cases l <;> decide
  have hf' : 0x00C ≤ Spec.field l := by cases l <;> decide
  exact (h l).congr (fun a h1 h2 => hr a h1 (by omega)) (fun a ha => hr a (by have := ha.1; omega) (by have := ha.2; omega))

/-! ## Sectors are built right -/

theorem buildMode1_sector (t : Tables) {pay : List Byte} (r : EccRegs) {m : Memory} (hm : m.wf)
    (hp : pay.length = 2051) :
    Spec.IsMode1Sector t pay ((buildMode1 t pay r m).frame.readBytes 0x000 2352) := by
  have l1 : (slice pay 0 3).length = 3 := by rw [length_slice]; omega
  have l2 : (slice pay 3 2048).length = 2048 := by rw [length_slice]; omega
  unfold buildMode1 fillMode1
  simp only
  have w1 : (m.writeBytes 0x000 syncPattern).wf := Memory.writeBytes_wf hm (by decide)
  have w2 := Memory.writeBytes_wf (a := 0x00C) (bs := slice pay 0 3) w1 (by rw [l1]; decide)
  have w3 := Memory.write_wf (a := 0x00F) w2 (by decide) 0x01
  have w4 := Memory.writeBytes_wf (a := 0x010) (bs := slice pay 3 2048) w3 (by rw [l2]; decide)
  generalize e1 : m.writeBytes 0x000 syncPattern = m1 at *
  generalize e2 : m1.writeBytes 0x00C (slice pay 0 3) = m2 at *
  generalize e3 : m2.write 0x00F 0x01 = m3 at *
  generalize e4 : m3.writeBytes 0x010 (slice pay 3 2048) = m4 at *
  generalize hc : le32 (t.fold 0 (m4.readBytes 0x000 0x810)) = ck
  have lc : ck.length = 4 := by rw [← hc]; rfl
  have w5 := Memory.writeBytes_wf (a := 0x810) (bs := ck) w4 (by rw [lc]; decide)
  generalize e5 : m4.writeBytes 0x810 ck = m5 at *
  have w6 := Memory.writeBytes_wf (a := 0x814) (bs := List.replicate 8 0x00) w5 (by decide)
  generalize e6 : m5.writeBytes 0x814 (List.replicate 8 0x00) = m6 at *
  obtain ⟨-, g2, g3, g4⟩ := generateParityFrame_write t false r w6
  generalize (generateParityFrame t false .write r m6).frame = n at *
  have low : ∀ a k, a + k ≤ 0x81C → n.readBytes a k = m6.readBytes a k := fun a k h =>
    Memory.readBytes_congr fun i hi => g4 _ (by omega)
  have sl : ∀ a k, a + k ≤ 0x81C → slice (n.readBytes 0x000 2352) a k = m6.readBytes a k := fun a k h => by
    rw [slice_readBytes n (by omega), Nat.zero_add, low a k h]
  have to4 : ∀ a k, a + k ≤ 0x810 → m6.readBytes a k = m4.readBytes a k := fun a k h => by
    rw [← e6, Memory.readBytes_writeBytes_apart _ (.inl (by omega)), ← e5,
      Memory.readBytes_writeBytes_apart _ (.inl (by omega))]
  have to3 : ∀ a k, a + k ≤ 0x010 → m6.readBytes a k = m3.readBytes a k := fun a k h => by
    rw [to4 a k (by omega), ← e4, Memory.readBytes_writeBytes_apart _ (.inl (by omega))]
  have to2 : ∀ a k, a + k ≤ 0x00F → m6.readBytes a k = m2.readBytes a k := fun a k h => by
    rw [to3 a k (by omega), ← e3, Memory.readBytes_write_apart _ (.inl (by omega))]
  have to1 : ∀ a k, a + k ≤ 0x00C → m6.readBytes a k = m1.readBytes a k := fun a k h => by
    rw [to2 a k (by omega), ← e2, Memory.readBytes_writeBytes_apart _ (.inl (by omega))]
  refine ⟨by simp, ?_, ?_, ?_, ?_, ?_, ?_, ?_⟩
  · rw [sl _ _ (by omega), to1 _ _ (by omega), ← e1, Memory.readBytes_writeBytes_eq hm (by rfl) (by decide)]; rfl
  · rw [sl _ _ (by omega), to2 _ _ (by omega), ← e2, Memory.readBytes_writeBytes_eq w1 l1 (by decide)]
  · rw [sl _ _ (by omega), to3 _ _ (by omega), ← e3, Memory.readBytes_write_self w2]
  · rw [sl _ _ (by omega), to4 _ _ (by omega), ← e4, Memory.readBytes_writeBytes_eq w3 l2 (by decide)]
  · unfold Spec.ChecksumAt
    rw [sl _ _ (by omega), sl _ _ (by omega), to4 0x000 0x810 (by omega), hc, ← e6,
      Memory.readBytes_writeBytes_apart _ (.inl (by omega)), ← e5, Memory.readBytes_writeBytes_eq w4 lc (by decide)]
  · rw [sl _ _ (by omega), ← e6, Memory.readBytes_writeBytes_eq w5 (by rfl) (by decide)]; rfl
  · exact Spec.parityOfBytes_readBytes (z := false) g2 (.inl ⟨rfl, rfl⟩) rfl g3

theorem buildMode2Form1_sector (t : Tables) {pay : List Byte} (r : EccRegs) {m : Memory} (hm : m.wf)
    (hp : pay.length = 2052) :
    Spec.IsMode2Form1Sector t pay ((buildMode2Form1 t pay r m).frame.readBytes 0x010 2336) ∧
    ∀ a < 0x010, (buildMode2Form1 t pay r m).frame.read a = m.read a := by
  unfold buildMode2Form1 fillMode2Form1
  simp only
  have w1 := Memory.writeBytes_wf (a := 0x014) (bs := pay) hm (by rw [hp]; decide)
  generalize e1 : m.writeBytes 0x014 pay = m1 at *
  have w2 := Memory.writeBytes_wf (a := 0x010) (bs := m1.readBytes 0x014 4) w1 (by simp [frameSize])
  generalize e2 : m1.writeBytes 0x010 (m1.readBytes 0x014 4) = m2 at *
  generalize hc : le32 (t.fold 0 (m2.readBytes 0x010 0x808)) = ck
  have lc : ck.length = 4 := by rw [← hc]; rfl
  have w3 := Memory.writeBytes_wf (a := 0x818) (bs := ck) w2 (by rw [lc]; decide)
  generalize e3 : m2.writeBytes 0x818 ck = m3 at *
  obtain ⟨-, g2, g3, g4⟩ := generateParityFrame_write t true r w3
  generalize (generateParityFrame t true .write r m3).frame = n at *
  have sl : ∀ a k, a + k ≤ 0x80C → slice (n.readBytes 0x010 2336) a k = m3.readBytes (0x010 + a) k := fun a k h => by
    rw [slice_readBytes n (by omega)]
    exact Memory.readBytes_congr fun i hi => g4 _ (by omega)
  have to2 : ∀ a k, a + k ≤ 0x818 → m3.readBytes a k = m2.readBytes a k := fun a k h => by
    rw [← e3, Memory.readBytes_writeBytes_apart _ (.inl (by omega))]
  have p1 : m1.readBytes 0x014 2052 = pay := by rw [← e1]; exact Memory.readBytes_writeBytes_eq hm hp (by decide)
  have p2 : m2.readBytes 0x014 2052 = pay := by
    rw [← e2, Memory.readBytes_writeBytes_apart _ (.inr (by simp)), p1]
  have p3 : m2.readBytes 0x010 4 = slice pay 0 4 := by
    rw [← e2, Memory.readBytes_writeBytes_eq w1 (by simp) (by decide), ← p1, slice_readBytes _ (by omega)]
  refine ⟨⟨by simp, ?_, ?_, ?_, ?_⟩, fun a ha => ?_⟩
  · rw [sl _ _ (by omega), to2 _ _ (by omega), p3]
  · rw [sl _ _ (by omega), to2 _ _ (by omega), p2]
  · unfold Spec.ChecksumAt
    rw [sl _ _ (by omega), sl _ _ (by omega), to2 (0x010 + 0x000) 0x808 (by omega), hc, ← e3,
      Memory.readBytes_writeBytes_eq w2 lc (by decide)]
  · exact Spec.parityOfBytes_readBytes (z := true) g2 (.inr ⟨rfl, rfl⟩) rfl g3
  · rw [g4 a (by omega), ← e3, Memory.read_writeBytes_outside (by omega), ← e2,
      Memory.read_writeBytes_outside (by omega), ← e1, Memory.read_writeBytes_outside (by omega)]

theorem buildMode2Form2_sector (t : Tables) {pay : List Byte} (r : EccRegs) {m : Memory} (hm : m.wf)
    (hp : pay.length = 2328) :
    Spec.IsMode2Form2Sector t pay ((buildMode2Form2 t pay r m).frame.readBytes 0x010 2336) ∧
    ∀ a < 0x010, (buildMode2Form2 t pay r m).frame.read a = m.read a := by
  unfold buildMode2Form2 fillMode2Form2
  simp only
  have w1 := Memory.writeBytes_wf (a := 0x014) (bs := pay) hm (by rw [hp]; decide)
  generalize e1 : m.writeBytes 0x014 pay = m1 at *
  have w2 := Memory.writeBytes_wf (a := 0x010) (bs := m1.readBytes 0x014 4) w1 (by simp [frameSize])
  generalize e2 : m1.writeBytes 0x010 (m1.readBytes 0x014 4) = m2 at *
  generalize hc : le32 (t.fold 0 (m2.readBytes 0x010 0x91C)) = ck
  have lc : ck.length = 4 := by rw [← hc]; rfl
  generalize e3 : m2.writeBytes 0x92C ck = m3 at *
  have sl : ∀ a k, a + k ≤ 0x91C → slice (m3.readBytes 0x010 2336) a k = m2.readBytes (0x010 + a) k := fun a k h => by
    rw [slice_readBytes m3 (by omega), ← e3, Memory.readBytes_writeBytes_apart _ (.inl (by omega))]
  have p1 : m1.readBytes 0x014 2328 = pay := by rw [← e1]; exact Memory.readBytes_writeBytes_eq hm hp (by decide)
  have p2 : m2.readBytes 0x014 2328 = pay := by
    rw [← e2, Memory.readBytes_writeBytes_apart _ (.inr (by simp)), p1]
  have p3 : m2.readBytes 0x010 4 = slice pay 0 4 := by
    rw [← e2, Memory.readBytes_writeBytes_eq w1 (by simp) (by decide), ← p1, slice_readBytes _ (by omega)]
  refine ⟨⟨by simp, ?_, ?_, ?_⟩, fun a ha => ?_⟩
  · rw [sl _ _ (by omega), p3]
  · rw [sl _ _ (by omega), p2]
  · unfold Spec.ChecksumAt
    rw [slice_readBytes m3 (by omega), sl _ _ (by omega), hc, ← e3,
      Memory.readBytes_writeBytes_eq w2 lc (by decide)]
  · rw [← e3, Memory.read_writeBytes_outside (by omega), ← e2,
      Memory.read_writeBytes_outside (by omega), ← e1, Memory.read_writeBytes_outside (by omega)]

/-! ## Sectors are determined by their payload -/

/-- Byte strings are equal when they agree on consecutive slices that cover them. -/
theorem getD_eq_of_slice_eq {x y : List Byte} {a n i : Nat} (h : slice x a n = slice y a n) (h1 : a ≤ i)
    (h2 : i < a + n) : x.getD i 0 = y.getD i 0 := by
  have := congrArg (fun l => l.getD (i - a) 0) h
  simp only [getD_slice, if_pos (show i - a < n by omega), show a + (i - a) = i by omega] at this
  exact this

/-- The bytes of a sector follow from the bytes before its parity. -/
theorem bytes_eq_of_parity {t : Tables} {base : Nat} {x y : List Byte}
    (hx : x.length + base = 0x930) (hy : y.length + base = 0x930)
    (px : Spec.ParityOfBytes t base x) (py : Spec.ParityOfBytes t base y)
    (h : ∀ i, i + base < 0x81C → x.getD i 0 = y.getD i 0) : x = y := by
  refine bytes_ext (by omega) fun i hi => ?_
  by_cases hlow : i + base < 0x81C
  · exact h i hlow
  · have := Spec.parity_unique px py (fun a h1 h2 => by
      rw [Memory.read_ofBytes, Memory.read_ofBytes]
      split
      · exact h _ (by omega)
      · rfl) (i + base) (by omega) (by omega)
    rwa [Memory.read_ofBytes, Memory.read_ofBytes, if_pos (by omega), if_pos (by omega), Nat.add_sub_cancel] at this

theorem Spec.IsMode1Sector.unique {t : Tables} {pay x y : List Byte} (hx : Spec.IsMode1Sector t pay x)
    (hy : Spec.IsMode1Sector t pay y) : x = y := by
  obtain ⟨x0, x1, x2, x3, x4, x5, x6, x7⟩ := hx
  obtain ⟨y0, y1, y2, y3, y4, y5, y6, y7⟩ := hy
  have low : ∀ i < 0x810, x.getD i 0 = y.getD i 0 := by
    intro i hi
    rcases Nat.lt_or_ge i 0x00C with h | h
    · exact getD_eq_of_slice_eq (x1.trans y1.symm) (Nat.zero_le _) (by omega)
    · rcases Nat.lt_or_ge i 0x00F with h' | h'
      · exact getD_eq_of_slice_eq (x2.trans y2.symm) h (by omega)
      · rcases Nat.lt_or_ge i 0x010 with h'' | h''
        · exact getD_eq_of_slice_eq (x3.trans y3.symm) h' (by omega)
        · exact getD_eq_of_slice_eq (x4.trans y4.symm) h'' (by omega)
  have hc : slice x 0x810 4 = slice y 0x810 4 := by
    rw [x5, y5, slice_congr (x := x) (y := y) (a := 0) (b := 0) (n := 0x810) (by omega) (by omega) (fun i hi => by rw [Nat.zero_add]; exact low i hi)]
  refine bytes_eq_of_parity (base := 0) (by omega) (by omega) x7 y7 fun i hi => ?_
  rcases Nat.lt_or_ge i 0x810 with h | h
  · exact low i h
  · rcases Nat.lt_or_ge i 0x814 with h' | h'
    · exact getD_eq_of_slice_eq hc h (by omega)
    · exact getD_eq_of_slice_eq (x6.trans y6.symm) h' (by omega)

theorem Spec.IsMode2Form1Sector.unique {t : Tables} {pay x y : List Byte} (hx : Spec.IsMode2Form1Sector t pay x)
    (hy : Spec.IsMode2Form1Sector t pay y) : x = y := by
  obtain ⟨x0, x1, x2, x3, x4⟩ := hx
  obtain ⟨y0, y1, y2, y3, y4⟩ := hy
  have low : ∀ i < 0x808, x.getD i 0 = y.getD i 0 := by
    intro i hi
    rcases Nat.lt_or_ge i 0x004 with h | h
    · exact getD_eq_of_slice_eq (x1.trans y1.symm) (Nat.zero_le _) (by omega)
    · exact getD_eq_of_slice_eq (x2.trans y2.symm) h (by omega)
  have hc : slice x 0x808 4 = slice y 0x808 4 := by
    rw [x3, y3, slice_congr (x := x) (y := y) (a := 0) (b := 0) (n := 0x808) (by omega) (by omega) (fun i hi => by rw [Nat.zero_add]; exact low i hi)]
  refine bytes_eq_of_parity (base := 0x010) (by omega) (by omega) x4 y4 fun i hi => ?_
  rcases Nat.lt_or_ge i 0x808 with h | h
  · exact low i h
  · exact getD_eq_of_slice_eq hc h (by omega)

theorem Spec.IsMode2Form2Sector.unique {t : Tables} {pay x y : List Byte} (hx : Spec.IsMode2Form2Sector t pay x)
    (hy : Spec.IsMode2Form2Sector t pay y) : x = y := by
  obtain ⟨x0, x1, x2, x3⟩ := hx
  obtain ⟨y0, y1, y2, y3⟩ := hy
  have low : ∀ i < 0x91C, x.getD i 0 = y.getD i 0 := by
    intro i hi
    rcases Nat.lt_or_ge i 0x004 with h | h
    · exact getD_eq_of_slice_eq (x1.trans y1.symm) (Nat.zero_le _) (by omega)
    · exact getD_eq_of_slice_eq (x2.trans y2.symm) h (by omega)
  have hc : slice x 0x91C 4 = slice y 0x91C 4 := by
    rw [x3, y3, slice_congr (x := x) (y := y) (a := 0) (b := 0) (n := 0x91C) (by omega) (by omega) (fun i hi => by rw [Nat.zero_add]; exact low i hi)]
  refine bytes_ext (by omega) fun i hi => ?_
  rcases Nat.lt_or_ge i 0x91C with h | h
  · exact low i h
  · exact getD_eq_of_slice_eq hc h (by omega)

theorem Spec.IsBlock.unique {t : Tables} {type : SectorType} {pay x y : List Byte} (hx : Spec.IsBlock t type pay x)
    (hy : Spec.IsBlock t type pay y) : x = y := by
  cases type with
  | literal => exact hx.2.trans hy.2.symm
  | mode1 => exact hx.2.unique hy.2
  | mode2form1 => exact hx.2.unique hy.2
  | mode2form2 => exact hx.2.unique hy.2

end Sys2Proof.Machine
end

