-- ==== Sys2Proof/Laws/Records.lean ====
section
/-!
SUPPORT. What a record does when nothing fails, in closed form, and `decode` over a stream of records.
-/

namespace Sys2Proof.Machine

/-! ## Records -/

/-- A builder makes the block its payload stands for and leaves the frame before the sector. -/
def BuilderMakes (type : SectorType) (base : Nat) (build : Tables → List Byte → EccRegs → Memory → EccOut) : Prop :=
  ∀ t pay r m, m.wf → pay.length = payloadSize type →
    (build t pay r m).frame.wf ∧
    Spec.IsBlock t type pay ((build t pay r m).frame.readBytes base (blockSize type)) ∧
    ∀ a < base, (build t pay r m).frame.read a = m.read a

theorem buildMode1_makes : BuilderMakes .mode1 0x000 buildMode1 := fun t pay r m hm hp =>
  ⟨(buildMode1_keeps t pay r m (by rw [hp]; decide)).1 hm, ⟨hp, buildMode1_sector t r hm hp⟩, fun a ha => by omega⟩

theorem buildMode2Form1_makes : BuilderMakes .mode2form1 0x010 buildMode2Form1 := fun t pay r m hm hp =>
  ⟨(buildMode2Form1_keeps t pay r m (by rw [hp]; decide)).1 hm, ⟨hp, (buildMode2Form1_sector t r hm hp).1⟩,
    (buildMode2Form1_sector t r hm hp).2⟩

theorem buildMode2Form2_makes : BuilderMakes .mode2form2 0x010 buildMode2Form2 := fun t pay r m hm hp =>
  ⟨(buildMode2Form2_keeps t pay r m (by rw [hp]; decide)).1 hm, ⟨hp, (buildMode2Form2_sector t r hm hp).1⟩,
    (buildMode2Form2_sector t r hm hp).2⟩

/-- The loop over the sectors of a record on a source that holds them all (rules R150 to R152, R157). -/
theorem sectorLoop_ok {type : SectorType} {base : Nat} {build : Tables → List Byte → EccRegs → Memory → EccOut}
    (hb : BuilderMakes type base build) : ∀ (count : Nat) (s : State), s.NoIoFailure → s.frame.wf →
    s.dec.rpos + payloadSize type * count ≤ s.src.length →
    ∃ (sectors : List (List Byte)) (m : Memory) (regs : EccRegs), sectors.length = count ∧ m.wf ∧
      (∀ a < base, m.read a = s.frame.read a) ∧
      (∀ k < count, Spec.IsBlock s.tables type
        (slice s.src (s.dec.rpos + payloadSize type * k) (payloadSize type)) (sectors.getD k [])) ∧
      ((∀ t pay r m, (build t pay r m).regs = r) → regs = s.ecc) ∧
      m.readBytes base (blockSize type) = sectors.getLast?.getD (s.frame.readBytes base (blockSize type)) ∧
      sectorLoop (rebuildSector type base build) count s = .ok { s with
        snk := s.snk ++ sectors.flatten, ck := s.tables.fold s.ck sectors.flatten, frame := m, ecc := regs
        dec := { s.dec with
          rpos := s.dec.rpos + payloadSize type * count
          recLeft := if count = 0 then s.dec.recLeft else 0 } } := by
  intro count
  induction count with
  | zero =>
    intro s _ hw _
    refine ⟨[], s.frame, s.ecc, rfl, hw, fun _ _ => rfl, fun k hk => by omega, fun _ => rfl, rfl, ?_⟩
    simp [sectorLoop]
  | succ n ih =>
    intro s hn hw hl
    rw [Nat.mul_succ] at hl
    obtain ⟨b1, b2, b3⟩ := hb s.tables (slice s.src s.dec.rpos (payloadSize type)) s.ecc s.frame hw
      (length_slice_of_le (by omega))
    rcases rebuildSector_cases type base build s with ⟨h, -⟩ | ⟨out, sector, -, ho, hs, e⟩
    · rw [hn.srcLimit] at h; omega
    · rw [← ho] at b1 b2 b3
      rw [← hs] at b2
      have hn' : ({ s.advanceRead (payloadSize type) with
          ecc := out.regs, frame := out.frame, ck := s.tables.fold s.ck sector } : State).NoIoFailure := hn
      rw [hn'.snkWrite] at e
      unfold sectorLoop
      rw [e]
      simp only [Except.bind]
      obtain ⟨sectors, m, regs, i1, i2, i3, i4, i5, i7, i6⟩ := ih
        ((({ s.advanceRead (payloadSize type) with
          ecc := out.regs, frame := out.frame, ck := s.tables.fold s.ck sector } : State).append sector).withLeft n)
        hn b1 (by simp only [State.withLeft_src, State.append_src, State.advanceRead_src]; simp; omega)
      refine ⟨sector :: sectors, m, regs, by simp [i1], i2, fun a ha => (i3 a ha).trans (b3 a ha), ?_, ?_, ?_, ?_⟩
      · intro k hk
        cases k with
        | zero => exact b2
        | succ k =>
          have := i4 k (by omega)
          rw [List.getD_cons_succ, Nat.mul_succ, Nat.add_comm (payloadSize type * k), ← Nat.add_assoc]
          exact this
      · intro hk
        rw [i5 hk]
        show out.regs = s.ecc
        rw [ho, hk]
      · rw [i7, List.getLast?_cons]
        show sectors.getLast?.getD (out.frame.readBytes base (blockSize type)) = _
        rw [← hs]; rfl
      · rw [i6]
        simp only [State.withLeft, State.append, State.advanceRead, Except.ok.injEq]
        have h2 : s.dec.rpos + payloadSize type + payloadSize type * n = s.dec.rpos + payloadSize type * (n + 1) := by
          rw [Nat.mul_succ]; omega
        have h3 : (if n = 0 then BitVec.ofNat 32 n else (0 : Word)) = 0 := by
          by_cases hz : n = 0
          · subst hz; rfl
          · rw [if_neg hz]
        rw [h2, h3]
        simp [Tables.fold_append, List.append_assoc]

/-- The loop over the sectors of a record whose payload is short (rule R167). -/
theorem sectorLoop_short {type : SectorType} {base : Nat} {build : Tables → List Byte → EccRegs → Memory → EccOut} :
    ∀ (count : Nat) (s : State), s.NoIoFailure → s.src.length < s.dec.rpos + payloadSize type * count →
    s.dec.rpos ≤ s.src.length →
    ∃ u, sectorLoop (rebuildSector type base build) count s = .error ⟨.unexpectedEndOfInput, u⟩ := by
  intro count
  induction count with
  | zero => intro s _ h h'; omega
  | succ n ih =>
    intro s hn h h'
    rw [Nat.mul_succ] at h
    unfold sectorLoop
    rcases rebuildSector_cases type base build s with ⟨-, e⟩ | ⟨out, sector, hh, ho, hs, e⟩
    · rw [e, hn.shortError]; exact ⟨_, rfl⟩
    · rw [hn.srcLimit] at hh
      have hn' : ({ s.advanceRead (payloadSize type) with
          ecc := out.regs, frame := out.frame, ck := s.tables.fold s.ck sector } : State).NoIoFailure := hn
      rw [hn'.snkWrite] at e
      rw [e]
      exact ih ((({ s.advanceRead (payloadSize type) with
          ecc := out.regs, frame := out.frame, ck := s.tables.fold s.ck sector } : State).append sector).withLeft n)
        hn (by show s.src.length < s.dec.rpos + payloadSize type + _; omega) hh

/-- A `LIT` record on a source that holds its payload (rule R149). -/
theorem runLit_ok {s : State} {count : Nat} (hn : s.NoIoFailure) (hl : s.dec.rpos + count ≤ s.src.length) :
    runLit count s = { s with
      snk := s.snk ++ slice s.src s.dec.rpos count
      ck := s.tables.fold s.ck (slice s.src s.dec.rpos count)
      dec := { s.dec with rpos := s.dec.rpos + count, recLeft := 0 } } := by
  unfold runLit
  have hl' : s.dec.rpos + count ≤ (s.withLeft count).srcLimit := by
    rw [show (s.withLeft count).srcLimit = s.srcLimit from rfl, hn.srcLimit]; exact hl
  rw [srcRead_of_le hl']
  simp only [Except.bind, State.withLeft_src]
  have hn' : ({ (s.withLeft 0).advanceRead count with
      ck := s.tables.fold s.ck (slice s.src s.dec.rpos count) } : State).NoIoFailure := hn
  rw [hn'.snkWrite]
  rfl

theorem runLit_short {s : State} {count : Nat} (hl : s.srcLimit < s.dec.rpos + count) :
    runLit count s = raise s.shortError (s.withLeft count) := by
  unfold runLit
  rw [srcRead_of_not_le]
  · rfl
  · show ¬s.dec.rpos + count ≤ s.srcLimit
    omega

/-- The same for a record of sectors. -/
theorem settle_sectorLoop_ok {type : SectorType} {base : Nat} {build : Tables → List Byte → EccRegs → Memory → EccOut}
    (hb : BuilderMakes type base build) {s : State} {count : Nat} (hn : s.NoIoFailure) (hw : s.frame.wf)
    (hl : s.dec.rpos + payloadSize type * count ≤ s.src.length) :
    ∃ (sectors : List (List Byte)) (m : Memory) (regs : EccRegs), sectors.length = count ∧ m.wf ∧
      (∀ a < base, m.read a = s.frame.read a) ∧
      (∀ k < count, Spec.IsBlock s.tables type
        (slice s.src (s.dec.rpos + payloadSize type * k) (payloadSize type)) (sectors.getD k [])) ∧
      ((∀ t pay r m, (build t pay r m).regs = r) → regs = s.ecc) ∧
      m.readBytes base (blockSize type) = sectors.getLast?.getD (s.frame.readBytes base (blockSize type)) ∧
      settle (sectorLoop (rebuildSector type base build) count (s.withLeft count)) = { s with
        snk := s.snk ++ sectors.flatten, ck := s.tables.fold s.ck sectors.flatten, frame := m, ecc := regs
        dec := { s.dec with rpos := s.dec.rpos + payloadSize type * count, recLeft := 0 } } := by
  obtain ⟨sectors, m, regs, i1, i2, i3, i4, i5, i7, i6⟩ := sectorLoop_ok hb count (s.withLeft count) hn hw hl
  refine ⟨sectors, m, regs, i1, i2, i3, i4, i5, i7, ?_⟩
  rw [i6]
  have h3 : (if count = 0 then BitVec.ofNat 32 count else (0 : Word)) = 0 := by
    by_cases hz : count = 0
    · subst hz; rfl
    · rw [if_neg hz]
  simp only [settle, State.withLeft, h3]

/-- Which frame bytes a record of a type leaves as they were (rules R149 to R152). -/
def KeepsFrame (type : SectorType) (m m' : Memory) : Prop :=
  (type = .literal → m' = m) ∧ (type ≠ .mode1 → ∀ a < 0x010, m'.read a = m.read a)

/-- Any record on a source that holds its payload. -/
theorem runRecord_ok (type : SectorType) {s : State} {count : Nat} (hn : s.NoIoFailure) (hw : s.frame.wf)
    (hl : s.dec.rpos + payloadSize type * count ≤ s.src.length) :
    ∃ (blocks : List (List Byte)) (m : Memory) (regs : EccRegs), blocks.length = count ∧ m.wf ∧
      KeepsFrame type s.frame m ∧
      (∀ k < count, Spec.IsBlock s.tables type
        (slice s.src (s.dec.rpos + payloadSize type * k) (payloadSize type)) (blocks.getD k [])) ∧
      runRecord type count s = { s with
        snk := s.snk ++ blocks.flatten, ck := s.tables.fold s.ck blocks.flatten, frame := m, ecc := regs
        dec := { s.dec with rpos := s.dec.rpos + payloadSize type * count, recLeft := 0 } } := by
  cases type with
  | literal =>
    have hl' : s.dec.rpos + count ≤ s.src.length := by simpa [payloadSize] using hl
    have hlen := length_slice_of_le hl'
    refine ⟨(slice s.src s.dec.rpos count).map fun b => [b], s.frame, s.ecc, by rw [List.length_map, hlen], hw,
      ⟨fun _ => rfl, fun _ _ _ => rfl⟩, ?_, ?_⟩
    · intro k hk
      have h1 : ((slice s.src s.dec.rpos count).map fun b => [b]).getD k [] = slice s.src (s.dec.rpos + 1 * k) 1 := by
        rw [List.getD_eq_getElem?_getD, List.getElem?_map, Nat.one_mul]
        have h2 : s.dec.rpos + k < s.src.length := by omega
        rw [List.getElem?_eq_getElem (by rw [hlen]; exact hk)]
        unfold slice
        rw [List.drop_eq_getElem_cons h2]
        simp [List.take]
      rw [h1]
      exact ⟨length_slice_of_le (by simp [payloadSize]; omega), rfl⟩
    · have hf : ((slice s.src s.dec.rpos count).map fun b => [b]).flatten = slice s.src s.dec.rpos count := by
        generalize slice s.src s.dec.rpos count = l
        induction l with
        | nil => rfl
        | cons b l ih => simpa using ih
      rw [hf]
      show runLit count s = _
      rw [runLit_ok hn hl']
      simp [payloadSize]
  | mode1 =>
    obtain ⟨b, m, r, h1, h2, -, h4, -, -, h6⟩ := settle_sectorLoop_ok buildMode1_makes hn hw hl
    exact ⟨b, m, r, h1, h2, ⟨by simp, by simp⟩, h4, h6⟩
  | mode2form1 =>
    obtain ⟨b, m, r, h1, h2, h3, h4, -, -, h6⟩ := settle_sectorLoop_ok buildMode2Form1_makes hn hw hl
    exact ⟨b, m, r, h1, h2, ⟨by simp, fun _ => h3⟩, h4, h6⟩
  | mode2form2 =>
    obtain ⟨b, m, r, h1, h2, h3, h4, -, -, h6⟩ := settle_sectorLoop_ok buildMode2Form2_makes hn hw hl
    exact ⟨b, m, r, h1, h2, ⟨by simp, fun _ => h3⟩, h4, h6⟩

/-! ## Headers in front of other bytes -/

theorem parseContinuation_append (type : SectorType) (rest : List Byte) : ∀ (l : List Byte) (bits num used : Nat),
    (parseContinuation type bits num used l).value ≠ .error .headerShort →
    parseContinuation type bits num used (l ++ rest) = parseContinuation type bits num used l := by
  intro l
  induction l with
  | nil => intro bits num used h; exact absurd rfl h
  | cons c l ih =>
    intro bits num used h
    rw [List.cons_append]
    unfold parseContinuation at h ⊢
    simp only at h ⊢
    split
    · rfl
    · rename_i h1
      rw [if_neg h1] at h
      split
      · rename_i h2
        rw [if_pos h2] at h
        exact ih _ _ _ h
      · rfl

/-- Bytes after a header that is not cut off do not change how it is read. -/
theorem parseHeader_append {l : List Byte} (h : (parseHeader l).value ≠ .error .headerShort) (rest : List Byte) :
    parseHeader (l ++ rest) = parseHeader l := by
  cases l with
  | nil => exact absurd rfl h
  | cons c l =>
    rw [List.cons_append]
    unfold parseHeader at h ⊢
    simp only at h ⊢
    split
    · rename_i h1
      rw [if_pos h1] at h
      exact parseContinuation_append _ rest l _ _ _ h
    · rfl

/-- What it means that bytes decode to a record: their header fields, and the fields' record. -/
theorem decodeRecord_ok {l : List Byte} {n : Nat} {i : Instr} (h : decodeRecord l = (n, .ok i)) :
    ∃ f : SectorType × Nat, parseHeader l = ⟨n, .ok f⟩ ∧ recordOfHeader f.1 f.2 = .ok i := by
  unfold decodeRecord at h
  simp only [Prod.mk.injEq] at h
  obtain ⟨h1, h2⟩ := h
  cases hv : (parseHeader l).value with
  | error e => rw [hv] at h2; cases h2
  | ok f =>
    rw [hv] at h2
    refine ⟨f, ?_, h2⟩
    rw [← h1, ← hv]

theorem decodeRecord_append {l : List Byte} {i : Instr} {n : Nat} (h : decodeRecord l = (n, .ok i))
    (rest : List Byte) : decodeRecord (l ++ rest) = (n, .ok i) := by
  obtain ⟨f, h1, h2⟩ := decodeRecord_ok h
  have h3 := parseHeader_append (l := l) (by rw [h1]; simp) rest
  unfold decodeRecord at h ⊢
  simp only [h3]
  exact h

theorem recordOfHeader_end {f : SectorType × Nat} (h : recordOfHeader f.1 f.2 = .ok .endRecord) : f.2 = 0xFFFFFFFF := by
  unfold recordOfHeader at h
  split at h
  · assumption
  · split at h
    · cases h
    · cases ht : f.1 <;> rw [ht] at h <;> cases h

theorem recordOfHeader_record {f : SectorType × Nat} {type : SectorType} {n : Nat}
    (h : recordOfHeader f.1 f.2 = .ok (recordOf type n)) :
    f.1 = type ∧ f.2 + 1 = n ∧ f.2 ≠ 0xFFFFFFFF ∧ n < 0x80000000 := by
  unfold recordOfHeader at h
  split at h
  · cases type <;> cases h
  · split at h
    · cases h
    · rename_i h1 h2
      have h3 : recordOf f.1 (f.2 + 1) = recordOf type n := by injection h
      have h4 : f.2 + 1 = n := by
        cases ht : f.1 <;> cases type <;> rw [ht] at h3 <;> injection h3
      refine ⟨?_, ?_, h1, ?_⟩
      · cases ht : f.1 <;> cases type <;> rw [ht] at h3 <;> first | rfl | cases h3
      · exact h4
      · omega

/-! ## Streams of records -/

theorem Spec.IsBlock.length {t : Tables} {type : SectorType} {pay block : List Byte}
    (h : Spec.IsBlock t type pay block) : pay.length = payloadSize type := by
  cases type <;> exact h.1

theorem length_payloads {t : Tables} {type : SectorType} {payloads blocks : List (List Byte)}
    (h : List.Forall₂ (Spec.IsBlock t type) payloads blocks) :
    payloads.flatten.length = payloadSize type * payloads.length := by
  induction h with
  | nil => simp
  | cons h1 _ ih => rw [List.flatten_cons, List.length_append, List.length_cons, ih, h1.length, Nat.mul_succ, Nat.add_comm]

/-- The blocks of a record are the ones its payloads stand for, read from the source one after another. -/
theorem blocks_unique {t : Tables} {type : SectorType} {payloads blocks : List (List Byte)}
    (h : List.Forall₂ (Spec.IsBlock t type) payloads blocks) : ∀ (x : List Byte) (p : Nat) (rest : List Byte)
    (blocks' : List (List Byte)), x.drop p = payloads.flatten ++ rest → blocks'.length = payloads.length →
    (∀ k < payloads.length, Spec.IsBlock t type (slice x (p + payloadSize type * k) (payloadSize type))
      (blocks'.getD k [])) → blocks' = blocks := by
  induction h with
  | nil => intro x p rest blocks' _ h2 _; exact List.length_eq_zero_iff.1 h2
  | @cons pay block pays bls h1 _ ih =>
    intro x p rest blocks' hx hl hk
    cases blocks' with
    | nil => simp at hl
    | cons b bs =>
      have hp : slice x p (payloadSize type) = pay := by
        unfold slice
        rw [hx, List.flatten_cons, List.append_assoc, ← h1.length, List.take_left']
        rfl
      have h0 := hk 0 (by simp)
      rw [Nat.mul_zero, Nat.add_zero, hp] at h0
      have e1 : b = block := Spec.IsBlock.unique h0 h1
      have e2 : bs = bls := by
        refine ih x (p + payloadSize type) rest bs ?_ (by simpa using hl) fun k hk' => ?_
        · rw [← List.drop_drop, hx, List.flatten_cons, List.append_assoc, ← h1.length, List.drop_left']
          rfl
        · have := hk (k + 1) (by simp; omega)
          rw [List.getD_cons_succ, Nat.mul_succ, Nat.add_comm (payloadSize type * k), ← Nat.add_assoc] at this
          exact this
      rw [e1, e2]

/-- The bytes that can be read when no device fails. -/
theorem State.NoIoFailure.readable {s : State} (h : s.NoIoFailure) : s.readable = s.src.drop s.dec.rpos := by
  unfold State.readable; rw [h.srcLimit, List.take_length]

/-- A round over a legal record (rules R146 to R152, R157). -/
theorem recordRound_ok {s : State} {r : Spec.Record} {rest : List Byte} (hn : s.NoIoFailure) (hw : s.frame.wf)
    (hr : r.Legal s.tables) (hx : s.src.drop s.dec.rpos = r.bytes ++ rest) :
    ∃ (m : Memory) (regs : EccRegs) (dec : DecoderRegs), m.wf ∧ dec.rpos = s.dec.rpos + r.bytes.length ∧
      KeepsFrame r.type s.frame m ∧
      recordRound s = { s with
        snk := s.snk ++ r.blocks.flatten, ck := s.tables.fold s.ck r.blocks.flatten, frame := m, ecc := regs
        dec := dec } := by
  obtain ⟨hd, hf⟩ := hr
  obtain ⟨f, p1, p2⟩ := decodeRecord_ok hd
  obtain ⟨q1, q2, q3, q4⟩ := recordOfHeader_record p2
  have hread : s.readable = r.header ++ (r.payloads.flatten ++ rest) := by
    rw [hn.readable, hx, Spec.Record.bytes, List.append_assoc]
  have hp : parseHeader s.readable = ⟨r.header.length, .ok f⟩ := by
    rw [hread, parseHeader_append (by rw [p1]; simp), p1]
  have hlen := length_payloads hf
  have hsl : s.dec.rpos + r.header.length + (r.payloads.flatten.length + rest.length) ≤ s.src.length := by
    have := congrArg List.length hx
    rw [List.length_drop, Spec.Record.bytes, List.append_assoc, List.length_append, List.length_append] at this
    have hpos : 1 ≤ r.header.length := by
      have h' := (parseHeader_used (l := r.header)).2 ⟨f, by rw [p1]⟩
      rw [p1] at h'; exact h'
    omega
  unfold recordRound
  rcases fetchHeader_cases s with ⟨f', v, e⟩ | ⟨x, v, e⟩
  · rw [hp] at v e
    injection v with v; subst v
    rw [e]
    simp only
    rw [if_neg q3, if_neg (by omega), q1, q2]
    generalize hu : ({ s.advanceRead r.header.length with
      dec := { (s.advanceRead r.header.length).dec with recType := r.type, recNum := BitVec.ofNat 32 f.2 } } : State) = u
    have hu1 : u.dec.rpos = s.dec.rpos + r.header.length := by rw [← hu]; rfl
    have hu2 : u.src = s.src := by rw [← hu]; rfl
    have hu3 : u.tables = s.tables := by rw [← hu]; rfl
    obtain ⟨blocks, m, regs, b1, b2, b5, b3, b4⟩ := runRecord_ok r.type (s := u) (count := r.payloads.length)
      (by rw [← hu]; exact hn) (by rw [← hu]; exact hw) (by rw [hu1, hu2]; omega)
    have hb : blocks = r.blocks := by
      refine blocks_unique hf s.src (s.dec.rpos + r.header.length) rest blocks ?_ b1 ?_
      · rw [← List.drop_drop, hx, Spec.Record.bytes, List.append_assoc, List.drop_left']; rfl
      · rw [hu1, hu2, hu3] at b3; exact b3
    subst hb
    refine ⟨m, regs, { u.dec with rpos := u.dec.rpos + payloadSize r.type * r.payloads.length, recLeft := 0 }, b2, ?_, ?_, ?_⟩
    · show u.dec.rpos + payloadSize r.type * r.payloads.length = _
      rw [hu1, Spec.Record.bytes, List.length_append, hlen]; omega
    · rw [← hu] at b5; exact b5
    · rw [b4, hu3, ← hu]; rfl
  · rw [hp] at v; cases v

/-- A round over the header of `END` (rule R153). -/
theorem recordRound_end {s : State} {sentinel rest : List Byte} (hn : s.NoIoFailure)
    (hd : decodeRecord sentinel = (sentinel.length, .ok .endRecord)) (hx : s.src.drop s.dec.rpos = sentinel ++ rest) :
    ∃ dec : DecoderRegs, dec.rpos = s.dec.rpos + sentinel.length ∧
      recordRound s = { s with dec := dec, engine := .trailer } := by
  obtain ⟨f, p1, p2⟩ := decodeRecord_ok hd
  have hp : parseHeader s.readable = ⟨sentinel.length, .ok f⟩ := by
    rw [hn.readable, hx, parseHeader_append (by rw [p1]; simp), p1]
  unfold recordRound
  rcases fetchHeader_cases s with ⟨f', v, e⟩ | ⟨x, v, e⟩
  · rw [hp] at v e
    injection v with v; subst v
    rw [e]
    simp only
    rw [if_pos (recordOfHeader_end p2)]
    exact ⟨{ (s.advanceRead sentinel.length).dec with recType := f.1, recNum := BitVec.ofNat 32 f.2 }, rfl, rfl⟩
  · rw [hp] at v; cases v

/-- Which frame bytes a sequence of records leaves as they were. -/
def FrameKept (recs : List Spec.Record) (m m' : Memory) : Prop :=
  ((∀ r ∈ recs, r.type = .literal) → m' = m) ∧
  ((∀ r ∈ recs, r.type ≠ .mode1) → ∀ a < 0x010, m'.read a = m.read a)

/-- The rounds over a sequence of legal records. -/
theorem decodeLoop_records : ∀ (recs : List Spec.Record) (s : State) (rounds : Nat) (rest : List Byte),
    s.NoIoFailure → s.frame.wf → s.engine = .records → (∀ r ∈ recs, r.Legal s.tables) →
    s.src.drop s.dec.rpos = (recs.map Spec.Record.bytes).flatten ++ rest →
    ∃ (m : Memory) (regs : EccRegs) (dec : DecoderRegs), m.wf ∧
      dec.rpos = s.dec.rpos + (recs.map Spec.Record.bytes).flatten.length ∧ FrameKept recs s.frame m ∧
      decodeLoop (rounds + recs.length) s = decodeLoop rounds { s with
        snk := s.snk ++ Spec.output recs, ck := s.tables.fold s.ck (Spec.output recs), frame := m, ecc := regs
        dec := dec } := by
  intro recs
  induction recs with
  | nil =>
    intro s rounds rest _ hw _ _ _
    exact ⟨s.frame, s.ecc, s.dec, hw, by simp, ⟨fun _ => rfl, fun _ _ _ => rfl⟩, by simp [Spec.output]⟩
  | cons r recs ih =>
    intro s rounds rest hn hw he hl hx
    rw [List.map_cons, List.flatten_cons, List.append_assoc] at hx
    obtain ⟨m, regs, dec, i1, i2, i4, i3⟩ := recordRound_ok hn hw (hl r (by simp)) hx
    obtain ⟨m', regs', dec', j1, j2, j4, j3⟩ := ih (recordRound s) rounds rest (by rw [i3]; exact hn) (by rw [i3]; exact i1)
      (by rw [i3]; exact he) (by rw [i3]; exact fun r' hr' => hl r' (by simp [hr'])) (by
        rw [i3]
        show s.src.drop dec.rpos = _
        rw [i2, ← List.drop_drop, hx, List.drop_left']
        rfl)
    refine ⟨m', regs', dec', j1, ?_, ⟨fun h => ?_, fun h a ha => ?_⟩, ?_⟩
    · rw [j2, i3, List.map_cons, List.flatten_cons, List.length_append]
      show dec.rpos + _ = _
      omega
    · rw [j4.1 fun r' hr' => h r' (by simp [hr']), i3]
      exact i4.1 (h r (by simp))
    · rw [j4.2 (fun r' hr' => h r' (by simp [hr'])) a ha, i3]
      exact i4.2 (h r (by simp)) a ha
    · rw [List.length_cons, ← Nat.add_assoc]
      rw [show decodeLoop (rounds + recs.length + 1) s = decodeLoop (rounds + recs.length) (recordRound s) by
        rw [decodeLoop, he], j3, i3]
      simp [Spec.output, Tables.fold_append, List.append_assoc]

/-- Every record of a legal sequence takes at least one byte. -/
theorem length_records {t : Tables} {recs : List Spec.Record} (h : ∀ r ∈ recs, r.Legal t) :
    recs.length ≤ (recs.map Spec.Record.bytes).flatten.length := by
  induction recs with
  | nil => simp
  | cons r recs ih =>
    have h1 := ih fun r' hr' => h r' (by simp [hr'])
    obtain ⟨f, p1, -⟩ := decodeRecord_ok (h r (by simp)).1
    have h2 := (parseHeader_used (l := r.header)).2 ⟨f, by rw [p1]⟩
    rw [p1] at h2
    simp only [List.map_cons, List.flatten_cons, List.length_append, List.length_cons, Spec.Record.bytes] at h1 ⊢
    have h2 : 1 ≤ r.header.length := h2
    omega

/-- The start of `decode` on a source with the magic. -/
theorem decodeStart_magic {s : State} {rest : List Byte} (hn : s.NoIoFailure)
    (hx : s.src = [0x45, 0x43, 0x4D, 0x00] ++ rest) : decodeStart s =
      { s with dec := { s.dec with rpos := 4 }, ck := 0, snkStart := s.snk.length, engine := .records } := by
  unfold decodeStart
  have h1 : ({ s with dec := { s.dec with rpos := 0 }, ck := 0, snkStart := s.snk.length } : State).srcLimit = s.src.length :=
    hn.srcLimit
  simp only [h1]
  rw [if_neg (by omega), if_pos (by rw [hx]; rfl)]
  rfl

/-- `decode` up to the trailer of a stream of records. -/
theorem decodeRun_stream {s : State} {recs : List Spec.Record} {sentinel tail : List Byte} (hn : s.NoIoFailure)
    (hw : s.frame.wf) (hl : ∀ r ∈ recs, r.Legal s.tables)
    (hd : decodeRecord sentinel = (sentinel.length, .ok .endRecord))
    (hx : s.src = [0x45, 0x43, 0x4D, 0x00] ++ (recs.map Spec.Record.bytes).flatten ++ sentinel ++ tail) :
    ∃ (m : Memory) (regs : EccRegs) (dec : DecoderRegs), m.wf ∧ dec.rpos + tail.length = s.src.length ∧
      FrameKept recs s.frame m ∧
      decodeRun s = runTrailer { s with
        snk := s.snk ++ Spec.output recs, snkStart := s.snk.length, ck := s.tables.fold 0 (Spec.output recs)
        frame := m, ecc := regs, dec := dec, engine := .trailer } := by
  rw [List.append_assoc, List.append_assoc] at hx
  have hlen := congrArg List.length hx
  simp only [List.length_append, List.length_cons, List.length_nil] at hlen
  have hr := length_records hl
  obtain ⟨f, p1, -⟩ := decodeRecord_ok hd
  have h1 := (parseHeader_used (l := sentinel)).2 ⟨f, by rw [p1]⟩
  rw [p1] at h1
  have h1 : 1 ≤ sentinel.length := h1
  unfold decodeRun
  rw [decodeStart_magic hn hx]
  obtain ⟨k, hk⟩ : ∃ k, s.src.length + 1 = (k + 2) + recs.length := ⟨s.src.length + 1 - 2 - recs.length, by omega⟩
  rw [hk]
  obtain ⟨m, regs, dec, i1, i2, i4, i3⟩ := decodeLoop_records recs
    { s with dec := { s.dec with rpos := 4 }, ck := 0, snkStart := s.snk.length, engine := .records } (k + 2)
    (sentinel ++ tail) hn hw rfl hl (by rw [hx]; rfl)
  have i2 : dec.rpos = 4 + (recs.map Spec.Record.bytes).flatten.length := i2
  rw [i3]
  generalize hu : ({ { s with
      dec := { s.dec with rpos := 4 }, ck := 0, snkStart := s.snk.length, engine := .records } with
    snk := s.snk ++ Spec.output recs, ck := s.tables.fold 0 (Spec.output recs), frame := m, ecc := regs
    dec := dec } : State) = u
  obtain ⟨dec', j1, j2⟩ := recordRound_end (s := u) (sentinel := sentinel) (rest := tail) (by rw [← hu]; exact hn) hd (by
    rw [← hu]
    show s.src.drop dec.rpos = _
    rw [i2, hx, ← List.drop_drop]
    show ((recs.map Spec.Record.bytes).flatten ++ (sentinel ++ tail)).drop _ = _
    rw [List.drop_left']; rfl)
  have hru : u.engine = .records := by rw [← hu]
  refine ⟨m, regs, dec', i1, ?_, i4, ?_⟩
  · rw [j1, ← hu, hlen]
    show dec.rpos + _ + _ = _
    omega
  · have e1 : decodeLoop (k + 2) u = decodeLoop (k + 1) (recordRound u) := by rw [decodeLoop, hru]
    have e2 : ∀ v : State, v.engine = .trailer → decodeLoop (k + 1) v = runTrailer v := by
      intro v hv
      rw [decodeLoop, hv]
      exact decodeLoop_idle _ (runTrailer_engine v)
    rw [e1, j2, e2 _ rfl, ← hu]

/-- The trailer, when it can be read (rule R158). -/
theorem runTrailer_ok {s : State} (hn : s.NoIoFailure) (hl : s.dec.rpos + 4 ≤ s.src.length) :
    runTrailer s = if slice s.src s.dec.rpos 4 = le32 s.ck then (s.advanceRead 4).succeed
      else raise .checksumMismatch (s.advanceRead 4) := by
  unfold runTrailer
  rw [srcRead_of_le (by rw [hn.srcLimit]; exact hl)]
  simp only [Except.bind]
  split <;> rfl

end Sys2Proof.Machine
end

