-- ==== Sys2Proof/Laws/Failures.lean ====
section
/-!
SUPPORT. What a part of `decode` does when a device may fail (rule R170, log 9): it raises `IoError`, or it is carried
past its bytes with no failure among them. `Carried` says the second once, for every part.
-/

namespace Sys2Proof.Machine

/-! ## One access -/

/-- A read past a failing source is an `IoError` (rule R170). -/
theorem State.shortError_of_fail {s : State} (h : s.srcLimit < s.src.length) : s.shortError = .ioError := if_pos h

/-- What a write can do to a sink that may fail. -/
theorem snkWrite_room (bytes : List Byte) (s : State) :
    snkWrite bytes s = .error ⟨.ioError, s⟩ ∨
    snkWrite bytes s = .ok (s.append bytes) ∧ s.sinkFull (s.snk.length + bytes.length) = false := by
  unfold snkWrite
  by_cases h : s.sinkFull (s.snk.length + bytes.length) = true
  · exact .inl (if_pos h)
  · exact .inr ⟨if_neg h, Bool.eq_false_iff.2 h⟩

/-! ## A part of `decode` -/

/-- From `s` to `t` a part of `decode` has read `n` bytes and written `m`, none of them past what a device can do. -/
structure Carried (s t : State) (n m : Nat) : Prop where
  src     : t.src = s.src
  srcFail : t.srcFail = s.srcFail
  snkCap  : t.snkCap = s.snkCap
  tables  : t.tables = s.tables
  engine  : t.engine = s.engine
  rpos    : t.dec.rpos = s.dec.rpos + n
  length  : t.snk.length = s.snk.length + m
  read    : n ≠ 0 → s.dec.rpos + n ≤ s.srcLimit
  room    : m ≠ 0 → s.sinkFull (s.snk.length + m) = false

theorem Carried.refl (s : State) : Carried s s 0 0 :=
  ⟨rfl, rfl, rfl, rfl, rfl, rfl, rfl, fun h => absurd rfl h, fun h => absurd rfl h⟩

theorem Carried.srcLimit {s t : State} {n m : Nat} (h : Carried s t n m) : t.srcLimit = s.srcLimit := by
  unfold State.srcLimit; rw [h.srcFail, h.src]

theorem Carried.sinkFull {s t : State} {n m : Nat} (h : Carried s t n m) (k : Nat) : t.sinkFull k = s.sinkFull k := by
  unfold State.sinkFull; rw [h.snkCap]

theorem Carried.trans {s t u : State} {n m n' m' : Nat} (h : Carried s t n m) (k : Carried t u n' m') :
    Carried s u (n + n') (m + m') where
  src := k.src.trans h.src
  srcFail := k.srcFail.trans h.srcFail
  snkCap := k.snkCap.trans h.snkCap
  tables := k.tables.trans h.tables
  engine := k.engine.trans h.engine
  rpos := by rw [k.rpos, h.rpos, Nat.add_assoc]
  length := by rw [k.length, h.length, Nat.add_assoc]
  read := fun hn => by
    by_cases h' : n' = 0
    · rw [h', Nat.add_zero]; exact h.read (by omega)
    · have := k.read h'; rw [h.srcLimit, h.rpos] at this; omega
  room := fun hm => by
    by_cases h' : m' = 0
    · rw [h', Nat.add_zero]; exact h.room (by omega)
    · have := k.room h'; rwa [h.sinkFull, h.length, Nat.add_assoc] at this

/-- An update of registers that are neither `RPOS` nor a device's carries nothing. -/
theorem Carried.withLeft (s : State) (n : Nat) : Carried s (s.withLeft n) 0 0 :=
  ⟨rfl, rfl, rfl, rfl, rfl, rfl, rfl, fun h => absurd rfl h, fun h => absurd rfl h⟩

/-- A part that may raise: it raises `IoError`, or it is carried. -/
def FailsOrCarries (s : State) (n m : Nat) (x : Except Abort State) : Prop :=
  (∃ u, x = .error ⟨.ioError, u⟩) ∨ ∃ t, x = .ok t ∧ Carried s t n m

/-- Reads of `n` bytes from here on cannot find the end of the source before they find a failure. -/
def NotShort (s : State) (n : Nat) : Prop := s.dec.rpos + n ≤ s.src.length ∨ s.srcLimit < s.src.length

theorem NotShort.of_carried {s t : State} {n m k : Nat} (h : Carried s t n m) (hs : NotShort s (n + k)) :
    NotShort t k := by
  unfold NotShort at *
  rw [h.srcLimit, h.src, h.rpos]
  omega

theorem NotShort.shortError {s : State} {n k : Nat} (h : NotShort s n) (hk : k ≤ n) (hr : ¬s.dec.rpos + k ≤ s.srcLimit) :
    s.shortError = .ioError := State.shortError_of_fail (by unfold NotShort at h; omega)

/-! ## Records -/

theorem rebuildSector_fails (type : SectorType) (base : Nat)
    (build : Tables → List Byte → EccRegs → Memory → EccOut) {s : State} (h : NotShort s (payloadSize type)) :
    FailsOrCarries s (payloadSize type) (blockSize type) (rebuildSector type base build s) := by
  rcases rebuildSector_cases type base build s with ⟨hr, e⟩ | ⟨out, sector, hr, -, hs, e⟩ <;> rw [e]
  · rw [h.shortError (Nat.le_refl _) hr]; exact .inl ⟨_, rfl⟩
  · have hl : sector.length = blockSize type := by rw [hs]; simp [Memory.readBytes]
    rcases snkWrite_room sector { s.advanceRead (payloadSize type) with
      ecc := out.regs, frame := out.frame, ck := s.tables.fold s.ck sector } with w | ⟨w, hw⟩ <;> rw [w]
    · exact .inl ⟨_, rfl⟩
    · rw [hl] at hw
      exact .inr ⟨_, rfl, rfl, rfl, rfl, rfl, rfl, rfl, by simp [hl], fun _ => hr, fun _ => hw⟩

theorem sectorLoop_fails {one : State → Except Abort State} {n m : Nat}
    (h1 : ∀ s, NotShort s n → FailsOrCarries s n m (one s)) : ∀ (count : Nat) (s : State), NotShort s (n * count) →
    FailsOrCarries s (n * count) (m * count) (sectorLoop one count s) := by
  intro count
  induction count with
  | zero => intro s _; exact .inr ⟨s, rfl, .refl s⟩
  | succ count ih =>
    intro s hs
    have e1 : n * (count + 1) = n + n * count := by rw [Nat.mul_succ, Nat.add_comm]
    have e2 : m * (count + 1) = m + m * count := by rw [Nat.mul_succ, Nat.add_comm]
    rw [e1] at hs ⊢
    rw [e2]
    unfold sectorLoop
    rcases h1 s (by unfold NotShort at *; omega) with ⟨u, e⟩ | ⟨t, e, hc⟩ <;> rw [e]
    · exact .inl ⟨u, rfl⟩
    · have hc' : Carried s (t.withLeft count) n m := hc.trans (.withLeft t count)
      rcases ih (t.withLeft count) (.of_carried hc' hs) with ⟨u, e⟩ | ⟨v, e, hv⟩
      · exact .inl ⟨u, e⟩
      · exact .inr ⟨v, e, hc'.trans hv⟩

theorem runLit_fails {s : State} {count : Nat} (h : NotShort s count) :
    (∃ u, runLit count s = raise .ioError u) ∨ Carried s (runLit count s) count count := by
  unfold runLit
  rcases srcRead_cases s.dec.rpos count (s.withLeft count) with ⟨hr, e⟩ | ⟨hr, e⟩ <;> rw [e]
  · have hr : s.dec.rpos + count ≤ s.srcLimit := hr
    have hl : (slice s.src s.dec.rpos count).length = count := length_slice_of_le (by have := s.srcLimit_le; omega)
    simp only [Except.bind, State.withLeft_src]
    rcases snkWrite_room (slice s.src s.dec.rpos count) { (s.withLeft 0).advanceRead count with
      ck := s.tables.fold s.ck (slice s.src s.dec.rpos count) } with w | ⟨w, hw⟩ <;> rw [w]
    · exact .inl ⟨_, rfl⟩
    · rw [hl] at hw
      exact .inr ⟨rfl, rfl, rfl, rfl, rfl, rfl, by simp [hl], fun _ => hr, fun _ => hw⟩
  · refine .inl ⟨s.withLeft count, ?_⟩
    have hw : NotShort (s.withLeft count) count := h
    rw [hw.shortError (Nat.le_refl _) hr]; rfl

theorem settle_fails {s : State} {n m count : Nat} {x : Except Abort State}
    (h : FailsOrCarries (s.withLeft count) n m x) :
    (∃ u, settle x = raise .ioError u) ∨ Carried s (settle x) n m := by
  rcases h with ⟨u, e⟩ | ⟨t, e, hc⟩ <;> rw [e]
  · exact .inl ⟨u, rfl⟩
  · have := (Carried.withLeft s count).trans hc
    rw [Nat.zero_add, Nat.zero_add] at this
    exact .inr this

/-- Any record on devices that may fail. -/
theorem runRecord_fails (type : SectorType) {s : State} {count : Nat} (h : NotShort s (payloadSize type * count)) :
    (∃ u, runRecord type count s = raise .ioError u) ∨
    Carried s (runRecord type count s) (payloadSize type * count) (blockSize type * count) := by
  cases type with
  | literal =>
    simp only [payloadSize, blockSize, Nat.one_mul] at h ⊢
    exact runLit_fails h
  | mode1 => exact settle_fails (sectorLoop_fails (fun _ => rebuildSector_fails _ _ _) count (s.withLeft count) h)
  | mode2form1 => exact settle_fails (sectorLoop_fails (fun _ => rebuildSector_fails _ _ _) count (s.withLeft count) h)
  | mode2form2 => exact settle_fails (sectorLoop_fails (fun _ => rebuildSector_fails _ _ _) count (s.withLeft count) h)

/-! ## Rounds -/

/-- A header that is cut off anywhere is read as cut off (rule R58). -/
theorem parseHeader_take {l : List Byte} {n k : Nat} {f : SectorType × Nat} (h : parseHeader l = ⟨n, .ok f⟩) (hk : k < n) :
    (parseHeader (l.take k)).value = .error .headerShort := by
  refine Classical.byContradiction fun hne => ?_
  have e := parseHeader_append hne (l.drop k)
  rw [List.take_append_drop, h] at e
  have h1 := (parseHeader_used (l := l.take k)).1
  rw [← e, List.length_take] at h1
  have h1 : n ≤ min k l.length := h1
  omega

/-- Fetching a header from a source that may fail. -/
theorem fetchHeader_fails {s : State} {header rest : List Byte} {f : SectorType × Nat}
    (hp : parseHeader header = ⟨header.length, .ok f⟩) (hx : s.src.drop s.dec.rpos = header ++ rest) :
    (∃ u, fetchHeader s = .error ⟨.ioError, u⟩) ∨
    ∃ t, fetchHeader s = .ok (f, t) ∧ Carried s t header.length 0 ∧
      t = { s with dec := t.dec } := by
  have hpos : 1 ≤ header.length := by
    have h' := (parseHeader_used (l := header)).2 ⟨f, by rw [hp]⟩
    rw [hp] at h'; exact h'
  have hlen := congrArg List.length hx
  rw [List.length_drop, List.length_append] at hlen
  have hread : s.readable = (header ++ rest).take (s.srcLimit - s.dec.rpos) := by
    unfold State.readable; rw [List.drop_take, hx]
  by_cases hr : s.dec.rpos + header.length ≤ s.srcLimit
  · have hp' : parseHeader s.readable = ⟨header.length, .ok f⟩ := by
      have h1 : s.readable = header ++ rest.take (s.srcLimit - s.dec.rpos - header.length) := by
        rw [hread, List.take_append, List.take_of_length_le (l := header) (by omega)]
      rw [h1, parseHeader_append (by rw [hp]; simp), hp]
    rcases fetchHeader_cases s with ⟨f', v, e⟩ | ⟨x, v, -⟩
    · rw [hp'] at v e
      injection v with v; subst v
      exact .inr ⟨_, e, ⟨rfl, rfl, rfl, rfl, rfl, rfl, rfl, fun _ => hr, fun h => absurd rfl h⟩, rfl⟩
    · rw [hp'] at v; cases v
  · have hv : (parseHeader s.readable).value = .error .headerShort := by
      rw [hread, List.take_append_of_le_length (by omega)]
      exact parseHeader_take hp (by omega)
    rcases fetchHeader_cases s with ⟨f', v, -⟩ | ⟨x, v, e⟩
    · rw [hv] at v; cases v
    · rw [hv] at v
      injection v with v; subst v
      refine .inl ⟨_, e.trans (congrArg (fun c => Except.error (Abort.mk c _)) ?_)⟩
      exact State.shortError_of_fail (by show s.srcLimit < s.src.length; omega)

theorem Spec.IsBlock.length_block {t : Tables} {type : SectorType} {pay block : List Byte}
    (h : Spec.IsBlock t type pay block) : block.length = blockSize type := by
  cases type with
  | literal => rw [h.2]; exact h.1
  | mode1 => exact h.2.1
  | mode2form1 => exact h.2.1
  | mode2form2 => exact h.2.1

theorem length_blocks {t : Tables} {type : SectorType} {payloads blocks : List (List Byte)}
    (h : List.Forall₂ (Spec.IsBlock t type) payloads blocks) :
    blocks.flatten.length = blockSize type * payloads.length := by
  induction h with
  | nil => simp
  | cons h1 _ ih =>
    rw [List.flatten_cons, List.length_append, List.length_cons, ih, h1.length_block, Nat.mul_succ, Nat.add_comm]

/-- A round over a legal record on devices that may fail. -/
theorem recordRound_fails {s : State} {r : Spec.Record} {rest : List Byte} (hr : r.Legal s.tables)
    (hx : s.src.drop s.dec.rpos = r.bytes ++ rest) :
    (∃ u, recordRound s = raise .ioError u) ∨
    Carried s (recordRound s) r.bytes.length r.blocks.flatten.length := by
  obtain ⟨hd, hf⟩ := hr
  obtain ⟨f, p1, p2⟩ := decodeRecord_ok hd
  obtain ⟨q1, q2, q3, q4⟩ := recordOfHeader_record p2
  have hlen := congrArg List.length hx
  rw [List.length_drop, Spec.Record.bytes, List.length_append, List.length_append, length_payloads hf] at hlen
  rw [Spec.Record.bytes, List.append_assoc] at hx
  rw [Spec.Record.bytes, List.length_append, length_payloads hf, length_blocks hf]
  unfold recordRound
  rcases fetchHeader_fails p1 hx with ⟨u, e⟩ | ⟨t, e, hc, -⟩ <;> rw [e]
  · exact .inl ⟨u, rfl⟩
  · simp only
    rw [if_neg q3, if_neg (by omega), q1, q2]
    have hpos : 1 ≤ r.header.length := by
      have h' := (parseHeader_used (l := r.header)).2 ⟨f, by rw [p1]⟩
      rw [p1] at h'; exact h'
    rcases runRecord_fails r.type (s := t) (count := r.payloads.length)
      (.of_carried hc (.inl (by omega))) with h | h
    · exact .inl h
    · have := hc.trans h
      rw [Nat.zero_add] at this
      exact .inr this

/-- A round over the header of `END` on devices that may fail. -/
theorem recordRound_end_fails {s : State} {sentinel rest : List Byte}
    (hd : decodeRecord sentinel = (sentinel.length, .ok .endRecord)) (hx : s.src.drop s.dec.rpos = sentinel ++ rest) :
    (∃ u, recordRound s = raise .ioError u) ∨
    ∃ t, recordRound s = runEnd t ∧ Carried s t sentinel.length 0 := by
  obtain ⟨f, p1, p2⟩ := decodeRecord_ok hd
  unfold recordRound
  rcases fetchHeader_fails p1 hx with ⟨u, e⟩ | ⟨t, e, hc, -⟩ <;> rw [e]
  · exact .inl ⟨u, rfl⟩
  · exact .inr ⟨t, if_pos (recordOfHeader_end p2), hc⟩

/-- The trailer of a source that may fail. -/
theorem runTrailer_fails {s : State} (h : NotShort s 4) :
    (∃ u, runTrailer s = raise .ioError u) ∨ s.dec.rpos + 4 ≤ s.srcLimit := by
  by_cases hr : s.dec.rpos + 4 ≤ s.srcLimit
  · exact .inr hr
  · refine .inl ⟨s, ?_⟩
    unfold runTrailer
    rw [srcRead_of_not_le hr, h.shortError (Nat.le_refl _) hr]
    rfl

/-- The rounds over a sequence of legal records on devices that may fail. -/
theorem decodeLoop_fails : ∀ (recs : List Spec.Record) (s : State) (rounds : Nat) (rest : List Byte),
    s.engine = .records → (∀ r ∈ recs, r.Legal s.tables) →
    s.src.drop s.dec.rpos = (recs.map Spec.Record.bytes).flatten ++ rest →
    (∃ u, decodeLoop (rounds + recs.length) s = raise .ioError u) ∨
    ∃ t, Carried s t (recs.map Spec.Record.bytes).flatten.length (Spec.output recs).length ∧
      decodeLoop (rounds + recs.length) s = decodeLoop rounds t := by
  intro recs
  induction recs with
  | nil => intro s rounds rest _ _ _; exact .inr ⟨s, .refl s, rfl⟩
  | cons r recs ih =>
    intro s rounds rest he hl hx
    rw [List.map_cons, List.flatten_cons, List.append_assoc] at hx
    have hround : decodeLoop (rounds + (r :: recs).length) s = decodeLoop (rounds + recs.length) (recordRound s) := by
      rw [List.length_cons, ← Nat.add_assoc, decodeLoop, he]
    rw [hround]
    rcases recordRound_fails (hl r (by simp)) hx with ⟨u, e⟩ | hc
    · rw [e, decodeLoop_idle _ rfl]; exact .inl ⟨u, rfl⟩
    · rcases ih (recordRound s) rounds rest (hc.engine.trans he)
        (by rw [hc.tables]; exact fun r' hr' => hl r' (by simp [hr'])) (by
          rw [hc.src, hc.rpos, ← List.drop_drop, hx, List.drop_left']
          rfl) with h | ⟨t, ht, e⟩
      · exact .inl h
      · refine .inr ⟨t, ?_, e⟩
        have := hc.trans ht
        rw [← List.length_append, ← List.length_append] at this
        exact this

/-! ## The whole operation -/

/-- The start of `decode` on a source with the magic that may fail. -/
theorem decodeStart_fails {s : State} {rest : List Byte} (hx : s.src = [0x45, 0x43, 0x4D, 0x00] ++ rest) :
    (∃ u, decodeStart s = raise .ioError u) ∨
    (4 ≤ s.srcLimit ∧ decodeStart s = { s with
      dec := { s.dec with rpos := 4 }, ck := 0, snkStart := s.snk.length, engine := .records }) := by
  have hl : 4 ≤ s.src.length := by rw [hx]; simp
  have h1 : ({ s with dec := { s.dec with rpos := 0 }, ck := 0, snkStart := s.snk.length } : State).srcLimit = s.srcLimit :=
    rfl
  unfold decodeStart
  simp only [h1]
  by_cases h : s.srcLimit < min 4 s.src.length
  · rw [if_pos h]; exact .inl ⟨_, rfl⟩
  · rw [if_neg h, if_pos (by rw [hx]; rfl)]
    exact .inr ⟨by omega, rfl⟩

/-- `decode` of a stream of legal records on devices that may fail: an `IoError`, or every byte of the stream could be
read and the sink could hold every byte it stands for (rule R170). -/
theorem decodeRun_fails {s : State} {recs : List Spec.Record} {sentinel trailer junk : List Byte}
    (hl : ∀ r ∈ recs, r.Legal s.tables) (hd : decodeRecord sentinel = (sentinel.length, .ok .endRecord))
    (ht : trailer.length = 4) (hx : s.src = Spec.streamOf recs sentinel trailer ++ junk) :
    (∃ u, decodeRun s = raise .ioError u) ∨
    ((Spec.streamOf recs sentinel trailer).length ≤ s.srcLimit ∧
      ((Spec.output recs).length ≠ 0 → s.sinkFull (s.snk.length + (Spec.output recs).length) = false)) := by
  have hx' : s.src = [0x45, 0x43, 0x4D, 0x00] ++
      ((recs.map Spec.Record.bytes).flatten ++ (sentinel ++ (trailer ++ junk))) := by
    rw [hx, Spec.streamOf]; simp only [List.append_assoc]
  have hlen := congrArg List.length hx'
  simp only [List.length_append, List.length_cons, List.length_nil] at hlen
  have hstream : (Spec.streamOf recs sentinel trailer).length =
      4 + (recs.map Spec.Record.bytes).flatten.length + sentinel.length + 4 := by
    rw [Spec.streamOf]; simp only [List.length_append, ht]; rfl
  have hr := length_records hl
  rcases decodeStart_fails hx' with ⟨u, e⟩ | ⟨h4, e⟩
  · exact .inl ⟨u, by unfold decodeRun; rw [e, decodeLoop_idle _ rfl]⟩
  obtain ⟨k, hk⟩ : ∃ k, s.src.length + 1 = (k + 2) + recs.length := ⟨s.src.length + 1 - 2 - recs.length, by omega⟩
  unfold decodeRun
  rw [e, hk]
  rcases decodeLoop_fails recs
    { s with dec := { s.dec with rpos := 4 }, ck := 0, snkStart := s.snk.length, engine := .records } (k + 2)
    (sentinel ++ (trailer ++ junk)) rfl hl (by
      show s.src.drop 4 = _
      rw [hx']; rfl) with h | ⟨t, hc, e⟩
  · exact .inl h
  rw [e]
  have hsrc : t.src = s.src := hc.src
  have hrpos : t.dec.rpos = 4 + (recs.map Spec.Record.bytes).flatten.length := hc.rpos
  have hdrop : t.src.drop t.dec.rpos = sentinel ++ (trailer ++ junk) := by
    rw [hsrc, hrpos, hx', ← List.drop_drop]
    exact List.drop_left' rfl
  have he : t.engine = .records := hc.engine
  rw [show decodeLoop (k + 2) t = decodeLoop (k + 1) (recordRound t) by rw [decodeLoop, he]]
  rcases recordRound_end_fails hd hdrop with ⟨u, e⟩ | ⟨v, e, hv⟩ <;> rw [e]
  · exact .inl ⟨u, decodeLoop_idle _ rfl⟩
  have hpos : v.dec.rpos = 4 + (recs.map Spec.Record.bytes).flatten.length + sentinel.length := by rw [hv.rpos, hrpos]
  have hvs : v.src = s.src := hv.src.trans hsrc
  have hlim : v.srcLimit = s.srcLimit := hv.srcLimit.trans hc.srcLimit
  have hq : NotShort (runEnd v) 4 := .inl (by
    show v.dec.rpos + 4 ≤ v.src.length
    rw [hpos, hvs]; omega)
  have hl1 : decodeLoop (k + 1) (runEnd v) = runTrailer (runEnd v) := by
    rw [decodeLoop]
    exact decodeLoop_idle _ (runTrailer_engine _)
  rw [hl1]
  rcases runTrailer_fails hq with h | h
  · exact .inl h
  · refine .inr ⟨?_, fun ho => hc.room ho⟩
    have h : v.dec.rpos + 4 ≤ v.srcLimit := h
    rw [hpos, hlim] at h
    omega

/-- Over a `decode` the sink keeps what it held before (rule R174). -/
theorem decodeRun_sink (s : State) : s.snk <+: (decodeRun s).snk := by
  unfold decodeRun
  have key : ∀ t : State, t.snkStart = s.snk.length → s.snk <+: t.snk → ∀ n, s.snk <+: (decodeLoop n t).snk := by
    intro t h1 h2 n
    have hlen : t.snkStart ≤ t.snk.length := by rw [h1]; exact h2.length_le
    obtain ⟨-, h4⟩ := (DecoderKeeps.decodeLoop n t).sink hlen
    rw [h1] at h4
    exact List.prefix_iff_eq_take.2 ((List.prefix_iff_eq_take.1 h2).trans h4.symm)
  rcases decodeStart_cases s with ⟨e, t, h, ht⟩ | ⟨h, -, -⟩ <;> rw [h]
  · subst ht
    have hk := DecoderKeeps.raise e { s with dec := { s.dec with rpos := 0 }, ck := 0, snkStart := s.snk.length }
    refine key _ rfl ?_ _
    obtain ⟨-, h4⟩ := hk.sink (Nat.le_refl _)
    have h4 : (raise e { s with dec := { s.dec with rpos := 0 }, ck := 0, snkStart := s.snk.length }).snk.take s.snk.length
      = s.snk.take s.snk.length := h4
    rw [List.take_length] at h4
    exact List.prefix_iff_eq_take.2 h4.symm
  · exact key { s with dec := { s.dec with rpos := 4 }, ck := 0, snkStart := s.snk.length, engine := .records } rfl
      (List.prefix_refl _) _

end Sys2Proof.Machine
end

