-- ==== Sys2Proof/Laws/Header.lean ====
section
/-!
SUPPORT. The record header as arithmetic: one header byte read, and the bytes `emit_header` writes read back (rules R55
to R58).
-/

namespace Sys2Proof

theorem getLsbD_seven (c : Byte) : c.getLsbD 7 = decide (128 ≤ c.toNat) := by
  revert c; decide

theorem shiftRight_and (n : Nat) : (n >>> 2) &&& 0x1F = n / 4 % 32 := by
  rw [show (0x1F : Nat) = 2 ^ 5 - 1 by rfl, Nat.and_two_pow_sub_one_eq_mod, Nat.shiftRight_eq_div_pow]

theorem and_127 (n : Nat) : n &&& 0x7F = n % 128 := by
  rw [show (0x7F : Nat) = 2 ^ 7 - 1 by rfl, Nat.and_two_pow_sub_one_eq_mod]

theorem and_3 (n : Nat) : n &&& 3 = n % 4 := by
  rw [show (3 : Nat) = 2 ^ 2 - 1 by rfl, Nat.and_two_pow_sub_one_eq_mod]

theorem or_shiftLeft {num bits : Nat} (h : num < 2 ^ bits) (g : Nat) : num ||| (g <<< bits) = num + g * 2 ^ bits := by
  rw [Nat.or_comm, ← Nat.shiftLeft_add_eq_or_of_lt h, Nat.shiftLeft_eq, Nat.add_comm]

/-- One legal continuation byte (rule R58). -/
theorem parseContinuation_cons (type : SectorType) {bits num : Nat} (used : Nat) {c : Byte} (rest : List Byte)
    (h1 : bits < 32) (h2 : c.toNat % 128 * 2 ^ bits < 2 ^ 32) (h3 : num < 2 ^ bits) :
    parseContinuation type bits num used (c :: rest) =
      if 128 ≤ c.toNat then parseContinuation type (bits + 7) (num + c.toNat % 128 * 2 ^ bits) (used + 1) rest
      else ⟨used + 1, .ok (type, num + c.toNat % 128 * 2 ^ bits)⟩ := by
  rw [show parseContinuation type bits num used (c :: rest) =
    (if 32 ≤ bits ∨ ((c.toNat &&& 0x7F) <<< bits) >>> 32 ≠ 0 then ⟨used + 1, .error .headerOverlong⟩
     else if c.getLsbD 7 then parseContinuation type (bits + 7) (num ||| ((c.toNat &&& 0x7F) <<< bits)) (used + 1) rest
     else ⟨used + 1, .ok (type, num ||| ((c.toNat &&& 0x7F) <<< bits))⟩) by rw [parseContinuation]]
  simp only [and_127, or_shiftLeft h3, getLsbD_seven, decide_eq_true_eq]
  rw [if_neg]
  rw [Nat.shiftLeft_eq, Nat.shiftRight_eq_div_pow, Nat.div_eq_of_lt h2]
  omega

/-- A continuation byte that does not fit (rule R68). -/
theorem parseContinuation_overlong (type : SectorType) {bits num : Nat} (used : Nat) {c : Byte} (rest : List Byte)
    (h : 32 ≤ bits ∨ 2 ^ 32 ≤ c.toNat % 128 * 2 ^ bits) :
    parseContinuation type bits num used (c :: rest) = ⟨used + 1, .error .headerOverlong⟩ := by
  unfold parseContinuation
  simp only [and_127]
  rw [if_pos]
  rcases h with h | h
  · exact .inl h
  · right
    rw [Nat.shiftLeft_eq, Nat.shiftRight_eq_div_pow]
    have : 1 ≤ c.toNat % 128 * 2 ^ bits / 2 ^ 32 := (Nat.le_div_iff_mul_le (by decide)).2 (by omega)
    omega

/-- The first header byte (rule R58). -/
theorem parseHeader_cons (c : Byte) (rest : List Byte) : parseHeader (c :: rest) =
    if 128 ≤ c.toNat then parseContinuation (sectorTypeOfBits (c.toNat % 4)) 5 (c.toNat / 4 % 32) 1 rest
    else ⟨1, .ok (sectorTypeOfBits (c.toNat % 4), c.toNat / 4 % 32)⟩ := by
  unfold parseHeader
  simp only [and_3, shiftRight_and, getLsbD_seven, decide_eq_true_eq]

theorem continuationByte_toNat (v : Nat) :
    (continuationByte v).toNat = (if 128 ≤ v then 128 else 0) + v % 128 := by
  unfold continuationByte
  rw [and_127, BitVec.toNat_ofNat]
  have hm : v % 128 < 2 ^ 7 := Nat.mod_lt _ (by decide)
  split
  · have := Nat.shiftLeft_add_eq_or_of_lt hm 1
    rw [show (1 <<< 7 : Nat) = 0x80 by rfl] at this
    rw [← this]; omega
  · simp; omega

/-- The continuation bytes of a value are read back (rules R57, R58). -/
theorem parseContinuation_continuationBytes (type : SectorType) (rest : List Byte) : ∀ (rounds v bits num used : Nat),
    v ≠ 0 → v < 2 ^ (7 * rounds) → v * 2 ^ bits < 2 ^ 32 → num < 2 ^ bits →
    parseContinuation type bits num used (continuationBytes rounds v ++ rest) =
      ⟨used + (continuationBytes rounds v).length, .ok (type, num + v * 2 ^ bits)⟩ := by
  intro rounds
  induction rounds with
  | zero => intro v bits num used h0 h1; simp at h1; exact absurd h1 h0
  | succ n ih =>
    intro v bits num used h0 h1 h2 h3
    have hb : bits < 32 := by
      by_contra hc
      have : 2 ^ 32 ≤ 2 ^ bits := Nat.pow_le_pow_right (by decide) (by omega)
      have := Nat.le_mul_of_pos_left (2 ^ bits) (show 0 < v by omega)
      omega
    unfold continuationBytes
    rw [if_neg h0, List.cons_append]
    have ht := continuationByte_toNat v
    have hm : v % 128 < 128 := Nat.mod_lt _ (by decide)
    have hdm : v / 128 * 128 + v % 128 = v := Nat.div_add_mod' v 128
    have hcm : (continuationByte v).toNat % 128 = v % 128 := by rw [ht]; split <;> omega
    have hle : v % 128 * 2 ^ bits ≤ v * 2 ^ bits := Nat.mul_le_mul_right _ (Nat.mod_le _ _)
    rw [parseContinuation_cons type used _ hb (by rw [hcm]; omega) h3, hcm]
    have hsh : v >>> 7 = v / 128 := Nat.shiftRight_eq_div_pow v 7
    rw [hsh]
    have hmul : v % 128 * 2 ^ bits + v / 128 * 2 ^ (bits + 7) = v * 2 ^ bits := by
      conv_rhs => rw [← hdm]
      rw [Nat.pow_add, Nat.add_mul, show (2 : Nat) ^ 7 = 128 by rfl, Nat.mul_comm (2 ^ bits) 128, ← Nat.mul_assoc]
      omega
    by_cases hv : 128 ≤ v
    · rw [if_pos (by rw [ht, if_pos hv]; omega)]
      rw [ih (v / 128) (bits + 7) _ _ (by omega) ?_ (by omega) ?_]
      · rw [List.length_cons, Nat.add_assoc num, hmul, show used + 1 + (continuationBytes n (v / 128)).length =
          used + ((continuationBytes n (v / 128)).length + 1) by omega]
      · rw [show 7 * (n + 1) = 7 * n + 7 by omega, Nat.pow_add] at h1
        exact Nat.div_lt_of_lt_mul (by rw [Nat.mul_comm]; exact h1)
      · rw [Nat.pow_add]
        have : v % 128 * 2 ^ bits ≤ 127 * 2 ^ bits := Nat.mul_le_mul_right _ (by omega)
        rw [show (2 : Nat) ^ 7 = 128 by rfl]
        omega
    · rw [if_neg (by rw [ht, if_neg hv]; omega)]
      have hz : v / 128 = 0 := Nat.div_eq_of_lt (by omega)
      rw [hz, Nat.zero_mul, Nat.add_zero] at hmul
      rw [hz, hmul]
      have : continuationBytes n 0 = [] := by cases n <;> rfl
      rw [this]; rfl

theorem sectorTypeOfBits_tag (type : SectorType) : sectorTypeOfBits type.tag = type := by cases type <;> rfl

theorem tag_lt (type : SectorType) : type.tag < 4 := by cases type <;> decide

/-- The value of the first byte `emit_header` writes (rule R57). -/
theorem firstByte_toNat (type : SectorType) (v : Nat) :
    (BitVec.ofNat 8 ((if 32 ≤ v then 0x80 else 0) ||| ((v &&& 31) <<< 2) ||| type.tag)).toNat =
      (if 32 ≤ v then 128 else 0) + v % 32 * 4 + type.tag := by
  have h1 : v &&& 31 = v % 32 := by
    rw [show (31 : Nat) = 2 ^ 5 - 1 by rfl, Nat.and_two_pow_sub_one_eq_mod]
  have h2 : v % 32 < 32 := Nat.mod_lt _ (by decide)
  have h3 := tag_lt type
  have h4 : ((v % 32) <<< 2) < 2 ^ 7 := by rw [Nat.shiftLeft_eq]; omega
  have h5 : ∀ b : Nat, (b <<< 7 ||| (v % 32) <<< 2) ||| type.tag = b * 128 + v % 32 * 4 + type.tag := by
    intro b
    rw [← Nat.shiftLeft_add_eq_or_of_lt h4]
    have h6 : b <<< 7 + (v % 32) <<< 2 = (b * 32 + v % 32) <<< 2 := by
      simp only [Nat.shiftLeft_eq]; omega
    rw [h6, ← Nat.shiftLeft_add_eq_or_of_lt (show type.tag < 2 ^ 2 by omega), Nat.shiftLeft_eq]; omega
  rw [h1, BitVec.toNat_ofNat]
  split
  · have := h5 1
    rw [show (1 <<< 7 : Nat) = 0x80 by rfl] at this
    rw [this]; omega
  · have := h5 0
    rw [show (0 <<< 7 : Nat) = 0 by rfl] at this
    rw [this]; omega

/-- The header the encoder writes is read back, whatever follows it (rules R57, R58). -/
theorem parseHeader_headerBytes (type : SectorType) (count : Word) (rest : List Byte) :
    parseHeader (headerBytes type count ++ rest) =
      ⟨(headerBytes type count).length, .ok (type, (count - 1).toNat)⟩ := by
  unfold headerBytes
  simp only
  generalize hv : (count - 1).toNat = v
  have hlt : v < 2 ^ 32 := by rw [← hv]; exact (count - 1).isLt
  have hf := firstByte_toNat type v
  have h3 := tag_lt type
  have h2 : v % 32 < 32 := Nat.mod_lt _ (by decide)
  rw [List.cons_append, parseHeader_cons, hf]
  have e1 : ((if 32 ≤ v then 128 else 0) + v % 32 * 4 + type.tag) % 4 = type.tag := by split <;> omega
  have e2 : ((if 32 ≤ v then 128 else 0) + v % 32 * 4 + type.tag) / 4 % 32 = v % 32 := by split <;> omega
  have hsh : v >>> 5 = v / 32 := Nat.shiftRight_eq_div_pow v 5
  rw [e1, e2, sectorTypeOfBits_tag, hsh]
  by_cases h : 32 ≤ v
  · rw [if_pos (by rw [if_pos h]; omega), parseContinuation_continuationBytes type rest 5 (v / 32) 5 (v % 32) 1
      (by omega) (by omega) (by omega) (by omega)]
    rw [List.length_cons, Nat.add_comm 1]
    rw [show v % 32 + v / 32 * 2 ^ 5 = v by omega]
  · rw [if_neg (by rw [if_neg h]; omega)]
    rw [show v / 32 = 0 by omega, show v % 32 = v by omega]
    rfl

end Sys2Proof
end

