-- ==== Sys2Proof/Laws/PerInstr.lean ====
section
/-!
SUPPORT. One statement per instruction about its encoding: the first byte of what `encode` writes (a command's code, a
record header's first byte) has the bits the opcode table fixes for that instruction (rules R60, R66, R72).
-/

namespace Sys2Proof.Laws.EncodedForm

open Sys2Proof

/-- The columns `match` and `mask` of the opcode table. -/
def tableRow : Instr → Byte × Byte
  | .buildTables => (0x00, 0xFF)
  | .gfDouble _ => (0x01, 0xFF)
  | .gfDiv3 _ => (0x02, 0xFF)
  | .ckLookup _ => (0x03, 0xFF)
  | .fold _ _ => (0x04, 0xFF)
  | .process _ _ => (0x08, 0xFF)
  | .generateParity _ _ => (0x09, 0xFF)
  | .classify _ _ _ => (0x0C, 0xFF)
  | .encode => (0x10, 0xFF)
  | .decode => (0x11, 0xFF)
  | .lit _ => (0x00, 0x03)
  | .m1 _ => (0x01, 0x03)
  | .m2f1 _ => (0x02, 0x03)
  | .m2f2 _ => (0x03, 0x03)
  | .endRecord => (0xFC, 0xFF)

/-- The first byte of an encoded instruction. -/
def firstByte : Encoded → Option Byte
  | .command c => some c.code
  | .record header => header.head?

/-- The first byte of the encoding matches the instruction's row of the opcode table. -/
def Statement (i : Instr) : Prop :=
  (firstByte (Sys2Proof.encode i)).map (fun b => b &&& (tableRow i).2) = some (tableRow i).1

/-- The type bits of a header are the tag of its type, whatever the count. -/
theorem firstByte_headerBytes (type : SectorType) (count : Word) :
    ((headerBytes type count).head?).map (fun b => b &&& 0x03) = some (BitVec.ofNat 8 type.tag) := by
  have h := firstByte_toNat type (count - 1).toNat
  have ht := tag_lt type
  refine congrArg some (BitVec.eq_of_toNat_eq ?_)
  rw [BitVec.toNat_and, h, show (0x03 : Byte).toNat = 3 by rfl, and_3, BitVec.toNat_ofNat]
  split <;> omega

/-- A command's first byte is its code, all of whose bits are fixed. -/
theorem of_code {i : Instr} (h : firstByte (Sys2Proof.encode i) = some (tableRow i).1)
    (hm : (tableRow i).2 = 0xFF) : Statement i := by
  unfold Statement
  rw [h, hm, Option.map_some, show ∀ b : Byte, b &&& 0xFF = b by decide]

theorem buildTables : Statement .buildTables := of_code rfl rfl
theorem gfDouble (x : Byte) : Statement (.gfDouble x) := of_code rfl rfl
theorem gfDiv3 (x : Byte) : Statement (.gfDiv3 x) := of_code rfl rfl
theorem ckLookup (x : Byte) : Statement (.ckLookup x) := of_code rfl rfl
theorem fold (ck : Word) (bytes : List Byte) : Statement (.fold ck bytes) := of_code rfl rfl
theorem process (layer : Layer) (mode : EccMode) : Statement (.process layer mode) := of_code rfl rfl
theorem generateParity (zeroAddress : Bool) (mode : EccMode) : Statement (.generateParity zeroAddress mode) := of_code rfl rfl
theorem classify (window : List Byte) (windowLen : Nat) (allowMode1 : Bool) :
    Statement (.classify window windowLen allowMode1) := of_code rfl rfl
theorem encode : Statement .encode := of_code rfl rfl
theorem decode : Statement .decode := of_code rfl rfl
theorem lit (count : Nat) : Statement (.lit count) := firstByte_headerBytes .literal _
theorem m1 (count : Nat) : Statement (.m1 count) := firstByte_headerBytes .mode1 _
theorem m2f1 (count : Nat) : Statement (.m2f1 count) := firstByte_headerBytes .mode2form1 _
theorem m2f2 (count : Nat) : Statement (.m2f2 count) := firstByte_headerBytes .mode2form2 _
theorem endRecord : Statement .endRecord := of_code rfl rfl

end Sys2Proof.Laws.EncodedForm
end

