-- ==== Sys2Proof/Laws/Step.lean ====
section
/-!
SUPPORT. What one step can do: one equation per engine state and per action of the host, and a step at a record
boundary as one round of `decode`.
-/

namespace Sys2Proof.Machine

theorem step_idle_nil {s : State} (h : s.engine = .idle) (h' : s.host = []) : step s = .next s := by
  unfold step; rw [h, h']

theorem step_host {s : State} {event : HostEvent} {rest : List HostEvent} (h : s.engine = .idle)
    (h' : s.host = event :: rest) : step s = hostStep event (s.popHost rest) := by
  unfold step; rw [h, h']

theorem step_records {s : State} (h : s.engine = .records) : step s = recordStep s := by
  unfold step; rw [h]

theorem step_trailer {s : State} (h : s.engine = .trailer) : step s = .next (runTrailer s) := by
  unfold step; rw [h]

theorem startCommand_ok {c : Command} {i : Instr} (h : decodeCommand c = .ok i) (s : State) :
    startCommand c s = exec i s := by unfold startCommand; rw [h]

/-- Everything `build_tables` does (rule R76). -/
theorem exec_buildTables (s : State) : exec .buildTables s =
    .next { s with tables := buildAll s.tables, tblValid := true, result := .none } := by
  show execBuildTables s = _
  unfold execBuildTables
  generalize buildAll s.tables = t
  rfl

/-! ## Each operation while the tables are built -/

theorem exec_gfDouble {s : State} (h : s.tblValid = true) (x : Byte) :
    exec (.gfDouble x) s = .next { s with result := .byte (s.tables.double x) } := congrArg _ (whenReady_ready h _)

theorem exec_gfDiv3 {s : State} (h : s.tblValid = true) (x : Byte) :
    exec (.gfDiv3 x) s = .next { s with result := .byte (s.tables.div3 x) } := congrArg _ (whenReady_ready h _)

theorem exec_ckLookup {s : State} (h : s.tblValid = true) (x : Byte) :
    exec (.ckLookup x) s = .next { s with result := .word (s.tables.check x) } := congrArg _ (whenReady_ready h _)

theorem exec_fold {s : State} (h : s.tblValid = true) (ck : Word) (bytes : List Byte) :
    exec (.fold ck bytes) s = .next { s with result := .word (s.tables.fold ck bytes) } :=
  congrArg _ (whenReady_ready h _)

theorem exec_process {s : State} (h : s.tblValid = true) (l : Layer) (mode : EccMode) :
    exec (.process l mode) s = .next { s with
      ecc := (processFrame s.tables l mode s.ecc s.frame).regs
      frame := (processFrame s.tables l mode s.ecc s.frame).frame
      result := .ok (processFrame s.tables l mode s.ecc s.frame).ok } := congrArg _ (whenReady_ready h _)

theorem exec_generateParity {s : State} (h : s.tblValid = true) (z : Bool) (mode : EccMode) :
    exec (.generateParity z mode) s = .next { s with
      ecc := (generateParityFrame s.tables z mode s.ecc s.frame).regs
      frame := (generateParityFrame s.tables z mode s.ecc s.frame).frame
      result := .ok (generateParityFrame s.tables z mode s.ecc s.frame).ok } := congrArg _ (whenReady_ready h _)

theorem exec_classify {s : State} (h : s.tblValid = true) (w : List Byte) (n : Nat) (allow : Bool) :
    exec (.classify w n allow) s = .next { s with
      cls := (classifyWindow s.tables (fullWindow s.draws w n) n allow s.cls s.ecc).cls
      ecc := (classifyWindow s.tables (fullWindow s.draws w n) n allow s.cls s.ecc).ecc
      draws := if windowShort w n then s.draws + 1 else s.draws
      result := .sector (classifyWindow s.tables (fullWindow s.draws w n) n allow s.cls s.ecc).type } :=
  congrArg _ (whenReady_ready h _)

theorem exec_encode {s : State} (h : s.tblValid = true) : exec .encode s = .next (encodeRun s) :=
  congrArg _ (whenReady_ready h _)

theorem exec_decode {s : State} (h : s.tblValid = true) : exec .decode s = .next (decodeRun s) :=
  congrArg _ (whenReady_ready h _)

/-- Every instruction but `build_tables` and `END` is refused before the tables are built (rule R171). -/
theorem exec_notReady {s : State} (h : s.tblValid = false) {i : Instr} (h1 : i ≠ .buildTables) (h2 : i ≠ .endRecord) :
    exec i s = .next (raise .notReady s) := by
  cases i <;> first | exact absurd rfl h1 | exact absurd rfl h2 | exact congrArg _ (whenReady_notReady h _)

/-- The records of a `decode`, run while the tables are built. -/
theorem exec_recordOf {s : State} (h : s.tblValid = true) (type : SectorType) (n : Nat) :
    exec (recordOf type n) s = .next (runRecord type n s) := by
  cases type <;> exact congrArg _ (whenReady_ready h _)

/-- A step at a record boundary is one round of `decode` (rule R160). -/
theorem recordStep_eq {s : State} (h : s.tblValid = true) : recordStep s = .next (recordRound s) := by
  unfold recordStep recordRound
  rcases fetchHeader_cases s with ⟨f, -, e⟩ | ⟨x, -, e⟩
  · rw [e]
    simp only
    unfold recordOfHeader
    by_cases h1 : f.2 = 0xFFFFFFFF
    · rw [if_pos h1, if_pos h1]; rfl
    · rw [if_neg h1, if_neg h1]
      by_cases h2 : 0x80000000 ≤ f.2 + 1
      · rw [if_pos h2, if_pos h2]; rfl
      · rw [if_neg h2, if_neg h2]
        exact exec_recordOf (by exact h) _ _
  · rw [e]

end Sys2Proof.Machine
end

