-- ==== Sys2Proof/Laws/Tables.lean ====
section
/-!
SUPPORT. What `build_tables` leaves: the contents of rules R77, R79 and R81, whatever the tables held, and that these
contents are one definite value (rules R31, R32).
-/

namespace Sys2Proof.Machine

/-- One of the three component loops of `build_tables`. -/
theorem buildAll_eq (t : Tables) : buildAll t =
    ⟨(List.range 256).foldl (fun l i => l.set i (BitVec.ofNat 8 (doubled i))) t.f,
     (List.range 256).foldl (fun l i => l.set (i ^^^ doubled i) (BitVec.ofNat 8 i)) t.b,
     (List.range 256).foldl (fun l i => l.set i (checkEntry i)) t.e⟩ := by
  unfold buildAll
  generalize List.range 256 = is
  induction is generalizing t with
  | nil => rfl
  | cons i is ih => simp only [List.foldl_cons]; rw [ih]; rfl

theorem length_foldl_set {α : Type} (p : Nat → Nat) (v : Nat → α) (is : List Nat) : ∀ l : List α,
    (is.foldl (fun l i => l.set (p i) (v i)) l).length = l.length := by
  induction is with
  | nil => intro l; rfl
  | cons i is ih => intro l; rw [List.foldl_cons, ih, List.length_set]

/-- A loop that sets distinct places leaves each of them at the value written there. -/
theorem getD_foldl_set {α : Type} (d : α) (p : Nat → Nat) (v : Nat → α) (is : List Nat)
    (hinj : ∀ i ∈ is, ∀ j ∈ is, p i = p j → v i = v j) : ∀ l : List α, (∀ i ∈ is, p i < l.length) → ∀ j ∈ is,
    (is.foldl (fun l i => l.set (p i) (v i)) l).getD (p j) d = v j := by
  -- an untouched place keeps its value
  have keep : ∀ (ks : List Nat) (l : List α) (x : α) (k : Nat), (∀ i ∈ ks, p i = k → v i = x) → k < l.length →
      l.getD k d = x → (ks.foldl (fun l i => l.set (p i) (v i)) l).getD k d = x := by
    intro ks
    induction ks with
    | nil => intro l x k _ _ h; exact h
    | cons i ks ih =>
      intro l x k hk hl h
      rw [List.foldl_cons]
      refine ih _ x k (fun i hi => hk i (List.mem_cons_of_mem _ hi)) (by rwa [List.length_set]) ?_
      rw [List.getD_eq_getElem?_getD, List.getElem?_set]
      split
      · rename_i hik
        rw [if_pos (hik ▸ hl)]
        exact hk i (by simp) hik
      · rw [← List.getD_eq_getElem?_getD]; exact h
  induction is with
  | nil => intro l _ j hj; simp at hj
  | cons i is ih =>
    intro l hl j hj
    rw [List.foldl_cons]
    have hl' : ∀ k ∈ is, p k < (l.set (p i) (v i)).length := fun k hk => by
      rw [List.length_set]; exact hl k (List.mem_cons_of_mem _ hk)
    rcases List.mem_cons.1 hj with rfl | hj
    · refine keep is _ _ _ (fun k hk hkj => hinj k (List.mem_cons_of_mem _ hk) j (by simp) hkj) ?_ ?_
      · rw [List.length_set]; exact hl j (by simp)
      · rw [List.getD_eq_getElem?_getD, List.getElem?_set_self (hl j (by simp))]; rfl
    · exact ih (fun a ha b hb => hinj a (List.mem_cons_of_mem _ ha) b (List.mem_cons_of_mem _ hb)) _ hl' j hj

set_option maxRecDepth 20000 in
theorem doubled_lt : ∀ i < 256, doubled i < 256 := by decide

set_option maxRecDepth 20000 in
theorem doubled_eq : ∀ i < 256, doubled i = (i <<< 1) ^^^ (if 128 ≤ i then 0x11D else 0) := by decide

set_option maxRecDepth 20000 in
/-- `i ^ F[i]` is an index of a table (rule R80). -/
theorem tripled_lt : ∀ i < 256, i ^^^ doubled i < 256 := by decide

set_option maxRecDepth 20000 in
/-- The indices `i ^ F[i]` are all different (rules R76, R80). -/
theorem tripled_nodup : ((List.range 256).map fun i => i ^^^ doubled i).Nodup := by decide

theorem tripled_injective {i j : Nat} (hi : i < 256) (hj : j < 256) (h : i ^^^ doubled i = j ^^^ doubled j) : i = j :=
  List.inj_on_of_nodup_map tripled_nodup (List.mem_range.2 hi) (List.mem_range.2 hj) h

/-- `build_tables` on tables of the right size leaves the contents of rules R77, R79, R81. -/
theorem buildAll_built {t : Tables} (h : t.Sized) : (buildAll t).Built := by
  obtain ⟨hf, hb, he⟩ := h
  rw [buildAll_eq]
  have mem : ∀ i < 256, i ∈ List.range 256 := fun i hi => List.mem_range.2 hi
  have lt : ∀ i ∈ List.range 256, i < 256 := fun i hi => List.mem_range.1 hi
  have same : ∀ {α : Type} (v : Nat → α), ∀ i ∈ List.range 256, ∀ j ∈ List.range 256,
      (fun k : Nat => k) i = (fun k : Nat => k) j → v i = v j := fun v i _ j _ h => congrArg v h
  have distinct : ∀ i ∈ List.range 256, ∀ j ∈ List.range 256, i ^^^ doubled i = j ^^^ doubled j →
      BitVec.ofNat 8 i = BitVec.ofNat 8 j := fun i hi j hj h => by rw [tripled_injective (lt i hi) (lt j hj) h]
  generalize List.range 256 = is at *
  have inF : ∀ i < 256, (is.foldl (fun l i => l.set i (BitVec.ofNat 8 (doubled i))) t.f).getD i 0
      = BitVec.ofNat 8 (doubled i) := fun i hi =>
    getD_foldl_set 0 (fun k => k) _ is (same _) t.f (fun i hi => by rw [hf]; exact lt i hi) i (mem i hi)
  have toF : ∀ i < 256, (BitVec.ofNat 8 (doubled i)).toNat = doubled i := fun i hi => by
    rw [BitVec.toNat_ofNat, Nat.mod_eq_of_lt (doubled_lt i hi)]
  refine ⟨⟨?_, ?_, ?_⟩, fun i hi => ?_, fun i hi => ?_, fun i hi => ?_⟩
  · exact (length_foldl_set (fun k => k) _ is t.f).trans hf
  · exact (length_foldl_set (fun i => i ^^^ doubled i) _ is t.b).trans hb
  · exact (length_foldl_set (fun k => k) _ is t.e).trans he
  · rw [inF i hi, toF i hi, doubled_eq i hi]
  · rw [inF i hi, toF i hi]
    exact getD_foldl_set 0 (fun i => i ^^^ doubled i) _ is distinct t.b
      (fun i hi => by rw [hb]; exact tripled_lt i (lt i hi)) i (mem i hi)
  · exact getD_foldl_set 0 (fun k => k) checkEntry is (same _) t.e (fun i hi => by rw [he]; exact lt i hi) i (mem i hi)

set_option maxRecDepth 20000 in
/-- Every byte is `i ^ F[i]` for some `i` (rule R80). -/
theorem tripled_surjective : ∀ x < 256, ∃ i < 256, i ^^^ doubled i = x := by
  have h : ∀ x ∈ List.range 256, x ∈ (List.range 256).map fun i => i ^^^ doubled i := by
    have hp := List.subperm_of_subset (l₂ := List.range 256) tripled_nodup fun x hx => by
      obtain ⟨i, hi, rfl⟩ := List.mem_map.1 hx
      exact List.mem_range.2 (tripled_lt i (List.mem_range.1 hi))
    intro x hx
    exact ((List.Subperm.perm_of_length_le hp (by simp)).mem_iff).2 hx
  intro x hx
  obtain ⟨i, hi, hix⟩ := List.mem_map.1 (h x (List.mem_range.2 hx))
  exact ⟨i, List.mem_range.1 hi, hix⟩

/-- The built contents are one definite value (rule R32). -/
theorem Tables.Built.unique {t u : Tables} (ht : t.Built) (hu : u.Built) : t = u := by
  obtain ⟨⟨tf, tb, te⟩, t1, t2, t3⟩ := ht
  obtain ⟨⟨uf, ub, ue⟩, u1, u2, u3⟩ := hu
  have hf : t.f = u.f := bytes_ext (by rw [tf, uf]) fun i hi => by
    rw [tf] at hi
    exact BitVec.eq_of_toNat_eq (by rw [t1 i hi, u1 i hi])
  have hb : t.b = u.b := bytes_ext (by rw [tb, ub]) fun x hx => by
    rw [tb] at hx
    obtain ⟨i, hi, rfl⟩ := tripled_surjective x hx
    have h1 := t2 i hi
    have h2 := u2 i hi
    rw [t1 i hi, ← doubled_eq i hi] at h1
    rw [u1 i hi, ← doubled_eq i hi] at h2
    rw [h1, h2]
  have he : t.e = u.e := List.ext_getElem (by rw [te, ue]) fun i h1 h2 => by
    rw [te] at h1
    have := (t3 i h1).trans (u3 i h1).symm
    simpa [List.getD_eq_getElem?_getD, h1, te, ue] using this
  cases t; cases u; simp_all

/-- On built tables `build_tables` changes nothing (rule R31). -/
theorem buildAll_of_built {t : Tables} (h : t.Built) : buildAll t = t := (buildAll_built h.1).unique h

end Sys2Proof.Machine
end

