-- ==== Sys2Proof/Tests/Slice0.lean ====
section
/-!
SUPPORT. Tests. Every expected value is printed in the spec: the section of 95_test_vectors.md or the rule is named at
the test. After the tests, one witness for each obligation that has hypotheses: a concrete state and operands that
meet all of them.
-/

namespace Sys2Proof.Tests

open Sys2Proof.Machine

set_option maxRecDepth 100000

/-! ## The state the tests start from -/

/-- Table `F` of 95_test_vectors.md section 2.1, a row of the file a line. -/
def specF : List Byte := List.flatten
  [[0x00, 0x02, 0x04, 0x06, 0x08, 0x0A, 0x0C, 0x0E, 0x10, 0x12, 0x14, 0x16, 0x18, 0x1A, 0x1C, 0x1E],
   [0x20, 0x22, 0x24, 0x26, 0x28, 0x2A, 0x2C, 0x2E, 0x30, 0x32, 0x34, 0x36, 0x38, 0x3A, 0x3C, 0x3E],
   [0x40, 0x42, 0x44, 0x46, 0x48, 0x4A, 0x4C, 0x4E, 0x50, 0x52, 0x54, 0x56, 0x58, 0x5A, 0x5C, 0x5E],
   [0x60, 0x62, 0x64, 0x66, 0x68, 0x6A, 0x6C, 0x6E, 0x70, 0x72, 0x74, 0x76, 0x78, 0x7A, 0x7C, 0x7E],
   [0x80, 0x82, 0x84, 0x86, 0x88, 0x8A, 0x8C, 0x8E, 0x90, 0x92, 0x94, 0x96, 0x98, 0x9A, 0x9C, 0x9E],
   [0xA0, 0xA2, 0xA4, 0xA6, 0xA8, 0xAA, 0xAC, 0xAE, 0xB0, 0xB2, 0xB4, 0xB6, 0xB8, 0xBA, 0xBC, 0xBE],
   [0xC0, 0xC2, 0xC4, 0xC6, 0xC8, 0xCA, 0xCC, 0xCE, 0xD0, 0xD2, 0xD4, 0xD6, 0xD8, 0xDA, 0xDC, 0xDE],
   [0xE0, 0xE2, 0xE4, 0xE6, 0xE8, 0xEA, 0xEC, 0xEE, 0xF0, 0xF2, 0xF4, 0xF6, 0xF8, 0xFA, 0xFC, 0xFE],
   [0x1D, 0x1F, 0x19, 0x1B, 0x15, 0x17, 0x11, 0x13, 0x0D, 0x0F, 0x09, 0x0B, 0x05, 0x07, 0x01, 0x03],
   [0x3D, 0x3F, 0x39, 0x3B, 0x35, 0x37, 0x31, 0x33, 0x2D, 0x2F, 0x29, 0x2B, 0x25, 0x27, 0x21, 0x23],
   [0x5D, 0x5F, 0x59, 0x5B, 0x55, 0x57, 0x51, 0x53, 0x4D, 0x4F, 0x49, 0x4B, 0x45, 0x47, 0x41, 0x43],
   [0x7D, 0x7F, 0x79, 0x7B, 0x75, 0x77, 0x71, 0x73, 0x6D, 0x6F, 0x69, 0x6B, 0x65, 0x67, 0x61, 0x63],
   [0x9D, 0x9F, 0x99, 0x9B, 0x95, 0x97, 0x91, 0x93, 0x8D, 0x8F, 0x89, 0x8B, 0x85, 0x87, 0x81, 0x83],
   [0xBD, 0xBF, 0xB9, 0xBB, 0xB5, 0xB7, 0xB1, 0xB3, 0xAD, 0xAF, 0xA9, 0xAB, 0xA5, 0xA7, 0xA1, 0xA3],
   [0xDD, 0xDF, 0xD9, 0xDB, 0xD5, 0xD7, 0xD1, 0xD3, 0xCD, 0xCF, 0xC9, 0xCB, 0xC5, 0xC7, 0xC1, 0xC3],
   [0xFD, 0xFF, 0xF9, 0xFB, 0xF5, 0xF7, 0xF1, 0xF3, 0xED, 0xEF, 0xE9, 0xEB, 0xE5, 0xE7, 0xE1, 0xE3]]

/-- Table `B` of section 2.2. -/
def specB : List Byte := List.flatten
  [[0x00, 0xF4, 0xF5, 0x01, 0xF7, 0x03, 0x02, 0xF6, 0xF3, 0x07, 0x06, 0xF2, 0x04, 0xF0, 0xF1, 0x05],
   [0xFB, 0x0F, 0x0E, 0xFA, 0x0C, 0xF8, 0xF9, 0x0D, 0x08, 0xFC, 0xFD, 0x09, 0xFF, 0x0B, 0x0A, 0xFE],
   [0xEB, 0x1F, 0x1E, 0xEA, 0x1C, 0xE8, 0xE9, 0x1D, 0x18, 0xEC, 0xED, 0x19, 0xEF, 0x1B, 0x1A, 0xEE],
   [0x10, 0xE4, 0xE5, 0x11, 0xE7, 0x13, 0x12, 0xE6, 0xE3, 0x17, 0x16, 0xE2, 0x14, 0xE0, 0xE1, 0x15],
   [0xCB, 0x3F, 0x3E, 0xCA, 0x3C, 0xC8, 0xC9, 0x3D, 0x38, 0xCC, 0xCD, 0x39, 0xCF, 0x3B, 0x3A, 0xCE],
   [0x30, 0xC4, 0xC5, 0x31, 0xC7, 0x33, 0x32, 0xC6, 0xC3, 0x37, 0x36, 0xC2, 0x34, 0xC0, 0xC1, 0x35],
   [0x20, 0xD4, 0xD5, 0x21, 0xD7, 0x23, 0x22, 0xD6, 0xD3, 0x27, 0x26, 0xD2, 0x24, 0xD0, 0xD1, 0x25],
   [0xDB, 0x2F, 0x2E, 0xDA, 0x2C, 0xD8, 0xD9, 0x2D, 0x28, 0xDC, 0xDD, 0x29, 0xDF, 0x2B, 0x2A, 0xDE],
   [0x8B, 0x7F, 0x7E, 0x8A, 0x7C, 0x88, 0x89, 0x7D, 0x78, 0x8C, 0x8D, 0x79, 0x8F, 0x7B, 0x7A, 0x8E],
   [0x70, 0x84, 0x85, 0x71, 0x87, 0x73, 0x72, 0x86, 0x83, 0x77, 0x76, 0x82, 0x74, 0x80, 0x81, 0x75],
   [0x60, 0x94, 0x95, 0x61, 0x97, 0x63, 0x62, 0x96, 0x93, 0x67, 0x66, 0x92, 0x64, 0x90, 0x91, 0x65],
   [0x9B, 0x6F, 0x6E, 0x9A, 0x6C, 0x98, 0x99, 0x6D, 0x68, 0x9C, 0x9D, 0x69, 0x9F, 0x6B, 0x6A, 0x9E],
   [0x40, 0xB4, 0xB5, 0x41, 0xB7, 0x43, 0x42, 0xB6, 0xB3, 0x47, 0x46, 0xB2, 0x44, 0xB0, 0xB1, 0x45],
   [0xBB, 0x4F, 0x4E, 0xBA, 0x4C, 0xB8, 0xB9, 0x4D, 0x48, 0xBC, 0xBD, 0x49, 0xBF, 0x4B, 0x4A, 0xBE],
   [0xAB, 0x5F, 0x5E, 0xAA, 0x5C, 0xA8, 0xA9, 0x5D, 0x58, 0xAC, 0xAD, 0x59, 0xAF, 0x5B, 0x5A, 0xAE],
   [0x50, 0xA4, 0xA5, 0x51, 0xA7, 0x53, 0x52, 0xA6, 0xA3, 0x57, 0x56, 0xA2, 0x54, 0xA0, 0xA1, 0x55]]

/-- Table `E` of section 2.3. -/
def specE : List Word := List.flatten
  [[0x00000000, 0x90910101, 0x91210201, 0x01B00300, 0x92410401, 0x02D00500, 0x03600600, 0x93F10701],
   [0x94810801, 0x04100900, 0x05A00A00, 0x95310B01, 0x06C00C00, 0x96510D01, 0x97E10E01, 0x07700F00],
   [0x99011001, 0x09901100, 0x08201200, 0x98B11301, 0x0B401400, 0x9BD11501, 0x9A611601, 0x0AF01700],
   [0x0D801800, 0x9D111901, 0x9CA11A01, 0x0C301B00, 0x9FC11C01, 0x0F501D00, 0x0EE01E00, 0x9E711F01],
   [0x82012001, 0x12902100, 0x13202200, 0x83B12301, 0x10402400, 0x80D12501, 0x81612601, 0x11F02700],
   [0x16802800, 0x86112901, 0x87A12A01, 0x17302B00, 0x84C12C01, 0x14502D00, 0x15E02E00, 0x85712F01],
   [0x1B003000, 0x8B913101, 0x8A213201, 0x1AB03300, 0x89413401, 0x19D03500, 0x18603600, 0x88F13701],
   [0x8F813801, 0x1F103900, 0x1EA03A00, 0x8E313B01, 0x1DC03C00, 0x8D513D01, 0x8CE13E01, 0x1C703F00],
   [0xB4014001, 0x24904100, 0x25204200, 0xB5B14301, 0x26404400, 0xB6D14501, 0xB7614601, 0x27F04700],
   [0x20804800, 0xB0114901, 0xB1A14A01, 0x21304B00, 0xB2C14C01, 0x22504D00, 0x23E04E00, 0xB3714F01],
   [0x2D005000, 0xBD915101, 0xBC215201, 0x2CB05300, 0xBF415401, 0x2FD05500, 0x2E605600, 0xBEF15701],
   [0xB9815801, 0x29105900, 0x28A05A00, 0xB8315B01, 0x2BC05C00, 0xBB515D01, 0xBAE15E01, 0x2A705F00],
   [0x36006000, 0xA6916101, 0xA7216201, 0x37B06300, 0xA4416401, 0x34D06500, 0x35606600, 0xA5F16701],
   [0xA2816801, 0x32106900, 0x33A06A00, 0xA3316B01, 0x30C06C00, 0xA0516D01, 0xA1E16E01, 0x31706F00],
   [0xAF017001, 0x3F907100, 0x3E207200, 0xAEB17301, 0x3D407400, 0xADD17501, 0xAC617601, 0x3CF07700],
   [0x3B807800, 0xAB117901, 0xAAA17A01, 0x3A307B00, 0xA9C17C01, 0x39507D00, 0x38E07E00, 0xA8717F01],
   [0xD8018001, 0x48908100, 0x49208200, 0xD9B18301, 0x4A408400, 0xDAD18501, 0xDB618601, 0x4BF08700],
   [0x4C808800, 0xDC118901, 0xDDA18A01, 0x4D308B00, 0xDEC18C01, 0x4E508D00, 0x4FE08E00, 0xDF718F01],
   [0x41009000, 0xD1919101, 0xD0219201, 0x40B09300, 0xD3419401, 0x43D09500, 0x42609600, 0xD2F19701],
   [0xD5819801, 0x45109900, 0x44A09A00, 0xD4319B01, 0x47C09C00, 0xD7519D01, 0xD6E19E01, 0x46709F00],
   [0x5A00A000, 0xCA91A101, 0xCB21A201, 0x5BB0A300, 0xC841A401, 0x58D0A500, 0x5960A600, 0xC9F1A701],
   [0xCE81A801, 0x5E10A900, 0x5FA0AA00, 0xCF31AB01, 0x5CC0AC00, 0xCC51AD01, 0xCDE1AE01, 0x5D70AF00],
   [0xC301B001, 0x5390B100, 0x5220B200, 0xC2B1B301, 0x5140B400, 0xC1D1B501, 0xC061B601, 0x50F0B700],
   [0x5780B800, 0xC711B901, 0xC6A1BA01, 0x5630BB00, 0xC5C1BC01, 0x5550BD00, 0x54E0BE00, 0xC471BF01],
   [0x6C00C000, 0xFC91C101, 0xFD21C201, 0x6DB0C300, 0xFE41C401, 0x6ED0C500, 0x6F60C600, 0xFFF1C701],
   [0xF881C801, 0x6810C900, 0x69A0CA00, 0xF931CB01, 0x6AC0CC00, 0xFA51CD01, 0xFBE1CE01, 0x6B70CF00],
   [0xF501D001, 0x6590D100, 0x6420D200, 0xF4B1D301, 0x6740D400, 0xF7D1D501, 0xF661D601, 0x66F0D700],
   [0x6180D800, 0xF111D901, 0xF0A1DA01, 0x6030DB00, 0xF3C1DC01, 0x6350DD00, 0x62E0DE00, 0xF271DF01],
   [0xEE01E001, 0x7E90E100, 0x7F20E200, 0xEFB1E301, 0x7C40E400, 0xECD1E501, 0xED61E601, 0x7DF0E700],
   [0x7A80E800, 0xEA11E901, 0xEBA1EA01, 0x7B30EB00, 0xE8C1EC01, 0x7850ED00, 0x79E0EE00, 0xE971EF01],
   [0x7700F000, 0xE791F101, 0xE621F201, 0x76B0F300, 0xE541F401, 0x75D0F500, 0x7460F600, 0xE4F1F701],
   [0xE381F801, 0x7310F900, 0x72A0FA00, 0xE231FB01, 0x71C0FC00, 0xE151FD01, 0xE0E1FE01, 0x7070FF00]]

/-- The three tables as section 2 prints them. -/
def specTables : Tables := ⟨specF, specB, specE⟩

/-- The start state of the spec's small programs (95_test_vectors.md section 8). -/
def ready : State := { State.reset with tables := specTables, tblValid := true }

/-- The next state of an outcome. -/
def after (o : Host.Outcome State Fault Refusal) : Option State :=
  match o with
  | .next s => some s
  | .fault _ => none
  | .refused _ => none

/-- A running `decode` at offset 0 of these bytes. -/
def inDecode (src : List Byte) : State := { ready with engine := .records, src := src }

/-- Vector E2 of section 7.2, in full. -/
def streamE2 : List Byte :=
  [0x45, 0x43, 0x4D, 0x00, 0x08, 0x41, 0x42, 0x43, 0xFC, 0xFF, 0xFF, 0xFF, 0x3F, 0xD3, 0x06, 0x04, 0x91]

/-- E2 with the last byte of its trailer changed (vector X5 of section 7.3). -/
def streamX5 : List Byte :=
  [0x45, 0x43, 0x4D, 0x00, 0x08, 0x41, 0x42, 0x43, 0xFC, 0xFF, 0xFF, 0xFF, 0x3F, 0xD3, 0x06, 0x04, 0x90]

theorem specTables_sized : specTables.Sized := by decide

theorem specTables_f : ∀ i < 256, (specTables.f.getD i 0).toNat = (i <<< 1) ^^^ (if 128 ≤ i then 0x11D else 0) := by
  decide

theorem specTables_b : ∀ i < 256, specTables.b.getD (i ^^^ (specTables.f.getD i 0).toNat) 0 = BitVec.ofNat 8 i := by
  decide

theorem specTables_e : ∀ i < 256, specTables.e.getD i 0 =
    Nat.repeat (fun r : Word => (r >>> 1) ^^^ (if r.getLsbD 0 then 0xD8018001#32 else 0#32)) 8 (BitVec.ofNat 32 i) := by
  decide

/-- The printed tables are those of rules R77, R79 and R81. -/
theorem specTables_built : specTables.Built := ⟨specTables_sized, specTables_f, specTables_b, specTables_e⟩

theorem ready_ready : ready.Ready := ⟨rfl, specTables_built⟩

/-! ## Well-formedness: an ill-formed term for each check, which the check refuses -/

/-- Rule R74: `window_len` is any natural number. -/
theorem test_wellFormed_classify_window : (Instr.classify [0x00] 2 true).wellFormed = true := by decide
theorem test_wellFormed_lit_zero : (Instr.lit 0).wellFormed = false := by decide
theorem test_wellFormed_lit_large : (Instr.lit 0x80000000).wellFormed = false := by decide
theorem test_wellFormed_m1_zero : (Instr.m1 0).wellFormed = false := by decide
theorem test_wellFormed_m1_large : (Instr.m1 0x80000000).wellFormed = false := by decide
theorem test_wellFormed_m2f1_zero : (Instr.m2f1 0).wellFormed = false := by decide
theorem test_wellFormed_m2f1_large : (Instr.m2f1 0x80000000).wellFormed = false := by decide
theorem test_wellFormed_m2f2_zero : (Instr.m2f2 0).wellFormed = false := by decide
theorem test_wellFormed_m2f2_large : (Instr.m2f2 0x80000000).wellFormed = false := by decide
theorem test_wellFormed_largest : (Instr.m1 0x7FFFFFFF).wellFormed = true := by decide

/-! ## Decoding: words written out from the tables of rules R55, R56 and R72 -/

theorem test_decode_buildTables : decodeCommand { code := 0b00000000#8 } = .ok .buildTables := by decide
theorem test_decode_gfDouble : decodeCommand { code := 0b00000001#8, x := 0x80 } = .ok (.gfDouble 0x80) := by decide
theorem test_decode_gfDiv3 : decodeCommand { code := 0b00000010#8, x := 0x9D } = .ok (.gfDiv3 0x9D) := by decide
theorem test_decode_ckLookup : decodeCommand { code := 0b00000011#8, x := 0x80 } = .ok (.ckLookup 0x80) := by decide
theorem test_decode_fold :
    decodeCommand { code := 0b00000100#8, ck := 7, bytes := [0x41] } = .ok (.fold 7 [0x41]) := by decide
theorem test_decode_process :
    decodeCommand { code := 0b00001000#8, geometry := true, mode := false } = .ok (.process .q .verify) := by decide
theorem test_decode_generateParity :
    decodeCommand { code := 0b00001001#8, zeroAddress := true, mode := true } = .ok (.generateParity true .write) := by
  decide
theorem test_decode_classify :
    decodeCommand { code := 0b00001100#8, window := [0x41], windowLen := 1, allowMode1 := true }
      = .ok (.classify [0x41] 1 true) := by decide
theorem test_decode_encode : decodeCommand { code := 0b00010000#8 } = .ok .encode := by decide
theorem test_decode_decode : decodeCommand { code := 0b00010001#8 } = .ok .decode := by decide
/-- `cont 0, n0 00010, type 00`: `LIT 3` (H5). -/
theorem test_decode_lit : decodeRecord [0b00001000#8] = (1, .ok (.lit 3)) := by decide
/-- `1 11111 01`, `0 1111111`: `M1 4096` (H9). -/
theorem test_decode_m1 : decodeRecord [0b11111101#8, 0b01111111#8] = (2, .ok (.m1 4096)) := by decide
/-- `1 11111 10`, `1 1111111`, `0 1111111`: `M2F1 0x80000` (H12). -/
theorem test_decode_m2f1 :
    decodeRecord [0b11111110#8, 0b11111111#8, 0b01111111#8] = (3, .ok (.m2f1 0x80000)) := by decide
/-- `1 00000 11`, `1 0000001`, `0 0000001`: `M2F2 4129` (H11). -/
theorem test_decode_m2f2 :
    decodeRecord [0b10000011#8, 0b10000001#8, 0b00000001#8] = (3, .ok (.m2f2 4129)) := by decide
/-- The sentinel (H17, rule R60). -/
theorem test_decode_endRecord : decodeRecord
    [0b11111100#8, 0b11111111#8, 0b11111111#8, 0b11111111#8, 0b00111111#8] = (5, .ok .endRecord) := by decide
/-- The largest legal header (H16) and the smallest count of a five-byte one (H15). -/
theorem test_decode_five_bytes :
    decodeRecord [0xF9, 0xFF, 0xFF, 0xFF, 0x1F] = (5, .ok (.m1 0x7FFFFFFF)) ∧
    decodeRecord [0x80, 0x80, 0x80, 0x80, 0x01] = (5, .ok (.lit 0x4000001)) := by decide
/-- Headers only a decoder sees: N1, N3, N5, N6, N8, N10, N12 of section 7.1. -/
theorem test_decode_decoder_only :
    decodeRecord [0x80, 0x00] = (2, .ok (.lit 1)) ∧
    decodeRecord [0xFD, 0xFF, 0xFF, 0xFF, 0x3F] = (5, .ok .endRecord) ∧
    decodeRecord [0xFC, 0xFF, 0xFF, 0xFF, 0x1F] = (5, .error .countIllegal) ∧
    decodeRecord [0xF8, 0xFF, 0xFF, 0xFF, 0x3F] = (5, .error .countIllegal) ∧
    decodeRecord [0xFC, 0xFF, 0xFF, 0xFF, 0x7F] = (5, .error .headerOverlong) ∧
    decodeRecord [0xFC, 0xFF, 0xFF, 0xFF, 0xBF, 0x00] = (6, .error .headerOverlong) ∧
    decodeRecord [0x80] = (1, .error .headerShort) := by decide
theorem test_decode_unknown_command : decodeCommand { code := 0x05#8 } = .error .unknownCommand := by decide
/-- The headers H2, H7, H10, H13, H14, H16 and H17 of section 7.1 as the encoder writes them. -/
theorem test_encode_headers :
    headerBytes .mode1 1 = [0x01] ∧ headerBytes .literal 33 = [0x80, 0x01] ∧
    headerBytes .mode1 4097 = [0x81, 0x80, 0x01] ∧ headerBytes .mode2form1 0x80001 = [0x82, 0x80, 0x80, 0x01] ∧
    headerBytes .literal 0x4000000 = [0xFC, 0xFF, 0xFF, 0x7F] ∧
    headerBytes .mode1 0x7FFFFFFF = [0xF9, 0xFF, 0xFF, 0xFF, 0x1F] ∧
    headerBytes .literal 0 = [0xFC, 0xFF, 0xFF, 0xFF, 0x3F] := by decide

/-! ## One step of each instruction -/

/-- Section 2: the tables in full. -/
theorem test_buildTables_tables :
    exec .buildTables State.reset = .next { State.reset with tables := specTables, tblValid := true } := by
  rw [exec_buildTables, (buildAll_built (by decide)).unique specTables_built]; rfl
/-- Program 5, step 3: `ERR` unchanged (6). -/
theorem test_buildTables_err : (after (exec .buildTables { State.reset with err := 6 })).map (·.err) = some 6 := by decide
/-- Program 5, step 4. -/
theorem test_gfDouble : (after (exec (.gfDouble 0x80) ready)).map (·.result) = some (.byte 0x1D) := by decide
/-- Program 5, step 1. -/
theorem test_gfDouble_notReady : (after (exec (.gfDouble 0x80) State.reset)).map (fun s => (s.err, s.result))
    = some (6, .error .notReady) := by decide
/-- Program 5, step 5. -/
theorem test_gfDiv3 : (after (exec (.gfDiv3 0x9D) ready)).map (·.result) = some (.byte 0x80) := by decide
/-- Program 5, step 6. -/
theorem test_ckLookup : (after (exec (.ckLookup 0x80) ready)).map (·.result) = some (.word 0xD8018001) := by decide
/-- Vector K14 of section 3. -/
theorem test_fold : (after (exec (.fold 0 [0x31, 0x32, 0x33, 0x34, 0x35, 0x36, 0x37, 0x38, 0x39]) ready)).map (·.result)
    = some (.word 0x6EC2EDC4) := by decide
/-- Vector K10 of section 3. -/
theorem test_fold_start : (after (exec (.fold 0x12345678 [0xAB]) ready)).map (·.result) = some (.word 0xF4A3E757) := by
  decide
/-- Vector P1 of section 4.2. -/
theorem test_process_write : (after (exec (.process .p .write) { ready with frame := [(0x00C, 0x01)] })).map
    (fun s => (s.result, s.frame)) = some (.ok true, [(0x00C, 0x01), (0x81C, 0xF5), (0x872, 0xF4)]) := by decide
/-- Vector Q2 of section 4.2: data byte 2235, the last of the Q layer. -/
theorem test_process_write_q : (after (exec (.process .q .write) { ready with frame := [(0x8C7, 0x80)] })).map
    (fun s => (s.result, s.frame)) = some (.ok true, [(0x8C7, 0x80), (0x8DB, 0x9D), (0x90F, 0x1D)]) := by decide
/-- Vector G1 of section 4.4: the Q layer covers the P bytes just written. -/
theorem test_generateParity_write :
    (after (exec (.generateParity false .write) { ready with frame := [(0x00C, 0x01)] })).map
      (fun s => (s.result, s.frame)) = some (.ok true, [(0x00C, 0x01), (0x81C, 0xF5), (0x872, 0xF4), (0x8C8, 0xAE),
        (0x8F8, 0x3F), (0x8FA, 0x91), (0x8FC, 0xAF), (0x92C, 0xCA), (0x92E, 0x65)]) := by decide
/-- Program 6, step 6: the address field reads as zero and keeps its value. -/
theorem test_generateParity_zeroAddress :
    (after (exec (.generateParity true .verify) { ready with frame := [(0x00C, 0x01), (0x00D, 0x01), (0x81C, 0xF5)] })).map
      (fun s => (s.result, s.frame)) = some (.ok false, [(0x00C, 0x01), (0x00D, 0x01), (0x81C, 0xF5)]) := by decide
/-- Vector L1 of section 6. -/
theorem test_classify_short : (after (exec (.classify (List.replicate 2335 0) 2335 true) ready)).map (·.result)
    = some (.sector .literal) := by decide
/-- Vector L2 of section 6. -/
theorem test_classify_zeros : (after (exec (.classify (List.replicate 2336 0) 2336 false) ready)).map (·.result)
    = some (.sector .mode2form1) := by decide
/-- Rules R74, R114, R115: a command that claims 2352 bytes and supplies twelve runs; no missing byte can make a sector
of a window with this head. -/
theorem test_classify_missing :
    (after (exec (.classify [1, 2, 3, 4, 5, 6, 7, 8, 9, 10, 11, 12] 2352 true) ready)).map (·.result)
      = some (.sector .literal) := by decide
/-- Vector E2 of section 7.2. -/
theorem test_encode : (after (exec .encode { ready with src := [0x41, 0x42, 0x43] })).map (fun s => (s.snk, s.stats))
    = some (streamE2, ⟨3, 0, 0, 0, 3, 17⟩) := by decide
/-- Vector X1 of section 7.3. -/
theorem test_decode_step : (after (exec .decode { ready with src := streamE2 })).map
    (fun s => (s.snk, s.err, s.dec.rpos)) = some ([0x41, 0x42, 0x43], 0, 17) := by decide
/-- Vector X5 of section 7.3. -/
theorem test_decode_mismatch : (after (exec .decode { ready with src := streamX5 })).map
    (fun s => (s.snk, s.err, s.dec.rpos)) = some ([0x41, 0x42, 0x43], 4, 17) := by decide
/-- Program 1: the record `LIT 3`. -/
theorem test_lit : (after (step (inDecode [0x08, 0x41, 0x42, 0x43]))).map (fun s => (s.snk, s.ck, s.dec.rpos))
    = some ([0x41, 0x42, 0x43], 0x910406D3, 4) := by decide
/-- Section 5.1: sector A from its payload, the bytes around the mode byte. -/
theorem test_m1 : (after (step (inDecode ([0x01, 0x00, 0x02, 0x00] ++ List.replicate 2048 0)))).map
    (fun s => (s.frame.read 0x00A, s.frame.read 0x00D, s.frame.read 0x00F, s.snk.length, s.dec.rpos))
      = some (0xFF, 0x02, 0x01, 2352, 2052) := by decide
/-- Section 5.2: the head of sector B, both address copies. -/
theorem test_m2f1 : (after (step (inDecode ([0x02, 0x00, 0x00, 0x08, 0x00] ++ List.replicate 2048 0)))).map
    (fun s => (s.frame.read 0x012, s.frame.read 0x016, s.snk.length, s.dec.rpos))
      = some (0x08, 0x08, 2336, 2053) := by decide
/-- Section 5.3: the head of sector C, both address copies. -/
theorem test_m2f2 : (after (step (inDecode ([0x03, 0x00, 0x00, 0x20, 0x00, 0x01, 0x04] ++ List.replicate 2322 0)))).map
    (fun s => (s.frame.read 0x012, s.frame.read 0x016, s.frame.read 0x019, s.snk.length, s.dec.rpos))
      = some (0x20, 0x20, 0x04, 2336, 2329) := by decide
/-- Vector X22 of section 7.3: the sentinel with type 1. -/
theorem test_endRecord : (after (step (inDecode [0xFD, 0xFF, 0xFF, 0xFF, 0x3F]))).map
    (fun s => (s.engine, s.snk, s.dec.rpos)) = some (.trailer, [], 5) := by decide
/-- Rule R72: an unknown code changes nothing. -/
theorem test_unknown_code :
    (after (step { ready with host := [.start { code := 0x05 }] })).map (fun s => (s.host, s.err, s.result))
      = some ([], 0, .none) := by decide

/-! ## Witnesses: states and operands that meet the hypotheses of each obligation -/

/-- A sector that meets the `Mode1` criteria. -/
def mode1Sector : List Byte :=
  (buildMode1 specTables (List.replicate 2051 0) State.reset.ecc []).frame.readBytes 0x000 2352

/-- A stream of one `LIT` record, as a record with its blocks. -/
def recordE2 : Spec.Record := ⟨.literal, [0x08], [[0x41], [0x42], [0x43]], [[0x41], [0x42], [0x43]]⟩

theorem recordE2_legal : recordE2.Legal specTables :=
  ⟨by decide, .cons ⟨rfl, rfl⟩ (.cons ⟨rfl, rfl⟩ (.cons ⟨rfl, rfl⟩ .nil))⟩

theorem records_legal : ∀ r ∈ [recordE2], r.Legal specTables := fun r hr => by
  rw [List.mem_singleton.1 hr]; exact recordE2_legal

theorem end_decodes : decodeRecord [0xFC, 0xFF, 0xFF, 0xFF, 0x3F] = (5, .ok .endRecord) := by decide

theorem witness_ResetLeavesTheBlockIdle :
    ({ ready with host := [.reset] } : State).engine = .idle ∧
    ({ ready with host := [.reset] } : State).host = .reset :: [] := ⟨rfl, rfl⟩

theorem witness_RegistersReadByNumber : 8 ≤ 8 ∧ ready.readRegister 8 = none := by decide

theorem witness_CommandCodesSelectTheOperation :
    (∀ code ∈ [0x00#8, 0x01#8, 0x02#8, 0x03#8, 0x04#8, 0x08#8, 0x09#8, 0x0C#8, 0x10#8, 0x11#8],
      ({ code := code } : Command).code = code) ∧
    (({ ready with host := [.start { code := 0x05 }] } : State).engine = .idle ∧
      ({ code := 0x05 } : Command).code ∉
        [0x00#8, 0x01#8, 0x02#8, 0x03#8, 0x04#8, 0x08#8, 0x09#8, 0x0C#8, 0x10#8, 0x11#8]) := by decide

theorem witness_StepRunsTheCommand :
    ({ ready with host := [.start { code := 0x10 }] } : State).engine = .idle ∧
    ({ ready with host := [.start { code := 0x10 }] } : State).host = .start { code := 0x10 } :: [] ∧
    Sys2Proof.decode (.command { code := 0x10 }) = .ok .encode := ⟨rfl, rfl, rfl⟩

theorem witness_StepRunsTheRecord :
    (inDecode [0x08, 0x41, 0x42, 0x43]).engine = .records ∧
    parseHeader (inDecode [0x08, 0x41, 0x42, 0x43]).readable = ⟨1, .ok (.literal, 2)⟩ ∧
    Sys2Proof.decode (.record (inDecode [0x08, 0x41, 0x42, 0x43]).readable) = .ok (.lit 3) := ⟨rfl, rfl, rfl⟩

theorem witness_HostActsBetweenOperations :
    ready.engine = .idle ∧ ready.host = [] ∧
    ({ ready with host := [.setSource [0x41]] } : State).host = .setSource [0x41] :: [] ∧
    ({ ready with host := [.setSink []] } : State).host = .setSink [] :: [] ∧
    ({ ready with host := [.failSource none] } : State).host = .failSource none :: [] ∧
    ({ ready with host := [.limitSink (some 0)] } : State).host = .limitSink (some 0) :: [] ∧
    (({ ready with host := [.writeFrame 0x930 1] } : State).host = .writeFrame 0x930 1 :: [] ∧ 0x930 ≤ 0x930) ∧
    (({ ready with host := [.writeFrame 0x92F 1] } : State).host = .writeFrame 0x92F 1 :: [] ∧ 0x92F < 0x930 ∧
      ready.frame.wf) := by decide

theorem witness_DecodeReturnsTheEncodedInstruction :
    (Instr.lit 0x7FFFFFFF).wellFormed = true ∧ (Instr.m2f2 1).wellFormed = true ∧
    Sys2Proof.encode (.m2f2 1) = .record [0x03] := by decide

theorem witness_HeaderLengthFollowsTheCount :
    headerBytes .literal 3 = [] ++ [0x08] ∧ headerBytes .literal 33 = [0x80] ++ [0x01] ∧
    headerBytes .literal 0 = [0xFC, 0xFF, 0xFF, 0xFF] ++ [0x3F] := by decide

theorem witness_HeaderFieldsAreAssembledLowFirst :
    (0x7F#8).getLsbD 7 = false ∧ (0xFF#8).getLsbD 7 = true ∧ (0x3F#8).getLsbD 7 = false ∧
    (0x3F#8).toNat % 128 < 64 := by decide

theorem witness_OverlongHeaderIsCorrupt :
    (0x80#8).getLsbD 7 = true ∧ (0x40#8).getLsbD 6 = true ∧ (0xBF#8).getLsbD 6 = false ∧ (0xBF#8).getLsbD 7 = true ∧
    (inDecode [0x80, 0x80, 0x80, 0x80, 0x40]).engine = .records ∧
    (parseHeader (inDecode [0x80, 0x80, 0x80, 0x80, 0x40]).readable).value = .error .headerOverlong :=
  ⟨rfl, rfl, rfl, rfl, rfl, rfl⟩

theorem witness_LongerHeaderIsAccepted :
    ([0x88#8, 0x80#8, 0x80#8] : List Byte).length ≤ 3 ∧
    parseHeader ([0x88, 0x80, 0x80] ++ 0x00 :: []) = ⟨4, .ok (.literal, 2)⟩ ∧
    parseHeader ([] ++ 0x08 :: [0x41]) = ⟨1, .ok (.literal, 2)⟩ ∧
    parseHeader ([0x88, 0x80, 0x80, 0x80, 0x00] ++ [0x41]) =
      ⟨([0x88#8, 0x80#8, 0x80#8, 0x80#8, 0x00#8] : List Byte).length, .ok (.literal, ((3 : Word) - 1).toNat)⟩ :=
  ⟨by decide, rfl, rfl, rfl⟩

theorem witness_HeaderSelectsTheRecord :
    0xFFFFFFFF < 2 ^ 32 ∧ 0xFFFFFFFE < 2 ^ 32 ∧ 0x7FFFFFFF ≤ 0xFFFFFFFE ∧ 0x7FFFFFFF ≤ 0x7FFFFFFF ∧
    0x7FFFFFFE < 0x7FFFFFFF ∧ (inDecode [0xFC, 0xFF, 0xFF, 0xFF, 0x1F]).engine = .records ∧
    parseHeader (inDecode [0xFC, 0xFF, 0xFF, 0xFF, 0x1F]).readable = ⟨5, .ok (.literal, 0x7FFFFFFF)⟩ :=
  ⟨by decide, by decide, by decide, by decide, by decide, rfl, rfl⟩

theorem witness_BuildTablesWritesTheThreeTables : State.reset.tables.Sized := by decide

theorem witness_TablesAreNeverChangedAfterwards :
    ready.Ready ∧ ∃ t, Instr.encode ≠ .buildTables ∧ exec .encode ready = .next t :=
  ⟨ready_ready, _, by decide, rfl⟩

theorem witness_DoublingTableProperties : specTables.Built := specTables_built
theorem witness_InverseTableProperties : specTables.Built := specTables_built
theorem witness_ChecksumTableProperties : specTables.Built := specTables_built

theorem witness_LookupsReturnTheEntry :
    ready.tblValid = true ∧ State.reset.tblValid = false ∧ ready.Ready ∧
    Instr.gfDiv3 0 ∈ [Instr.gfDouble 0, .gfDiv3 0, .ckLookup 0] := ⟨rfl, rfl, ready_ready, by decide⟩

theorem witness_FoldRunsTheChecksumLoop : ready.tblValid = true ∧ State.reset.tblValid = false ∧ ready.Ready :=
  ⟨rfl, rfl, ready_ready⟩

theorem witness_FoldComposes : ready.tblValid = true := rfl

theorem witness_FoldIsLinear : specTables.Built ∧ ([0x01#8] : List Byte).length = ([0xFE#8] : List Byte).length :=
  ⟨specTables_built, rfl⟩

theorem witness_ProcessVerifyComparesEveryParityByte : ready.tblValid = true ∧ 85 < Spec.majors .p ∧ 51 < Spec.majors .q := by
  decide

/-- The two frames of the second clause differ in the first byte of the `P` field only. -/
theorem witness_ProcessWriteOverwritesTheParityField :
    ready.tblValid = true ∧ ready.frame.wf ∧ (∃ t, exec (.process .p .write) ready = .next t) ∧
    (ready.frame.write 0x81C 0x55).wf ∧
    (∀ a, ¬Spec.InField .p a → ready.frame.read a = (ready.frame.write 0x81C 0x55).read a) ∧
    ∃ t, exec (.process .p .write) { ready with frame := ready.frame.write 0x81C 0x55 } = .next t := by
  refine ⟨rfl, by decide, ⟨_, rfl⟩, by decide, fun a ha => ?_, ⟨_, rfl⟩⟩
  rw [Memory.read_write (by decide : ready.frame.wf), if_neg (fun h => ha (by subst h; decide))]

theorem witness_GenerateParityVerifyAnswersForBothLayers : ready.tblValid = true ∧ ready.frame.wf := by decide
theorem witness_GenerateParityWritesBothFields : ready.tblValid = true ∧ ready.frame.wf := by decide

/-- Two frames that differ in the first byte of the address field only. -/
theorem witness_ZeroAddressHidesTheAddressField :
    ready.tblValid = true ∧ ready.frame.wf ∧ (ready.frame.write 0x00C 0x55).wf ∧
    ∀ a, ¬(0x00C ≤ a ∧ a < 0x010) → ready.frame.read a = (ready.frame.write 0x00C 0x55).read a := by
  refine ⟨rfl, by decide, by decide, fun a ha => ?_⟩
  rw [Memory.read_write (by decide : ready.frame.wf), if_neg (by omega)]

theorem witness_ParityIsLinear :
    specTables.Built ∧ (∀ a, Memory.read [] a = Memory.read [] a ^^^ Memory.read [] a) ∧ (∀ a, Memory.read [] a = 0) ∧
    ready.tblValid = true ∧ ready.frame.wf := by
  refine ⟨specTables_built, fun a => ?_, fun a => rfl, rfl, by decide⟩
  show (0#8) = 0#8 ^^^ 0#8
  decide

theorem verify_zeros : ∃ t, exec (.generateParity false .verify) ready = .next t ∧ t.result = .ok true :=
  ⟨_, rfl, by decide⟩

theorem witness_RegenerationLeavesTheFrame : ready.tblValid = true ∧ ready.frame.wf ∧
    ∃ t, exec (.generateParity false .verify) ready = .next t ∧ t.result = .ok true :=
  ⟨rfl, by decide, verify_zeros⟩

theorem witness_SingleWrongByteIsDetected : ready.tblValid = true ∧ ready.frame.wf ∧ 0x00C ≤ 0x92F ∧ 0x92F < 0x930 ∧
    (0x01 : Byte) ≠ ready.frame.read 0x92F ∧ (0x80 : Byte) ≠ ready.frame.read 0x00C ∧
    ∃ t, exec (.generateParity false .verify) ready = .next t ∧ t.result = .ok true :=
  ⟨rfl, by decide, by decide, by decide, by decide, by decide, verify_zeros⟩

/-- A window that is there in full, and one that lacks its last byte. -/
theorem witness_ClassifyDecidesByTheChecks :
    ready.tblValid = true ∧ State.reset.tblValid = false ∧ min 2352 2352 ≤ mode1Sector.length ∧
    (List.replicate 2351 (0#8)).length < min 2352 2352 :=
  ⟨rfl, rfl, by simp [mode1Sector], by rw [List.length_replicate]; decide⟩
theorem witness_ShortWindowIsLiteral : ready.tblValid = true ∧ 2335 < 2336 := by decide

theorem mode1Sector_window : Spec.Mode1Window specTables mode1Sector 2352 true := by
  obtain ⟨h0, h1, -, h3, -, h5, h6, h7⟩ :=
    buildMode1_sector specTables State.reset.ecc (m := []) (by decide) (pay := List.replicate 2051 0) (by simp)
  refine ⟨rfl, Nat.le_refl _, h1, h3, h6, h5, ?_⟩
  have h : mode1Sector.take 2352 = mode1Sector := List.take_of_length_le (Nat.le_of_eq h0)
  rw [h]
  exact h7

theorem witness_Mode1ExcludesMode2 :
    Spec.Mode1Window specTables mode1Sector 2352 true ∧ (candidates mode1Sector 2352 true).c1 = true ∧
    (candidates (List.replicate 8 0) 2336 true).c2 = true ∧ ready.tblValid = true ∧ 2336 ≤ 2336 := by
  obtain ⟨h1, h2, h3, h4, h5, -⟩ := mode1Sector_window
  exact ⟨mode1Sector_window, (candidates_eq _ _ _).1.2 ⟨⟨h1, h2⟩, h3, h4, h5⟩, by decide, rfl, Nat.le_refl _⟩

theorem witness_ClassifyReadsOnlyItsWindow :
    ready.tblValid = true ∧ min 2352 2352 ≤ mode1Sector.length ∧ min 5000 2352 ≤ mode1Sector.length ∧
    (2336 ≤ 2352 ↔ 2336 ≤ 5000) ∧ (2352 ≤ 2352 ↔ 2352 ≤ 5000) ∧
    mode1Sector.take (min 2352 2352) = mode1Sector.take (min 5000 2352) ∧
    slice ([] : List Byte) 0x00F 1 ≠ [0x01] ∧ ¬Spec.ChecksumAt specTables [] 0x810 ∧
    mode1Sector.take 2336 = mode1Sector.take 2336 ∧ min 5000 2336 ≤ mode1Sector.length := by
  refine ⟨rfl, by simp [mode1Sector], by simp [mode1Sector], by omega, by omega, rfl, by decide, by decide, rfl,
    by simp [mode1Sector]⟩

theorem witness_EmptySourceEncodes : ready.tblValid = true ∧ ready.NoIoFailure ∧ ready.src = [] :=
  ⟨rfl, ⟨rfl, rfl⟩, rfl⟩
theorem witness_EncodeWritesTheStream : ready.tblValid = true ∧ ready.NoIoFailure := ⟨rfl, ⟨rfl, rfl⟩⟩
theorem witness_EncodeCountsItsBlocks : ready.tblValid = true ∧ ready.NoIoFailure := ⟨rfl, ⟨rfl, rfl⟩⟩

theorem witness_EncodeFailsOnlyOnIo :
    ready.tblValid = true ∧ ready.NoIoFailure ∧
    (({ ready with src := [0x41], srcFail := some 0 } : State).srcFail = some 0 ∧ 0 < ([0x41#8] : List Byte).length) ∧
    (({ ready with snkCap := some 0 } : State).snkCap = some 0 ∧
      0 < (ready.snk ++ Spec.stream specTables ready.src).length) :=
  ⟨rfl, ⟨rfl, rfl⟩, ⟨rfl, by decide⟩, rfl, by simp [Spec.stream]⟩

theorem witness_ShortSourceIsOneLiteralRecord :
    ready.tblValid = true ∧ ready.NoIoFailure ∧ List.replicate 2335 (0x00#8) ≠ [] ∧
    (List.replicate 2335 (0x00#8)).length < 2336 ∧ ([0x41#8] : List Byte) ≠ [] :=
  ⟨rfl, ⟨rfl, rfl⟩, by simp, by simp, by simp⟩

theorem witness_DecodeNeedsTheMagic :
    ready.tblValid = true ∧ ready.NoIoFailure ∧ ([0x45#8, 0x43#8, 0x4D#8] : List Byte).length < 4 ∧
    ([0x45#8, 0x43#8, 0x4D#8, 0x01#8] : List Byte).take 4 ≠ [0x45, 0x43, 0x4D, 0x00] :=
  ⟨rfl, ⟨rfl, rfl⟩, by decide, by decide⟩

theorem witness_LitCopiesItsPayload :
    ready.tblValid = true ∧ ready.NoIoFailure ∧
    ({ ready with src := [0x41] } : State).dec.rpos + 1 ≤ ({ ready with src := [0x41] } : State).src.length ∧
    ({ ready with src := [0x41] } : State).src.length < ({ ready with src := [0x41] } : State).dec.rpos + 2 :=
  ⟨rfl, ⟨rfl, rfl⟩, by decide, by decide⟩

theorem witness_M1RebuildsItsSectors :
    ready.tblValid = true ∧ ready.NoIoFailure ∧ ready.frame.wf ∧
    ready.dec.rpos + 2051 * 1 ≤ (List.replicate 2051 (0#8)).length ∧ 1 ≤ 1 ∧
    (List.replicate 2050 (0#8)).length < ready.dec.rpos + 2051 * 1 :=
  ⟨rfl, ⟨rfl, rfl⟩, by decide, by simp [ready, State.reset], Nat.le_refl _, by simp [ready, State.reset]⟩

theorem witness_M2F1RebuildsItsSectors :
    ready.tblValid = true ∧ ready.NoIoFailure ∧ ready.frame.wf ∧
    ready.dec.rpos + 2052 * 1 ≤ (List.replicate 2052 (0#8)).length ∧ 1 ≤ 1 ∧
    (List.replicate 2051 (0#8)).length < ready.dec.rpos + 2052 * 1 :=
  ⟨rfl, ⟨rfl, rfl⟩, by decide, by simp [ready, State.reset], Nat.le_refl _, by simp [ready, State.reset]⟩

theorem witness_M2F2RebuildsItsSectors :
    ready.tblValid = true ∧ ready.NoIoFailure ∧ ready.frame.wf ∧
    ready.dec.rpos + 2328 * 1 ≤ (List.replicate 2328 (0#8)).length ∧ 1 ≤ 1 ∧
    (List.replicate 2327 (0#8)).length < ready.dec.rpos + 2328 * 1 :=
  ⟨rfl, ⟨rfl, rfl⟩, by decide, by simp [ready, State.reset], Nat.le_refl _, by simp [ready, State.reset]⟩

/-- A state before the trailer: matching, different, cut short. -/
def atTrailer (src : List Byte) : State := { ready with engine := .trailer, src := src, ck := 0x910406D3 }

theorem witness_TrailerIsCompared :
    (atTrailer [0xD3, 0x06, 0x04, 0x91]).engine = .trailer ∧ (atTrailer [0xD3, 0x06, 0x04, 0x91]).NoIoFailure ∧
    slice [0xD3, 0x06, 0x04, 0x91] 0 4 = le32 0x910406D3 ∧ slice [0xD3, 0x06, 0x04, 0x90] 0 4 ≠ le32 0x910406D3 ∧
    ([0xD3#8, 0x06#8, 0x04#8] : List Byte).length < 0 + 4 :=
  ⟨rfl, ⟨rfl, rfl⟩, by decide, by decide, by decide⟩

theorem witness_DecodeExecutesTheRecords :
    ready.tblValid = true ∧ ready.NoIoFailure ∧ ready.frame.wf ∧ (∀ r ∈ [recordE2], r.Legal specTables) ∧
    decodeRecord [0xFC, 0xFF, 0xFF, 0xFF, 0x3F] = (5, .ok .endRecord) ∧
    streamE2 ++ [0xDE, 0xAD] = Spec.streamOf [recordE2] [0xFC, 0xFF, 0xFF, 0xFF, 0x3F]
      (le32 (specTables.fold 0 (Spec.output [recordE2]))) ++ [0xDE, 0xAD] :=
  ⟨rfl, ⟨rfl, rfl⟩, by decide, records_legal, end_decodes, by decide⟩

theorem witness_CorruptedTrailerIsDetected :
    ready.tblValid = true ∧ ready.NoIoFailure ∧ ready.frame.wf ∧ (∀ r ∈ [recordE2], r.Legal specTables) ∧
    decodeRecord [0xFC, 0xFF, 0xFF, 0xFF, 0x3F] = (5, .ok .endRecord) ∧
    ([0xD3, 0x06, 0x04, 0x90] : List Byte).length = 4 ∧
    ([0xD3, 0x06, 0x04, 0x90] : List Byte) ≠ le32 (specTables.fold 0 (Spec.output [recordE2])) ∧
    streamX5 = Spec.streamOf [recordE2] [0xFC, 0xFF, 0xFF, 0xFF, 0x3F] [0xD3, 0x06, 0x04, 0x90] ++ [] :=
  ⟨rfl, ⟨rfl, rfl⟩, by decide, records_legal, end_decodes, rfl, by decide, by decide⟩

theorem witness_ShortReadsEndTheDecode :
    ((inDecode [0x80]).engine = .records ∧ (inDecode [0x80]).NoIoFailure ∧
      (parseHeader (inDecode [0x80]).readable).value = .error .headerShort) ∧
    (ready.frame.wf ∧ (∀ r ∈ [recordE2], r.Legal specTables) ∧
      ([0x45, 0x43, 0x4D, 0x00, 0x08, 0x41, 0x42, 0x43] : List Byte) =
        [0x45, 0x43, 0x4D, 0x00] ++ ([recordE2].map Spec.Record.bytes).flatten) ∧
    (({ ready with src := [0x41], srcFail := some 0 } : State).srcFail = some 0 ∧ 0 < 0 + 1 ∧
      0 + 1 ≤ ([0x41#8] : List Byte).length) :=
  ⟨⟨rfl, ⟨rfl, rfl⟩, rfl⟩, ⟨by decide, records_legal, by decide⟩, rfl, by decide, by decide⟩

theorem witness_StreamRoundTrip :
    ready.tblValid = true ∧ ready.NoIoFailure ∧ ready.frame.wf ∧
    ∃ t, exec .encode { ready with src := [0x41, 0x42, 0x43] } = .next t ∧
      ({ ready with src := streamE2 } : State).src = t.snk.drop ready.snk.length :=
  ⟨rfl, ⟨rfl, rfl⟩, by decide, _, rfl, by decide⟩

theorem witness_NotReadyDoesNothingElse :
    isOperation .encode = true ∧ Instr.encode ≠ .buildTables ∧ State.reset.engine = .idle ∧
    State.reset.tblValid = false := by decide

theorem witness_EveryOperationEnds :
    isOperation .decode = true ∧ ready.engine = .idle ∧ (Instr.decode = .encode ∨ Instr.decode = .decode) := by decide

theorem witness_SinkOnlyGrows :
    (∃ t, exec .encode ready = .next t ∧ isOperation .encode = true) ∧
    (∃ t, exec (.lit 1) ready = .next t ∧ isOperation (.lit 1) = false ∧ ready.snkStart ≤ ready.snk.length) ∧
    ∃ t, exec .buildTables ready = .next t ∧ isOperation .buildTables = true ∧ Instr.buildTables ≠ .encode ∧
      Instr.buildTables ≠ .decode :=
  ⟨⟨_, rfl, rfl⟩, ⟨_, rfl, rfl, by decide⟩, _, rfl, rfl, by decide, by decide⟩

theorem witness_ControlRegistersHaveTheirWriters :
    ∃ t, exec (.gfDouble 1) ready = .next t ∧ Instr.gfDouble 1 ≠ .encode ∧ ready.tblValid = true ∧
      isOperation (.gfDouble 1) = true ∧ Instr.gfDouble 1 ≠ .decode ∧ Instr.gfDouble 1 ≠ .buildTables :=
  ⟨_, rfl, by decide, rfl, rfl, by decide, by decide⟩

theorem witness_SourceIsNeverWritten :
    (∃ t, exec (.lit 1) ready = .next t) ∧
    ∃ t, (atTrailer []).engine ≠ .idle ∧ step (atTrailer []) = .next t :=
  ⟨⟨_, rfl⟩, _, by decide, rfl⟩

theorem witness_WorkingRegistersAreUnobservable :
    isOperation .encode = true ∧ ready.visible = ({ ready with ck := 7, la := [0x41] } : State).visible ∧
    ∃ t, exec .encode ready = .next t := ⟨rfl, rfl, _, rfl⟩

theorem witness_DecodeIsTheSumOfItsRounds : ready.tblValid = true ∧ ready.engine = .idle := ⟨rfl, rfl⟩

/-- A state that meets the invariant with its tables built, inside a `decode`. -/
theorem inDecode_inv (src : List Byte) : (inDecode src).Inv where
  tablesSized := specTables_sized
  tablesBuilt := fun _ => specTables_built
  frameWf := (by decide : ready.frame.wf)
  lookahead := Nat.zero_le _
  errCode := (by decide : ready.err ≠ 7)
  addrSave := rfl
  majRange := Nat.zero_le _
  minRange := Nat.zero_le _
  idxRange := (by decide : ready.ecc.idx < 2236)
  runCount := Nat.zero_le _
  decoding := fun _ => ⟨rfl, Nat.zero_le _⟩

theorem witness_StepKeepsTheInvariant :
    (inDecode [0x08, 0x41, 0x42, 0x43]).Inv ∧ ∃ t, step (inDecode [0x08, 0x41, 0x42, 0x43]) = .next t :=
  ⟨inDecode_inv _, _, rfl⟩

/-- A running `decode` at offset 0 of these bytes, on devices that fail. -/
def failing (src : List Byte) (srcFail snkCap : Option Nat) : State :=
  { inDecode src with srcFail := srcFail, snkCap := snkCap }

theorem witness_IoFailuresEndTheDecode :
    ((failing streamE2 (some 3) none).tblValid = true ∧ (failing streamE2 (some 3) none).srcFail = some 3 ∧ 3 < 4 ∧
      3 < streamE2.length) ∧
    ((failing [0x80, 0x00] (some 1) none).engine = .records ∧ 1 < ([0x80#8, 0x00#8] : List Byte).length ∧
      (parseHeader (failing [0x80, 0x00] (some 1) none).readable).value = .error .headerShort) ∧
    (2327 < (List.replicate 2328 (0#8)).length ∧
      2327 < (failing (List.replicate 2328 0) (some 2327) none).dec.rpos + payloadSize .mode2form2 * 1 ∧
      0 < (failing [0x41] (some 0) none).dec.rpos + payloadSize .literal * 1) ∧
    (({ atTrailer [0xD3, 0x06, 0x04, 0x91] with srcFail := some 3 } : State).engine = .trailer ∧
      3 < ([0xD3#8, 0x06#8, 0x04#8, 0x91#8] : List Byte).length ∧ 3 < (atTrailer []).dec.rpos + 4) ∧
    ((failing (List.replicate 2051 0) none (some 2351)).dec.rpos + payloadSize .mode1 * 1 ≤
      (List.replicate 2051 (0#8)).length ∧
      2351 < (failing (List.replicate 2051 0) none (some 2351)).snk.length + blockSize .mode1 * 1) ∧
    ((∀ r ∈ [recordE2], r.Legal specTables) ∧ decodeRecord [0xFC, 0xFF, 0xFF, 0xFF, 0x3F] = (5, .ok .endRecord) ∧
      ([0xD3, 0x06, 0x04, 0x91] : List Byte).length = 4 ∧
      streamE2 = Spec.streamOf [recordE2] [0xFC, 0xFF, 0xFF, 0xFF, 0x3F] [0xD3, 0x06, 0x04, 0x91] ++ [] ∧
      16 < (Spec.streamOf [recordE2] [0xFC, 0xFF, 0xFF, 0xFF, 0x3F] [0xD3, 0x06, 0x04, 0x91]).length ∧
      [recordE2] ≠ [] ∧ 2 < ready.snk.length + (Spec.output [recordE2]).length) := by
  refine ⟨⟨rfl, rfl, by decide, by decide⟩, ⟨rfl, by decide, rfl⟩, ⟨by rw [List.length_replicate]; decide,
    by decide, by decide⟩, ⟨rfl, by decide, by decide⟩, ⟨by rw [List.length_replicate]; decide, by decide⟩, records_legal, end_decodes, rfl, by decide, by decide,
    by simp, by decide⟩

end Sys2Proof.Tests
end

section
/-! SUPPORT. The statements of 00_scope.md: what a step of an idle engine runs, and `decode` as the sum of its rounds. -/

namespace Sys2Proof.Machine

/-- A run of one step more begins with the step. -/
theorem run_succ_of_step {M : Host.Core} {s t : M.State} (h : M.step s = .next t) (k : Nat) :
    M.run (k + 1) s = M.run k t := by
  rw [Host.Core.run, h]

theorem decodeStart_tblValid (s : State) : (decodeStart s).tblValid = s.tblValid := by
  rcases decodeStart_cases s with ⟨e, t, h, rfl⟩ | ⟨h, -, -⟩
  · rw [h]; rfl
  · rw [h]

/-- Rule R160: each round of `decode` is one step of the machine, so its loop is a run of as many steps as it takes
rounds before the engine is idle. The tables stay built on the way, which every record's step asks for. -/
theorem exists_run_eq_decodeLoop : ∀ (rounds : Nat) {s : State}, s.tblValid = true →
    ∃ k, Sys2Proof.core.run k s = .next (decodeLoop rounds s) := by
  intro rounds
  induction rounds with
  | zero => exact fun _ => ⟨0, rfl⟩
  | succ rounds ih =>
    intro s hs
    cases he : s.engine with
    | idle => exact ⟨0, by rw [decodeLoop_idle _ he]; rfl⟩
    | records =>
      have hstep : step s = .next (recordRound s) := (step_records he).trans (recordStep_eq hs)
      obtain ⟨k, hk⟩ := ih ((DecoderKeeps.recordRound s).tblValid.trans hs)
      exact ⟨k + 1, by rw [run_succ_of_step (M := Sys2Proof.core) hstep, hk, decodeLoop, he]⟩
    | trailer =>
      obtain ⟨k, hk⟩ := ih ((DecoderKeeps.runTrailer s).tblValid.trans hs)
      exact ⟨k + 1, by rw [run_succ_of_step (M := Sys2Proof.core) (step_trailer he), hk, decodeLoop, he]⟩

end Sys2Proof.Machine

open Sys2Proof Sys2Proof.Machine

/-- Settles O57: `decode` is the loop of its rounds from its start, and that loop is a run of the machine. -/
theorem decodeIsTheSumOfItsRounds : Obligations.DecodeIsTheSumOfItsRounds := by
  intro s hs _
  obtain ⟨k, hk⟩ := exists_run_eq_decodeLoop (s.src.length + 1) ((decodeStart_tblValid s).trans hs)
  exact ⟨k, decodeRun s, exec_decode hs, hk⟩

/-- Settles O4: an idle engine takes the command from the host's queue and starts it. -/
theorem stepRunsTheCommand : Obligations.StepRunsTheCommand := by
  intro s c rest i hidle hhost hdecode
  calc step s = hostStep (.start c) (s.popHost rest) := step_host hidle hhost
    _ = startCommand c (s.popHost rest) := rfl
    _ = exec i (s.popHost rest) := startCommand_ok hdecode _

end

section
/-!
SUPPORT. The statements of 10_state.md: what an instruction can do, once for all instructions; that every step keeps the
invariant; that no operation depends on a working register.
-/

namespace Sys2Proof.Machine

/-! ## The ECC Engine's answer does not depend on its working registers (rules R15, R16) -/

/-- Each major restarts its walk, so the parity bytes and the frame are those of `Spec.p0` and `Spec.p1` whatever the
registers held. -/
theorem processFrom_congr (t : Tables) (l : Layer) (mode : EccMode) : ∀ (left maj : Nat) (r r' : EccRegs) (m : Memory),
    maj + left = Spec.majors l →
    (processFrom t l mode left maj r m).ok = (processFrom t l mode left maj r' m).ok ∧
    (processFrom t l mode left maj r m).frame = (processFrom t l mode left maj r' m).frame := by
  intro left
  induction left with
  | zero => intros; exact ⟨rfl, rfl⟩
  | succ left ih =>
    intro maj r r' m h
    have hmaj : maj < Spec.majors l := by omega
    unfold processFrom
    simp only [parity0_eccMajor t l m hmaj, parity1_eccMajor t l m hmaj]
    cases mode with
    | verify =>
      simp only
      split
      · exact ih _ _ _ _ (by omega)
      · exact ⟨rfl, rfl⟩
    | write => exact ih _ _ _ _ (by omega)

theorem processFrame_congr (t : Tables) (l : Layer) (mode : EccMode) (r r' : EccRegs) (m : Memory) :
    (processFrame t l mode r m).ok = (processFrame t l mode r' m).ok ∧
    (processFrame t l mode r m).frame = (processFrame t l mode r' m).frame :=
  processFrom_congr t l mode _ 0 r r' m (by rw [geometry_majors]; omega)

theorem bothPasses_congr (t : Tables) (mode : EccMode) (r r' : EccRegs) (m : Memory) :
    (bothPasses t mode r m).ok = (bothPasses t mode r' m).ok ∧
    (bothPasses t mode r m).frame = (bothPasses t mode r' m).frame := by
  obtain ⟨hok, hframe⟩ := processFrame_congr t .p mode r r' m
  unfold bothPasses
  simp only [hok, hframe]
  split
  · exact processFrame_congr t .q mode _ _ _
  · exact ⟨hok, hframe⟩

theorem generateParityFrame_congr (t : Tables) (z : Bool) (mode : EccMode) (r r' : EccRegs) (m : Memory) :
    (generateParityFrame t z mode r m).ok = (generateParityFrame t z mode r' m).ok ∧
    (generateParityFrame t z mode r m).frame = (generateParityFrame t z mode r' m).frame := by
  cases z with
  | false => exact bothPasses_congr t mode r r' m
  | true =>
    obtain ⟨hok, hframe⟩ := bothPasses_congr t mode { r with addrSave := m.readBytes addressBase 4 }
      { r' with addrSave := m.readBytes addressBase 4 } (m.writeBytes addressBase [0, 0, 0, 0])
    exact ⟨hok, congrArg (Memory.writeBytes · addressBase (m.readBytes addressBase 4)) hframe⟩

theorem processFrame_wf (t : Tables) (l : Layer) (mode : EccMode) (r : EccRegs) {m : Memory} (hm : m.wf) :
    (processFrame t l mode r m).frame.wf := by
  cases mode with
  | verify => rwa [processFrame_verify_frame]
  | write => exact (processFrame_write t l r hm).2.1

theorem generateParityFrame_wf (t : Tables) (z : Bool) (mode : EccMode) (r : EccRegs) {m : Memory} (hm : m.wf) :
    (generateParityFrame t z mode r m).frame.wf := by
  cases mode with
  | verify => rwa [(generateParityFrame_verify t z r hm).1]
  | write => exact (generateParityFrame_write t z r hm).2.1

theorem eccRange_processFrame (t : Tables) (l : Layer) (mode : EccMode) {r : EccRegs} (m : Memory) (h : r.InRange) :
    (processFrame t l mode r m).regs.InRange := by
  obtain ⟨-, hmin, hidx, hsave⟩ := h
  obtain ⟨h1, h2, h3, h4, -⟩ := processFrame_regs t l mode m hmin hidx
  exact ⟨h1, h2, h3, by rw [h4, hsave]⟩

theorem eccRange_classifyWindow (t : Tables) (w : List Byte) (n : Nat) (a : Bool) (c : ClassifierRegs) {e : EccRegs}
    (h : e.InRange) : (classifyWindow t w n a c e).ecc.InRange := by
  obtain ⟨hmaj, hmin, hidx, hsave⟩ := h
  exact classifyWindow_ecc t w n a c hmaj hmin hidx hsave

/-! ## What an instruction can do -/

/-- The operations that return a value at once: all but `build_tables`, which returns none, `encode` and `decode`. -/
def answersAtOnce : Instr → Bool
  | .gfDouble _ | .gfDiv3 _ | .ckLookup _ | .fold _ _ | .process _ _ | .generateParity _ _ | .classify _ _ _ => true
  | .buildTables | .encode | .decode | .lit _ | .m1 _ | .m2f1 _ | .m2f2 _ | .endRecord => false

/-- Such an operation gives the frame, the draw counter and the result values that what a host can see decides, and
writes besides them only working registers, within their ranges (rules R15, R16). -/
theorem exec_answersAtOnce {i : Instr} (hi : answersAtOnce i = true) (v : Visible) (hv : v.tblValid = true) :
    ∃ (frame : Memory) (draws : Nat) (result : Result), (v.frame.wf → frame.wf) ∧
      ∀ s : State, s.visible = v → ∃ (ecc : EccRegs) (cls : ClassifierRegs), (s.ecc.InRange → ecc.InRange) ∧
        exec i s = .next { s with ecc := ecc, cls := cls, frame := frame, draws := draws, result := result } := by
  cases i with
  | gfDouble x =>
    refine ⟨v.frame, v.draws, .byte (v.tables.double x), id, ?_⟩
    rintro s rfl
    exact ⟨s.ecc, s.cls, id, exec_gfDouble hv x⟩
  | gfDiv3 x =>
    refine ⟨v.frame, v.draws, .byte (v.tables.div3 x), id, ?_⟩
    rintro s rfl
    exact ⟨s.ecc, s.cls, id, exec_gfDiv3 hv x⟩
  | ckLookup x =>
    refine ⟨v.frame, v.draws, .word (v.tables.check x), id, ?_⟩
    rintro s rfl
    exact ⟨s.ecc, s.cls, id, exec_ckLookup hv x⟩
  | fold ck bytes =>
    refine ⟨v.frame, v.draws, .word (v.tables.fold ck bytes), id, ?_⟩
    rintro s rfl
    exact ⟨s.ecc, s.cls, id, exec_fold hv ck bytes⟩
  | process l mode =>
    refine ⟨(processFrame v.tables l mode State.reset.ecc v.frame).frame, v.draws,
      .ok (processFrame v.tables l mode State.reset.ecc v.frame).ok, processFrame_wf _ _ _ _, ?_⟩
    rintro s rfl
    obtain ⟨hok, hframe⟩ := processFrame_congr s.tables l mode s.ecc State.reset.ecc s.frame
    exact ⟨_, s.cls, eccRange_processFrame _ _ _ _, (exec_process hv l mode).trans (by rw [hok, hframe]; rfl)⟩
  | generateParity z mode =>
    refine ⟨(generateParityFrame v.tables z mode State.reset.ecc v.frame).frame, v.draws,
      .ok (generateParityFrame v.tables z mode State.reset.ecc v.frame).ok, generateParityFrame_wf _ _ _ _, ?_⟩
    rintro s rfl
    obtain ⟨hok, hframe⟩ := generateParityFrame_congr s.tables z mode s.ecc State.reset.ecc s.frame
    exact ⟨_, s.cls, eccRange_generateParityFrame _ _ _ _,
      (exec_generateParity hv z mode).trans (by rw [hok, hframe]; rfl)⟩
  | classify w n allow =>
    refine ⟨v.frame, if windowShort w n then v.draws + 1 else v.draws,
      .sector (classifyWindow v.tables (fullWindow v.draws w n) n allow State.reset.cls State.reset.ecc).type, id, ?_⟩
    rintro s rfl
    have htype := classifyWindow_type_congr s.tables (fullWindow s.draws w n) n allow s.cls State.reset.cls s.ecc
      State.reset.ecc
    exact ⟨_, _, eccRange_classifyWindow _ _ _ _ _, (exec_classify hv w n allow).trans (by rw [htype]; rfl)⟩
  | _ => cases hi

/-- What an instruction makes of a state: one case for each way an instruction can end. -/
inductive Effect (s : State) : Instr → State → Prop
  | tablesBuilt : Effect s .buildTables { s with tables := buildAll s.tables, tblValid := true, result := .none }
  | notReady {i : Instr} (notBuild : i ≠ .buildTables) (invalid : s.tblValid = false) : Effect s i (raise .notReady s)
  | answered {i : Instr} {frame : Memory} {draws : Nat} {result : Result} {ecc : EccRegs} {cls : ClassifierRegs}
      (answers : answersAtOnce i = true) (valid : s.tblValid = true) (frameWf : s.frame.wf → frame.wf)
      (eccRange : s.ecc.InRange → ecc.InRange) :
      Effect s i { s with ecc := ecc, cls := cls, frame := frame, draws := draws, result := result }
  | encoded (valid : s.tblValid = true) : Effect s .encode (encodeRun s)
  | decoded (valid : s.tblValid = true) : Effect s .decode (decodeRun s)
  | record (type : SectorType) (count : Nat) (valid : s.tblValid = true) :
      Effect s (recordOf type count) (runRecord type count s)
  | recordsEnded : Effect s .endRecord (runEnd s)

/-- Every instruction has a next state, and it is one of those `Effect` lists. -/
theorem exists_effect (i : Instr) (s : State) : ∃ t, exec i s = .next t ∧ Effect s i t := by
  by_cases hbuild : i = .buildTables
  · subst hbuild; exact ⟨_, exec_buildTables s, .tablesBuilt⟩
  by_cases hend : i = .endRecord
  · subst hend; exact ⟨_, rfl, .recordsEnded⟩
  cases hvalid : s.tblValid with
  | false => exact ⟨_, exec_notReady hvalid hbuild hend, .notReady hbuild hvalid⟩
  | true =>
    by_cases hanswers : answersAtOnce i = true
    · obtain ⟨frame, draws, result, hwf, hexec⟩ := exec_answersAtOnce hanswers s.visible hvalid
      obtain ⟨ecc, cls, hecc, hexec⟩ := hexec s rfl
      exact ⟨_, hexec, .answered hanswers hvalid hwf hecc⟩
    · cases i with
      | encode => exact ⟨_, exec_encode hvalid, .encoded hvalid⟩
      | decode => exact ⟨_, exec_decode hvalid, .decoded hvalid⟩
      | lit count => exact ⟨_, exec_recordOf hvalid .literal count, .record .literal count hvalid⟩
      | m1 count => exact ⟨_, exec_recordOf hvalid .mode1 count, .record .mode1 count hvalid⟩
      | m2f1 count => exact ⟨_, exec_recordOf hvalid .mode2form1 count, .record .mode2form1 count hvalid⟩
      | m2f2 count => exact ⟨_, exec_recordOf hvalid .mode2form2 count, .record .mode2form2 count hvalid⟩
      | buildTables => exact absurd rfl hbuild
      | endRecord => exact absurd rfl hend
      | _ => exact absurd rfl hanswers

theorem effect_of_exec {i : Instr} {s t : State} (h : exec i s = .next t) : Effect s i t := by
  obtain ⟨u, hu, heffect⟩ := exists_effect i s
  rw [h] at hu
  cases hu
  exact heffect

/-! ## `encode` and `decode` as a whole -/

/-- How `encode` ends (rules R134, R138). -/
theorem encodeRun_cases (s : State) : encodeRun s = (encodeAll s).succeed ∨
    encodeRun s = { raise .ioError (encodeAll s) with stats := Stats.free (encodeAll s).draws } := by
  unfold encodeRun
  simp only
  split
  · exact .inr rfl
  · exact .inl rfl

theorem encodeRun_tables (s : State) :
    (encodeRun s).tables = s.tables ∧ (encodeRun s).tblValid = s.tblValid := by
  have hkeeps := EncoderKeeps.encodeAll s
  rcases encodeRun_cases s with h | h <;> rw [h] <;> exact ⟨hkeeps.tables, hkeeps.tblValid⟩

/-- The state from which `encode` and `decode` count the sink's growth, with the registers `decode` clears
(rule R144). -/
def State.opened (s : State) : State :=
  { s with dec := { s.dec with rpos := 0 }, ck := 0, snkStart := s.snk.length }

/-- The start of `decode` in terms of the state it opens (rules R144, R145). -/
theorem decodeStart_eq (s : State) : decodeStart s =
    if s.opened.srcLimit < min 4 s.src.length then raise .ioError s.opened
    else if s.src.take 4 = magic then { s.opened.advanceRead 4 with engine := .records }
    else raise .malformedHeader s.opened := rfl

theorem DecoderKeeps.decodeStart (s : State) : DecoderKeeps s.opened (decodeStart s) := by
  rcases decodeStart_cases s with ⟨e, t, h, rfl⟩ | ⟨h, -, -⟩ <;> rw [h]
  · exact .raise e _
  · exact ⟨rfl, rfl, rfl, rfl, rfl, rfl, rfl, rfl, rfl, rfl, rfl, rfl, id, id, id, fun h => ⟨h, rfl⟩⟩

theorem DecoderKeeps.decodeRun (s : State) : DecoderKeeps s.opened (decodeRun s) :=
  (DecoderKeeps.decodeStart s).trans (.decodeLoop _ _)

/-! ## The invariant -/

theorem State.Inv.eccRange {s : State} (h : s.Inv) : s.ecc.InRange := ⟨h.majRange, h.minRange, h.idxRange, h.addrSave⟩

/-- A part of `decode` keeps the invariant where the engine may still run after it. -/
theorem State.Inv.of_decoderKeeps {s t : State} (h : s.Inv) (hkeeps : DecoderKeeps s t)
    (hrun : t.engine ≠ .idle → s.engine ≠ .idle) : t.Inv := by
  obtain ⟨hmaj, hmin, hidx, hsave⟩ := hkeeps.ecc h.eccRange
  exact {
    tablesSized := by rw [hkeeps.tables]; exact h.tablesSized
    tablesBuilt := by rw [hkeeps.tables, hkeeps.tblValid]; exact h.tablesBuilt
    frameWf := hkeeps.frameWf h.frameWf
    lookahead := by rw [hkeeps.la]; exact h.lookahead
    errCode := hkeeps.errCode h.errCode
    addrSave := hsave
    majRange := hmaj
    minRange := hmin
    idxRange := hidx
    runCount := by rw [hkeeps.enc]; exact h.runCount
    decoding := fun ht => by
      obtain ⟨hvalid, hsink⟩ := h.decoding (hrun ht)
      exact ⟨hkeeps.tblValid.trans hvalid, by rw [hkeeps.snkStart]; exact (hkeeps.sink hsink).1⟩ }

theorem State.Inv.raise {s : State} (h : s.Inv) (e : ErrorCode) : (raise e s).Inv :=
  h.of_decoderKeeps (.raise e s) fun hidle => absurd rfl hidle

theorem State.Inv.buildTables {s : State} (h : s.Inv) :
    State.Inv { s with tables := buildAll s.tables, tblValid := true, result := .none } := by
  have hbuilt := buildAll_built h.tablesSized
  generalize buildAll s.tables = tables at hbuilt
  exact { h with
    tablesSized := hbuilt.1, tablesBuilt := fun _ => hbuilt, decoding := fun hrun => ⟨rfl, (h.decoding hrun).2⟩ }

theorem State.Inv.opened {s : State} (h : s.Inv) : s.opened.Inv :=
  { h with decoding := fun hrun => ⟨(h.decoding hrun).1, Nat.le_refl _⟩ }

theorem State.Inv.decodeRun {s : State} (h : s.Inv) : (decodeRun s).Inv :=
  h.opened.of_decoderKeeps (.decodeRun s) fun hrun => absurd (decodeRun_engine s) hrun

/-- The lookahead buffer is emptied at the start (rule R126), so the bound `LOOKAHEAD_CAP` is met from the one window
that a round refills. -/
theorem State.Inv.encoderRanges_encodeAll {s : State} (h : s.Inv) : (encodeAll s).EncoderRanges :=
  State.EncoderRanges.encodeAll (s := { s with la := [] })
    ⟨h.runCount, Nat.zero_le _, h.majRange, h.minRange, h.idxRange, h.addrSave⟩

theorem State.Inv.encodeAll {s : State} (h : s.Inv) : (encodeAll s).Inv := by
  have hkeeps := EncoderKeeps.encodeAll s
  have hranges := h.encoderRanges_encodeAll
  exact {
    tablesSized := by rw [hkeeps.tables]; exact h.tablesSized
    tablesBuilt := by rw [hkeeps.tables, hkeeps.tblValid]; exact h.tablesBuilt
    frameWf := by rw [hkeeps.frame]; exact h.frameWf
    lookahead := hranges.la.trans (Nat.le_add_right _ _)
    errCode := by rw [hkeeps.err]; exact h.errCode
    addrSave := hranges.addrSave
    majRange := hranges.maj
    minRange := hranges.min
    idxRange := hranges.idx
    runCount := hranges.runCount
    decoding := fun hrun => by
      rw [hkeeps.engine] at hrun
      exact ⟨hkeeps.tblValid.trans (h.decoding hrun).1, by rw [hkeeps.snkStart]; exact hkeeps.sink.length_le⟩ }

theorem State.Inv.encodeRun {s : State} (h : s.Inv) : (encodeRun s).Inv := by
  rcases encodeRun_cases s with e | e <;> rw [e]
  · exact h.encodeAll.of_decoderKeeps (.succeed _) fun hidle => absurd rfl hidle
  · exact { h.encodeAll.raise .ioError with }

theorem isOperation_recordOf (type : SectorType) (count : Nat) : isOperation (recordOf type count) = false := by
  cases type <;> rfl

/-- Every operation keeps the invariant. -/
theorem State.Inv.exec {i : Instr} {s t : State} (h : s.Inv) (hi : isOperation i = true) (hexec : exec i s = .next t) :
    t.Inv := by
  cases effect_of_exec hexec with
  | tablesBuilt => exact h.buildTables
  | notReady => exact h.raise .notReady
  | answered _ _ hwf hecc =>
    obtain ⟨hmaj, hmin, hidx, hsave⟩ := hecc h.eccRange
    exact { h with
      frameWf := hwf h.frameWf, addrSave := hsave, majRange := hmaj, minRange := hmin, idxRange := hidx }
  | encoded => exact h.encodeRun
  | decoded => exact h.decodeRun
  | record type count => rw [isOperation_recordOf] at hi; cases hi
  | recordsEnded => cases hi

/-- A command starts an operation, never a record (rules R10, R72). -/
theorem isOperation_of_decodeCommand {c : Command} {i : Instr} (h : decodeCommand c = .ok i) :
    isOperation i = true := by
  unfold decodeCommand at h
  split_ifs at h <;> cases h <;> rfl

theorem State.reset_inv : State.reset.Inv where
  tablesSized := ⟨List.length_replicate, List.length_replicate, List.length_replicate⟩
  tablesBuilt := fun h => by cases h
  frameWf := State.reset_frame_wf
  lookahead := Nat.zero_le _
  errCode := by decide
  addrSave := rfl
  majRange := Nat.zero_le _
  minRange := Nat.zero_le _
  idxRange := by decide
  runCount := by decide
  decoding := fun h => absurd rfl h

/-- Every action of the host between operations keeps the invariant. -/
theorem State.Inv.hostStep {event : HostEvent} {s t : State} (h : s.Inv) (hidle : s.engine = .idle)
    (hstep : hostStep event s = .next t) : t.Inv := by
  cases event with
  | start c =>
    cases hc : decodeCommand c with
    | ok i => exact h.exec (isOperation_of_decodeCommand hc) ((startCommand_ok hc s).symm.trans hstep)
    | error e =>
      rw [Machine.hostStep, startCommand, hc] at hstep
      cases hstep; exact h
  | setSource bytes => cases hstep; exact { h with }
  | setSink bytes => cases hstep; exact { h with decoding := fun hrun => absurd hidle hrun }
  | writeFrame address value =>
    rw [Machine.hostStep, hostWriteFrame] at hstep
    split at hstep
    · rename_i haddress
      cases hstep; exact { h with frameWf := Memory.write_wf h.frameWf haddress value }
    · cases hstep
  | failSource offset => cases hstep; exact { h with }
  | limitSink length => cases hstep; exact { h with }
  | reset => cases hstep; exact { State.reset_inv with decoding := fun hrun => absurd rfl hrun }

/-! ## Two states that look alike to the host (rules R15, R16, R30) -/

/-- What a host cannot observe (rules R15 to R20, R35, R40). -/
structure Working where
  la       : List Byte
  laPos    : Nat
  ck       : Word
  ecc      : EccRegs
  cls      : ClassifierRegs
  enc      : EncoderRegs
  dec      : DecoderRegs
  snkStart : Nat

def State.withWorking (s : State) (w : Working) : State :=
  { s with
    la := w.la, laPos := w.laPos, ck := w.ck, ecc := w.ecc, cls := w.cls, enc := w.enc, dec := w.dec
    snkStart := w.snkStart }

theorem State.visible_eq_iff {s s' : State} : s'.visible = s.visible ↔ ∃ w, s' = s.withWorking w := by
  constructor
  · intro h
    cases s; cases s'
    simp only [visible, Visible.mk.injEq] at h
    obtain ⟨rfl, rfl, rfl, rfl, rfl, rfl, rfl, rfl, rfl, rfl, rfl, rfl, rfl⟩ := h
    exact ⟨⟨_, _, _, _, _, _, _, _⟩, rfl⟩
  · rintro ⟨w, rfl⟩; rfl

/-- Inside a `decode` the host sees what `CK`, `RPOS` and the sink's start position lead to; the other working
registers are scratch. -/
def State.withScratch (s : State) (w : Working) : State :=
  s.withWorking { w with ck := s.ck, dec := { w.dec with rpos := s.dec.rpos }, snkStart := s.snkStart }

/-- Two states of a `decode` that differ in scratch registers only. -/
def SameRun (s s' : State) : Prop := ∃ w, s' = s.withScratch w

theorem SameRun.visible_eq {s s' : State} (h : SameRun s s') : s'.visible = s.visible := by
  obtain ⟨w, rfl⟩ := h; rfl

/-- Two ends of a part of `decode`, alike up to scratch registers. -/
inductive SameEnd : Except Abort State → Except Abort State → Prop
  | ok {s s' : State} (h : SameRun s s') : SameEnd (.ok s) (.ok s')
  | error (e : ErrorCode) {s s' : State} (h : SameRun s s') : SameEnd (.error ⟨e, s⟩) (.error ⟨e, s'⟩)

theorem SameRun.raise {s s' : State} (h : SameRun s s') (e : ErrorCode) : SameRun (raise e s) (raise e s') := by
  obtain ⟨w, rfl⟩ := h; exact ⟨w, rfl⟩

theorem SameRun.withLeft {s s' : State} (h : SameRun s s') (n : Nat) : SameRun (s.withLeft n) (s'.withLeft n) := by
  obtain ⟨w, rfl⟩ := h; exact ⟨{ w with dec := { w.dec with recLeft := BitVec.ofNat 32 n } }, rfl⟩

theorem SameRun.advanceRead {s s' : State} (h : SameRun s s') (n : Nat) :
    SameRun (s.advanceRead n) (s'.advanceRead n) := by
  obtain ⟨w, rfl⟩ := h; exact ⟨w, rfl⟩

theorem SameRun.runEnd {s s' : State} (h : SameRun s s') : SameRun (runEnd s) (runEnd s') := by
  obtain ⟨w, rfl⟩ := h; exact ⟨w, rfl⟩

theorem SameEnd.settle {x x' : Except Abort State} (h : SameEnd x x') : SameRun (settle x) (settle x') := by
  cases h with
  | ok h => exact h
  | error e h => exact h.raise e

theorem SameEnd.bind {x x' : Except Abort State} {f : State → Except Abort State} (h : SameEnd x x')
    (hf : ∀ {s s' : State}, SameRun s s' → SameEnd (f s) (f s')) : SameEnd (x.bind f) (x'.bind f) := by
  cases h with
  | ok h => exact hf h
  | error e h => exact .error e h

/-- A read gives both states the same bytes, or both the same error (rule R39). -/
theorem SameRun.srcRead_bind {s s' : State} (h : SameRun s s') (a n : Nat) {f f' : List Byte → Except Abort State}
    (hf : SameEnd (f (slice s.src a n)) (f' (slice s.src a n))) :
    SameEnd ((srcRead a n s).bind f) ((srcRead a n s').bind f') := by
  obtain ⟨w, rfl⟩ := h
  rcases srcRead_cases a n s with ⟨hle, e⟩ | ⟨hle, e⟩
  · rw [e, srcRead_of_le (s := s.withScratch w) hle]; exact hf
  · rw [e, srcRead_of_not_le (s := s.withScratch w) hle]; exact .error _ ⟨w, rfl⟩

theorem SameRun.snkWrite {s s' : State} (h : SameRun s s') (bytes : List Byte) :
    SameEnd (snkWrite bytes s) (snkWrite bytes s') := by
  obtain ⟨w, rfl⟩ := h
  unfold Machine.snkWrite
  rw [show (s.withScratch w).sinkFull ((s.withScratch w).snk.length + bytes.length) =
    s.sinkFull (s.snk.length + bytes.length) from rfl]
  split
  · exact .error _ ⟨w, rfl⟩
  · exact .ok ⟨w, rfl⟩

/-- A sector builder whose sector does not depend on the ECC Engine's working registers. -/
def IgnoresEccRegs (build : Tables → List Byte → EccRegs → Memory → EccOut) : Prop :=
  ∀ t pay r r' m, (build t pay r m).frame = (build t pay r' m).frame

theorem buildMode1_ignores : IgnoresEccRegs buildMode1 := fun t pay r r' m =>
  (generateParityFrame_congr t false .write r r' (fillMode1 t pay m)).2

theorem buildMode2Form1_ignores : IgnoresEccRegs buildMode2Form1 := fun t pay r r' m =>
  (generateParityFrame_congr t true .write r r' (fillMode2Form1 t pay m)).2

theorem buildMode2Form2_ignores : IgnoresEccRegs buildMode2Form2 := fun _ _ _ _ _ => rfl

theorem SameRun.rebuildSector {build : Tables → List Byte → EccRegs → Memory → EccOut} (hb : IgnoresEccRegs build)
    (type : SectorType) (base : Nat) {s s' : State} (h : SameRun s s') :
    SameEnd (rebuildSector type base build s) (rebuildSector type base build s') := by
  obtain ⟨w, rfl⟩ := h
  refine SameRun.srcRead_bind ⟨w, rfl⟩ s.dec.rpos (payloadSize type) ?_
  simp only [show (s.withScratch w).frame = s.frame from rfl, show (s.withScratch w).tables = s.tables from rfl,
    hb s.tables (slice s.src s.dec.rpos (payloadSize type)) (s.withScratch w).ecc s.ecc s.frame]
  exact SameRun.snkWrite ⟨{ w with ecc := _ }, rfl⟩ _

theorem SameRun.sectorLoop {one : State → Except Abort State}
    (hone : ∀ {s s' : State}, SameRun s s' → SameEnd (one s) (one s')) :
    ∀ (count : Nat) {s s' : State}, SameRun s s' → SameEnd (sectorLoop one count s) (sectorLoop one count s') := by
  intro count
  induction count with
  | zero => exact fun h => .ok h
  | succ count ih => exact fun h => (hone h).bind fun h => ih (h.withLeft count)

theorem SameRun.runLit {s s' : State} (h : SameRun s s') (count : Nat) : SameRun (runLit count s) (runLit count s') := by
  obtain ⟨w, rfl⟩ := h
  refine SameEnd.settle (SameRun.srcRead_bind (SameRun.withLeft ⟨w, rfl⟩ count) s.dec.rpos count ?_)
  exact SameRun.snkWrite ⟨{ w with dec := { w.dec with recLeft := 0 } }, rfl⟩ _

theorem SameRun.runRecord {s s' : State} (h : SameRun s s') (type : SectorType) (count : Nat) :
    SameRun (runRecord type count s) (runRecord type count s') := by
  cases type with
  | literal => exact h.runLit count
  | mode1 => exact (sectorLoop (rebuildSector buildMode1_ignores _ _) count (h.withLeft count)).settle
  | mode2form1 => exact (sectorLoop (rebuildSector buildMode2Form1_ignores _ _) count (h.withLeft count)).settle
  | mode2form2 => exact (sectorLoop (rebuildSector buildMode2Form2_ignores _ _) count (h.withLeft count)).settle

theorem SameRun.recordRound {s s' : State} (h : SameRun s s') : SameRun (recordRound s) (recordRound s') := by
  obtain ⟨w, rfl⟩ := h
  unfold Machine.recordRound fetchHeader
  simp only [show (s.withScratch w).readable = s.readable from rfl]
  generalize parseHeader s.readable = header
  obtain ⟨used, value⟩ := header
  cases value with
  | error e => exact SameRun.raise ⟨w, rfl⟩ _
  | ok f =>
    have hf : SameRun
        { s.advanceRead used with
          dec := { (s.advanceRead used).dec with recType := f.1, recNum := BitVec.ofNat 32 f.2 } }
        { (s.withScratch w).advanceRead used with
          dec := { ((s.withScratch w).advanceRead used).dec with recType := f.1, recNum := BitVec.ofNat 32 f.2 } } :=
      ⟨{ w with dec := { w.dec with recType := f.1, recNum := BitVec.ofNat 32 f.2 } }, rfl⟩
    simp only
    split
    · exact hf.runEnd
    · split
      · exact hf.raise _
      · exact hf.runRecord _ _

theorem SameRun.runTrailer {s s' : State} (h : SameRun s s') : SameRun (runTrailer s) (runTrailer s') := by
  obtain ⟨w, rfl⟩ := h
  refine SameEnd.settle (SameRun.srcRead_bind ⟨w, rfl⟩ s.dec.rpos 4 ?_)
  simp only [show (s.withScratch w).ck = s.ck from rfl]
  split
  · exact .ok ⟨w, rfl⟩
  · exact .error _ ⟨w, rfl⟩

theorem SameRun.decodeLoop : ∀ (rounds : Nat) {s s' : State}, SameRun s s' →
    SameRun (decodeLoop rounds s) (decodeLoop rounds s') := by
  intro rounds
  induction rounds with
  | zero => exact fun h => h
  | succ rounds ih =>
    intro s s' h
    have hengine : s'.engine = s.engine := congrArg Visible.engine h.visible_eq
    unfold Machine.decodeLoop
    rw [hengine]
    split
    · exact h
    · exact ih h.recordRound
    · exact ih h.runTrailer

/-- `decode` starts by writing every working register that its course depends on (rule R144). -/
theorem sameRun_decodeStart (s : State) (w : Working) : SameRun (decodeStart s) (decodeStart (s.withWorking w)) := by
  have hopened : SameRun s.opened (s.withWorking w).opened := ⟨w, rfl⟩
  rw [decodeStart_eq, decodeStart_eq, show (s.withWorking w).opened.srcLimit = s.opened.srcLimit from rfl,
    show (s.withWorking w).src = s.src from rfl]
  split_ifs
  · exact hopened.raise _
  · exact ⟨w, rfl⟩
  · exact hopened.raise _

theorem decodeRun_visible (s : State) (w : Working) :
    (decodeRun (s.withWorking w)).visible = (decodeRun s).visible :=
  ((sameRun_decodeStart s w).decodeLoop _).visible_eq

theorem Stats.eq_of_count {a b : Stats} (hcount : ∀ type, a.count type = b.count type) (hin : a.bytesIn = b.bytesIn)
    (hout : a.bytesOut = b.bytesOut) : a = b := by
  have hliteral : a.literal = b.literal := hcount .literal
  have hmode1 : a.mode1 = b.mode1 := hcount .mode1
  have hmode2form1 : a.mode2form1 = b.mode2form1 := hcount .mode2form1
  have hmode2form2 : a.mode2form2 = b.mode2form2 := hcount .mode2form2
  cases a; cases b; simp_all

/-- Before its end `encode` writes `STAT_*` and the sink, and nothing else a host can see. -/
theorem EncoderKeeps.visible_eq {s t : State} (h : EncoderKeeps s t) :
    t.visible = { s.visible with stats := t.stats, snk := t.snk } := by
  simp only [State.visible, h.tblValid, h.tables, h.err, h.frame, h.src, h.result, h.engine, h.host, h.srcFail,
    h.snkCap, h.draws]

/-- What the host sees of `encode`, before it is known whether a device failed, is decided by what it saw before. -/
theorem encodeAll_visible (s : State) (w : Working) :
    (encodeAll (s.withWorking w)).visible = (encodeAll s).visible := by
  obtain ⟨hsnk, hcount, hin, hout, -⟩ := encodeAll_eq s
  obtain ⟨hsnk', hcount', hin', hout', -⟩ := encodeAll_eq (s.withWorking w)
  have hstats : (encodeAll (s.withWorking w)).stats = (encodeAll s).stats :=
    Stats.eq_of_count (fun type => (hcount' type).trans (hcount type).symm) (hin'.trans hin.symm)
      (hout'.trans hout.symm)
  rw [(EncoderKeeps.encodeAll s).visible_eq, (EncoderKeeps.encodeAll (s.withWorking w)).visible_eq, hsnk, hsnk', hstats]
  rfl

theorem encodeRun_visible (s : State) (w : Working) :
    (encodeRun (s.withWorking w)).visible = (encodeRun s).visible := by
  obtain ⟨v, hv⟩ := State.visible_eq_iff.1 (encodeAll_visible s w)
  have hstart : v.snkStart = (encodeAll s).snkStart :=
    calc v.snkStart = (encodeAll (s.withWorking w)).snkStart := by rw [hv]; rfl
      _ = s.snk.length := (EncoderKeeps.encodeAll (s.withWorking w)).snkStart
      _ = (encodeAll s).snkStart := (EncoderKeeps.encodeAll s).snkStart.symm
  unfold encodeRun
  simp only [hv]
  generalize encodeAll s = done at *
  obtain ⟨la, laPos, ck, ecc, cls, enc, dec, snkStart⟩ := v
  cases hstart
  rw [show encodeIoFails (done.withWorking ⟨la, laPos, ck, ecc, cls, enc, dec, done.snkStart⟩) = encodeIoFails done
    from rfl]
  split <;> rfl

end Sys2Proof.Machine

open Sys2Proof Sys2Proof.Machine

/-- Settles O59: between operations the host's action keeps the invariant; inside a `decode` the tables are valid, so a
step is a round of the loop, and each round keeps what `DecoderKeeps` lists. -/
theorem stepKeepsTheInvariant : Obligations.StepKeepsTheInvariant := by
  intro s t h hstep
  cases hengine : s.engine with
  | idle =>
    cases hhost : s.host with
    | nil => rw [step_idle_nil hengine hhost] at hstep; cases hstep; exact h
    | cons event rest =>
      rw [step_host hengine hhost] at hstep
      exact State.Inv.hostStep (s := s.popHost rest) { h with } hengine hstep
  | records =>
    have hrun : s.engine ≠ .idle := by rw [hengine]; decide
    rw [step_records hengine, recordStep_eq (h.decoding hrun).1] at hstep
    cases hstep
    exact h.of_decoderKeeps (.recordRound s) fun _ => hrun
  | trailer =>
    rw [step_trailer hengine] at hstep
    cases hstep
    exact h.of_decoderKeeps (.runTrailer s) fun hrun => absurd (runTrailer_engine s) hrun

/-- Settles O14: `buildAll` leaves the built contents whatever the tables held. -/
theorem buildTablesWritesTheThreeTables : Obligations.BuildTablesWritesTheThreeTables := fun s hsized =>
  ⟨buildAll s.tables, buildAll_built hsized, exec_buildTables s⟩

/-- Settles O15: the built contents are one definite value, which a second `build_tables` writes again; every other
effect keeps the tables. -/
theorem tablesAreNeverChangedAfterwards : Obligations.TablesAreNeverChangedAfterwards := by
  refine ⟨fun s ⟨hvalid, hbuilt⟩ => ?_, fun i s t hi hexec => ?_⟩
  · rw [exec_buildTables, buildAll_of_built hbuilt, ← hvalid]
  · cases effect_of_exec hexec with
    | tablesBuilt => exact absurd rfl hi
    | notReady => exact ⟨rfl, rfl⟩
    | answered => exact ⟨rfl, rfl⟩
    | encoded => exact encodeRun_tables s
    | decoded => exact ⟨(DecoderKeeps.decodeRun s).tables, (DecoderKeeps.decodeRun s).tblValid⟩
    | record type count =>
      have hkeeps := DecoderKeeps.runRecord type count s
      exact ⟨hkeeps.tables, hkeeps.tblValid⟩
    | recordsEnded => exact ⟨rfl, rfl⟩

/-- Settles O54: by the effect of the instruction; who writes `TBL_VALID` is the second half of rule R31. -/
theorem controlRegistersHaveTheirWriters : Obligations.ControlRegistersHaveTheirWriters := by
  intro i s t hexec
  have hvalid : i ≠ .buildTables → t.tblValid = s.tblValid := fun hi =>
    (tablesAreNeverChangedAfterwards.2 i s t hi hexec).2
  cases effect_of_exec hexec with
  | tablesBuilt => exact ⟨fun _ => rfl, fun _ => rfl, fun _ _ _ _ => rfl, hvalid⟩
  | notReady hi hnot =>
    exact ⟨fun _ => rfl, (hvalid hi).trans, fun _ _ _ h => absurd h (by simp [hnot]), hvalid⟩
  | answered => exact ⟨fun _ => rfl, id, fun _ _ _ _ => rfl, hvalid⟩
  | encoded => exact ⟨fun h => absurd rfl h, (hvalid (by simp)).trans, fun _ h => absurd rfl h, hvalid⟩
  | decoded =>
    exact ⟨fun _ => (DecoderKeeps.decodeRun s).stats, (hvalid (by simp)).trans, fun _ _ h => absurd rfl h, hvalid⟩
  | record type count =>
    have hkeeps := DecoderKeeps.runRecord type count s
    exact ⟨fun _ => hkeeps.stats, hkeeps.tblValid.trans,
      fun h => absurd h (by simp [isOperation_recordOf]), hvalid⟩
  | recordsEnded => exact ⟨fun _ => rfl, id, fun h => absurd h (by decide), hvalid⟩

/-- Settles O56: states that look alike differ in working registers only, which no effect carries into what a host can
see. -/
theorem workingRegistersAreUnobservable : Obligations.WorkingRegistersAreUnobservable := by
  intro i s s' t hi hsame hexec
  obtain ⟨w, rfl⟩ := State.visible_eq_iff.1 hsame.symm
  cases effect_of_exec hexec with
  | tablesBuilt => exact ⟨_, exec_buildTables _, rfl⟩
  | notReady hbuild hinvalid =>
    exact ⟨_, exec_notReady (s := s.withWorking w) hinvalid hbuild (by rintro rfl; cases hi), rfl⟩
  | answered hanswers hvalid =>
    obtain ⟨frame, draws, result, -, hexec'⟩ := exec_answersAtOnce hanswers s.visible hvalid
    obtain ⟨ecc, cls, -, h⟩ := hexec' s rfl
    obtain ⟨ecc', cls', -, h'⟩ := hexec' (s.withWorking w) rfl
    refine ⟨_, h', ?_⟩
    rw [← Host.Outcome.next.inj (h.symm.trans hexec)]
    rfl
  | encoded hvalid => exact ⟨_, exec_encode (s := s.withWorking w) hvalid, encodeRun_visible s w⟩
  | decoded hvalid => exact ⟨_, exec_decode (s := s.withWorking w) hvalid, decodeRun_visible s w⟩
  | record type count => rw [isOperation_recordOf] at hi; cases hi
  | recordsEnded => cases hi

/-- Settles O1: an idle engine takes the reset from the queue, and `resetBlock` gives the values of rule R29. -/
theorem resetLeavesTheBlockIdle : Obligations.ResetLeavesTheBlockIdle :=
  ⟨⟨rfl, rfl, rfl, rfl, rfl⟩, fun _ _ hidle hhost =>
    ⟨_, step_host hidle hhost, rfl, rfl, rfl, rfl, rfl, rfl, rfl, rfl⟩⟩

/-- Settles O2: one equation per register number. -/
theorem registersReadByNumber : Obligations.RegistersReadByNumber := by
  refine fun s => ⟨rfl, rfl, rfl, rfl, rfl, rfl, rfl, rfl, fun n hn => ?_⟩
  obtain ⟨k, rfl⟩ := Nat.exists_eq_add_of_le' hn
  rfl

/-- Settles O5: the header at `RPOS` is fetched once and selects the record that the decoder reads from these bytes. -/
theorem stepRunsTheRecord : Obligations.StepRunsTheRecord := by
  intro s used num type i hengine hheader hdecode
  have hrecord : recordOfHeader type num = .ok i := by
    have h : (decodeRecord s.readable).2 = .ok i := hdecode
    rwa [decodeRecord, hheader] at h
  rw [step_records hengine, recordStep, fetchHeader, hheader]
  simp only [hrecord]
  rfl

/-- Settles O58: each clause of the invariant at the reset state. -/
theorem resetMeetsTheInvariant : Obligations.ResetMeetsTheInvariant := State.reset_inv

end

section
/-!
SUPPORT. The statements of 20_memory.md: who writes the source and the sink, what a record does whose payload is short,
and what a device that fails makes of a `decode`.
-/

namespace Sys2Proof.Machine

/-! ## The sink never loses what it held before the operation (rules R40, R174) -/

theorem DecoderKeeps.prefix_snk {s t : State} (h : DecoderKeeps s t) (hs : s.snkStart ≤ s.snk.length) :
    s.snk.take s.snkStart <+: t.snk := by
  rw [← (h.sink hs).2]
  exact List.take_prefix _ _

/-- An `encode` appends to the sink; when it fails, what it held before is what `raise` keeps. -/
theorem prefix_encodeRun_snk (s : State) : s.snk <+: (encodeRun s).snk := by
  have hkeeps := EncoderKeeps.encodeAll s
  have hsink : s.snk <+: (encodeAll s).snk := hkeeps.sink
  have hstart : (encodeAll s).snkStart = s.snk.length := hkeeps.snkStart
  rcases encodeRun_cases s with h | h <;> rw [h]
  · exact hsink
  · have hraise := (DecoderKeeps.raise .ioError (encodeAll s)).prefix_snk (hstart.trans_le hsink.length_le)
    rwa [hstart, ← List.prefix_iff_eq_take.1 hsink] at hraise

/-! ## The source is never written (rules R39, R51) -/

/-- Reading a header keeps what every part of `decode` keeps, in either way it can end. -/
theorem fetchHeader_keeps (s : State) : (∃ f u, fetchHeader s = .ok (f, u) ∧ DecoderKeeps s u) ∨
    ∃ a : Abort, fetchHeader s = .error a ∧ DecoderKeeps s a.state := by
  rcases fetchHeader_cases s with ⟨f, -, h⟩ | ⟨e, -, h⟩
  · exact .inl ⟨f, _, h,
      ⟨rfl, rfl, rfl, rfl, rfl, rfl, rfl, rfl, rfl, rfl, rfl, rfl, id, id, id, fun h => ⟨h, rfl⟩⟩⟩
  · exact .inr ⟨_, h, .advanceRead s _⟩

/-- What a step at a record boundary can do, whether or not the tables are built: it raises, or runs an instruction, from
a state that reading the header leaves. -/
theorem recordStep_cases (s : State) : ∃ u, DecoderKeeps s u ∧
    ((∃ e, recordStep s = .next (raise e u)) ∨ ∃ i, recordStep s = exec i u) := by
  rcases fetchHeader_keeps s with ⟨f, u, hfetch, hkeeps⟩ | ⟨a, hfetch, hkeeps⟩
  · refine ⟨u, hkeeps, ?_⟩
    cases hrecord : recordOfHeader f.1 f.2 with
    | ok i => exact .inr ⟨i, by simp only [recordStep, hfetch, hrecord]⟩
    | error e => exact .inl ⟨errorOfDecode e u, by simp only [recordStep, hfetch, hrecord]⟩
  · exact ⟨a.state, hkeeps, .inl ⟨a.error, by rw [recordStep, hfetch]⟩⟩

/-- What `SRC` and the host's side keep over every effect of an instruction. -/
theorem Effect.hostSide {s t : State} {i : Instr} (h : Effect s i t) :
    t.src = s.src ∧ t.host = s.host ∧ t.srcFail = s.srcFail ∧ t.snkCap = s.snkCap := by
  cases h with
  | encoded =>
    have hkeeps := EncoderKeeps.encodeAll s
    rcases encodeRun_cases s with e | e <;> rw [e] <;>
      exact ⟨hkeeps.src, hkeeps.host, hkeeps.srcFail, hkeeps.snkCap⟩
  | decoded =>
    have hkeeps := DecoderKeeps.decodeRun s
    exact ⟨hkeeps.src, hkeeps.host, hkeeps.srcFail, hkeeps.snkCap⟩
  | record type count =>
    have hkeeps := DecoderKeeps.runRecord type count s
    exact ⟨hkeeps.src, hkeeps.host, hkeeps.srcFail, hkeeps.snkCap⟩
  | tablesBuilt | notReady | answered | recordsEnded => exact ⟨rfl, rfl, rfl, rfl⟩

/-! ## A record whose payload is short (rule R167) -/

/-- The loop over the sectors of a record that does not find all its payload, wherever `RPOS` stands. -/
theorem settle_sectorLoop_short {type : SectorType} {base : Nat}
    {build : Tables → List Byte → EccRegs → Memory → EccOut} {s : State} {count : Nat} (hn : s.NoIoFailure)
    (hcount : 1 ≤ count) (hl : s.src.length < s.dec.rpos + payloadSize type * count) :
    ∃ u, settle (sectorLoop (rebuildSector type base build) count (s.withLeft count)) =
      raise .unexpectedEndOfInput u := by
  suffices ∃ u, sectorLoop (rebuildSector type base build) count (s.withLeft count) =
      .error ⟨.unexpectedEndOfInput, u⟩ by
    obtain ⟨u, hu⟩ := this
    exact ⟨u, by rw [hu]; rfl⟩
  have hn' : (s.withLeft count).NoIoFailure := hn
  rcases Nat.lt_or_ge s.src.length s.dec.rpos with hpast | hinside
  · -- `RPOS` is past the end already: the read of the first sector is short
    obtain ⟨n, rfl⟩ := Nat.exists_eq_add_of_le' hcount
    have hshort : ¬s.dec.rpos + payloadSize type ≤ (s.withLeft (n + 1)).srcLimit := by
      rw [hn'.srcLimit, State.withLeft_src]; omega
    rcases rebuildSector_cases type base build (s.withLeft (n + 1)) with ⟨-, e⟩ | ⟨-, -, hread, -⟩
    · exact ⟨_, by rw [sectorLoop, e, hn'.shortError]; rfl⟩
    · exact absurd hread hshort
  · exact sectorLoop_short count (s.withLeft count) hn' hl hinside

/-- Any record that does not find all its payload. -/
theorem runRecord_short (type : SectorType) {s : State} {count : Nat} (hn : s.NoIoFailure) (hcount : 1 ≤ count)
    (hl : s.src.length < s.dec.rpos + payloadSize type * count) :
    ∃ u, runRecord type count s = raise .unexpectedEndOfInput u := by
  cases type with
  | literal =>
    refine ⟨s.withLeft count, ?_⟩
    have hshort : s.srcLimit < s.dec.rpos + count := by rwa [hn.srcLimit, ← Nat.one_mul count]
    rw [← hn.shortError]
    exact runLit_short hshort
  | mode1 => exact settle_sectorLoop_short hn hcount hl
  | mode2form1 => exact settle_sectorLoop_short hn hcount hl
  | mode2form2 => exact settle_sectorLoop_short hn hcount hl

/-! ## Devices that fail inside a `decode` (rule R170) -/

/-- How many bytes a source that fails at an offset inside it gives. -/
theorem srcLimit_of_srcFail {s : State} {k : Nat} (hfail : s.srcFail = some k) (hk : k < s.src.length) :
    s.srcLimit = k := by
  unfold State.srcLimit
  rw [hfail]
  exact Nat.min_eq_left hk.le

/-- A source that fails inside itself is never merely short. -/
theorem notShort_of_srcFail {s : State} {k : Nat} (hfail : s.srcFail = some k) (hk : k < s.src.length) (n : Nat) :
    NotShort s n := .inr (by rwa [srcLimit_of_srcFail hfail hk])

theorem sinkFull_of_snkCap {s : State} {cap n : Nat} (hcap : s.snkCap = some cap) (h : cap < n) :
    s.sinkFull n = true := by
  unfold State.sinkFull
  rw [hcap]
  exact decide_eq_true h

/-- What can be seen of a step that raises `IoError` (rule R172). -/
theorem ends_of_raise_ioError {x : Host.Outcome State Fault Refusal} (h : ∃ u, x = .next (raise .ioError u)) :
    ∃ t, x = .next t ∧ t.err = 5 ∧ t.engine = .idle ∧ t.result = .error .ioError := by
  obtain ⟨u, hu⟩ := h
  exact ⟨_, hu, rfl, rfl, rfl⟩

/-- What can be seen of a whole `decode` that raises `IoError`; its sink has lost nothing (rule R174). -/
theorem decode_ends_of_raise_ioError {s : State} (hvalid : s.tblValid = true)
    (h : ∃ u, decodeRun s = raise .ioError u) :
    ∃ t, exec .decode s = .next t ∧ t.err = 5 ∧ t.engine = .idle ∧ t.result = .error .ioError ∧ s.snk <+: t.snk := by
  obtain ⟨u, hu⟩ := h
  exact ⟨_, exec_decode hvalid, by rw [hu]; rfl, by rw [hu]; rfl, by rw [hu]; rfl, decodeRun_sink s⟩

/-- The magic of a source that fails before its end and within the first four bytes (rule R145). -/
theorem decodeRun_magic_fails {s : State} (h4 : s.srcLimit < 4) (h : s.srcLimit < s.src.length) :
    ∃ u, decodeRun s = raise .ioError u := by
  have hstart : decodeStart s = raise .ioError s.opened := by
    rw [decodeStart_eq]
    exact if_pos (Nat.lt_min.2 ⟨h4, h⟩)
  exact ⟨s.opened, by rw [decodeRun, hstart, decodeLoop_idle _ rfl]⟩

/-- A header cut off by a failing source (rules R58, R146). -/
theorem recordStep_header_fails {s : State} (h : s.srcLimit < s.src.length)
    (hv : (parseHeader s.readable).value = .error .headerShort) : ∃ u, recordStep s = .next (raise .ioError u) := by
  rcases fetchHeader_cases s with ⟨f, hf, -⟩ | ⟨e, he, hfetch⟩
  · rw [hv] at hf; cases hf
  · rw [hv] at he; cases he
    refine ⟨s.advanceRead (parseHeader s.readable).used, ?_⟩
    rw [recordStep, hfetch]
    have herror : errorOfDecode .headerShort (s.advanceRead (parseHeader s.readable).used) = .ioError :=
      State.shortError_of_fail h
    simp only [herror]

theorem payloadSize_pos (type : SectorType) : 1 ≤ payloadSize type := by cases type <;> decide

/-- A record whose payload a failing source does not give whole (rules R149 to R152). -/
theorem runRecord_source_fails (type : SectorType) {s : State} {count : Nat} (hcount : 1 ≤ count)
    (h : s.srcLimit < s.src.length) (hread : s.srcLimit < s.dec.rpos + payloadSize type * count) :
    ∃ u, runRecord type count s = raise .ioError u := by
  rcases runRecord_fails type (s := s) (count := count) (.inr h) with hraise | hcarried
  · exact hraise
  · have hpos : 0 < payloadSize type * count := Nat.mul_pos (payloadSize_pos type) hcount
    exact absurd (hcarried.read hpos.ne') (Nat.not_le.2 hread)

/-- A record whose blocks the sink cannot hold. -/
theorem runRecord_sink_fails (type : SectorType) {s : State} {count : Nat} (hcount : 1 ≤ count)
    (hread : s.dec.rpos + payloadSize type * count ≤ s.src.length)
    (hfull : s.sinkFull (s.snk.length + blockSize type * count) = true) :
    ∃ u, runRecord type count s = raise .ioError u := by
  rcases runRecord_fails type (s := s) (count := count) (.inl hread) with hraise | hcarried
  · exact hraise
  · have hpos : 0 < blockSize type * count := Nat.mul_pos (blockSize_pos type) hcount
    rw [hcarried.room hpos.ne'] at hfull
    cases hfull

/-- A legal record stands for at least one block, and a block has at least one byte (rules R66, R67). -/
theorem Spec.Record.Legal.one_le_length_blocks {t : Tables} {r : Spec.Record} (h : r.Legal t) :
    1 ≤ r.blocks.flatten.length := by
  obtain ⟨hheader, hblocks⟩ := h
  obtain ⟨f, -, hf⟩ := decodeRecord_ok hheader
  obtain ⟨-, hcount, -, -⟩ := recordOfHeader_record hf
  rw [length_blocks hblocks, ← hcount]
  exact Nat.mul_pos (blockSize_pos r.type) (Nat.succ_pos _)

theorem one_le_length_output {t : Tables} {recs : List Spec.Record} (hne : recs ≠ []) (h : ∀ r ∈ recs, r.Legal t) :
    1 ≤ (Spec.output recs).length := by
  cases recs with
  | nil => exact absurd rfl hne
  | cons r recs =>
    have hr := (h r List.mem_cons_self).one_le_length_blocks
    rw [Spec.output, List.map_cons, List.flatten_cons, List.length_append]
    omega

/-- A stream of legal records on a source that fails inside the stream, or a sink that cannot hold what the records stand
for: the one other end that `decodeRun_fails` allows needs a source and a sink that do neither. -/
theorem decodeRun_stream_fails {s : State} {recs : List Spec.Record} {sentinel trailer junk : List Byte}
    (hl : ∀ r ∈ recs, r.Legal s.tables) (hd : decodeRecord sentinel = (sentinel.length, .ok .endRecord))
    (ht : trailer.length = 4) (hx : s.src = Spec.streamOf recs sentinel trailer ++ junk)
    (hfails : s.srcLimit < (Spec.streamOf recs sentinel trailer).length ∨
      (recs ≠ [] ∧ s.sinkFull (s.snk.length + (Spec.output recs).length) = true)) :
    ∃ u, decodeRun s = raise .ioError u := by
  rcases decodeRun_fails hl hd ht hx with hraise | ⟨hread, hroom⟩
  · exact hraise
  · rcases hfails with hsource | ⟨hne, hfull⟩
    · exact absurd hread (Nat.not_le.2 hsource)
    · have hpos : (Spec.output recs).length ≠ 0 := Nat.one_le_iff_ne_zero.1 (one_le_length_output hne hl)
      rw [hroom hpos] at hfull
      cases hfull

end Sys2Proof.Machine

open Sys2Proof Sys2Proof.Machine

/-- Settles O42: the loop over the sectors of an `M1` record, on a source that holds its payload and on one that does
not. -/
theorem m1RebuildsItsSectors : Obligations.M1RebuildsItsSectors := by
  intro s count hvalid hn hw
  have hexec : exec (.m1 count) s = .next (runM1 count s) := exec_recordOf hvalid .mode1 count
  refine ⟨fun hl => ?_, fun hcount hl => ?_⟩
  · obtain ⟨sectors, m, regs, hlength, hm, -, hblocks, -, hlast, hrun⟩ :=
      settle_sectorLoop_ok buildMode1_makes hn hw hl
    refine ⟨sectors, m, regs, hlength, hm, fun k hk => (hblocks k hk).2, fun last h => ?_, ?_⟩
    · rw [h] at hlast; exact hlast
    · exact hexec.trans (congrArg _ hrun)
  · obtain ⟨u, hu⟩ := runRecord_short .mode1 hn hcount hl
    exact ⟨_, hexec.trans (congrArg _ hu), rfl, rfl, rfl⟩

/-- Settles O53: by the effect of the instruction; `encode`, `decode` and the records only append to the sink or raise,
the rest leave it. -/
theorem sinkOnlyGrows : Obligations.SinkOnlyGrows := by
  intro i s t hexec
  have unchanged : t.snk = s.snk → (isOperation i = true → s.snk <+: t.snk) ∧
      (isOperation i = false → s.snkStart ≤ s.snk.length → s.snk.take s.snkStart <+: t.snk) ∧
      (isOperation i = true → i ≠ .encode → i ≠ .decode → t.snk = s.snk) := fun h =>
    ⟨fun _ => by rw [h], fun _ _ => by rw [h]; exact List.take_prefix _ _, fun _ _ _ => h⟩
  cases effect_of_exec hexec with
  | tablesBuilt | notReady | answered | recordsEnded => exact unchanged rfl
  | encoded => exact ⟨fun _ => prefix_encodeRun_snk s, fun h => absurd h (by decide), fun _ h => absurd rfl h⟩
  | decoded => exact ⟨fun _ => decodeRun_sink s, fun h => absurd h (by decide), fun _ _ h => absurd rfl h⟩
  | record type count =>
    have hrecord : ¬isOperation (recordOf type count) = true := by simp [isOperation_recordOf]
    exact ⟨fun h => absurd h hrecord, fun _ hs => (DecoderKeeps.runRecord type count s).prefix_snk hs,
      fun h => absurd h hrecord⟩

/-- Settles O55: by the effect of the instruction; a step inside a `decode` reads a header and runs one, or compares the
trailer. -/
theorem sourceIsNeverWritten : Obligations.SourceIsNeverWritten := by
  refine ⟨fun i s t hexec => (effect_of_exec hexec).hostSide, fun s t hrun hstep => ?_⟩
  cases hengine : s.engine with
  | idle => exact absurd hengine hrun
  | records =>
    rw [step_records hengine] at hstep
    obtain ⟨u, hkeeps, ⟨e, h⟩ | ⟨i, h⟩⟩ := recordStep_cases s <;> rw [h] at hstep
    · cases hstep; exact hkeeps.src
    · exact (effect_of_exec hstep).hostSide.1.trans hkeeps.src
  | trailer =>
    rw [step_trailer hengine] at hstep
    cases hstep
    exact (DecoderKeeps.runTrailer s).src

/-- Settles O60: at each access `IoError` is the only end, for a source that fails inside itself is never merely short,
and a part that is carried to its end stayed within what both devices can do. -/
theorem ioFailuresEndTheDecode : Obligations.IoFailuresEndTheDecode := by
  refine ⟨fun s k hvalid hfail h4 hk => ?magic, fun s k hengine hfail hk hv => ?header,
    fun s type count k hvalid hcount hfail hk hread => ?payload, fun s k hengine hfail hk hread => ?trailer,
    fun s type count cap hvalid hcount hfail hread hcap hfull => ?sink,
    fun s recs sentinel trailer junk hvalid hl hd ht hx hfails => ?stream⟩
  case magic =>
    have hlimit := srcLimit_of_srcFail hfail hk
    exact decode_ends_of_raise_ioError hvalid (decodeRun_magic_fails (by rwa [hlimit]) (by rwa [hlimit]))
  case header =>
    rw [step_records hengine]
    exact ends_of_raise_ioError (recordStep_header_fails (by rwa [srcLimit_of_srcFail hfail hk]) hv)
  case payload =>
    have hlimit := srcLimit_of_srcFail hfail hk
    rw [exec_recordOf hvalid]
    obtain ⟨u, hu⟩ := runRecord_source_fails type hcount (by rwa [hlimit]) (by rwa [hlimit])
    exact ends_of_raise_ioError ⟨u, by rw [hu]⟩
  case trailer =>
    rw [step_trailer hengine]
    rcases runTrailer_fails (notShort_of_srcFail hfail hk 4) with ⟨u, hu⟩ | hlimit
    · exact ends_of_raise_ioError ⟨u, by rw [hu]⟩
    · rw [srcLimit_of_srcFail hfail hk] at hlimit
      exact absurd hlimit (Nat.not_le.2 hread)
  case sink =>
    rw [exec_recordOf hvalid]
    obtain ⟨u, hu⟩ := runRecord_sink_fails type hcount hread (sinkFull_of_snkCap hcap hfull)
    exact ends_of_raise_ioError ⟨u, by rw [hu]⟩
  case stream =>
    refine decode_ends_of_raise_ioError hvalid (decodeRun_stream_fails hl hd ht hx ?_)
    refine hfails.imp (fun ⟨k, hfail, hk⟩ => ?_) fun ⟨hne, cap, hcap, hfull⟩ => ⟨hne, sinkFull_of_snkCap hcap hfull⟩
    have hinside : k < s.src.length := by rw [hx, List.length_append]; omega
    rwa [srcLimit_of_srcFail hfail hinside]

/-- Settles O6: an idle engine takes the host's next action from the queue; a write to the frame reads back by the laws
of the frame. -/
theorem hostActsBetweenOperations : Obligations.HostActsBetweenOperations := by
  refine fun s hidle => ⟨step_idle_nil hidle, fun rest => ⟨fun x h => step_host hidle h, fun x h => step_host hidle h,
    fun k h => step_host hidle h, fun k h => step_host hidle h, fun a v h ha => ?_, fun a v h ha hw => ?_⟩⟩
  · exact (step_host hidle h).trans (if_neg (Nat.not_lt.2 ha))
  · exact ⟨s.frame.write a v, (step_host hidle h).trans (if_pos ha), Memory.write_wf hw ha v,
      fun b => Memory.read_write hw a b v⟩

end

section
/-!
SUPPORT. The statements of 30_encoding.md: the fields of a header as the sum of its 7-bit groups, the length of the header
the encoder writes, and what a step makes of a header that is no record.
-/

namespace Sys2Proof

/-! ## A header byte (rules R55, R56) -/

theorem getLsbD_six (c : Byte) : c.getLsbD 6 = decide (64 ≤ c.toNat % 128) := by revert c; decide

theorem getLsbD_seven_or (c : Byte) : (c ||| 0x80).getLsbD 7 = true := by revert c; decide

theorem toNat_or_mod (c : Byte) : (c ||| 0x80).toNat % 128 = c.toNat % 128 := by revert c; decide

/-! ## The fields of a header as sums (rules R55, R56, R58) -/

/-- The number that continuation bytes carry: seven bits in each, the first byte lowest (rule R56). -/
def groupsNum (l : List Byte) : Nat := Nat.ofDigits (2 ^ 7) (l.map fun b => b.toNat % 128)

@[simp] theorem groupsNum_nil : groupsNum [] = 0 := rfl

@[simp] theorem groupsNum_cons (c : Byte) (l : List Byte) :
    groupsNum (c :: l) = c.toNat % 128 + 2 ^ 7 * groupsNum l := Nat.ofDigits_cons

theorem groupsNum_concat (l : List Byte) (c : Byte) :
    groupsNum (l ++ [c]) = groupsNum l + 2 ^ (7 * l.length) * (c.toNat % 128) := by
  simp only [groupsNum, List.map_append, List.map_cons, List.map_nil, Nat.ofDigits_append, Nat.ofDigits_singleton,
    List.length_map, Nat.pow_mul]

theorem groupsNum_lt (l : List Byte) : groupsNum l < 2 ^ (7 * l.length) := by
  have h := Nat.ofDigits_lt_base_pow_length (b := 2 ^ 7) (l := l.map fun b => b.toNat % 128) (by decide) fun x hx => by
    obtain ⟨b, -, rfl⟩ := List.mem_map.1 hx
    exact Nat.mod_lt _ (by decide)
  rwa [List.length_map, ← Nat.pow_mul] at h

/-- The type in the first byte of a header (rule R55). -/
def headerType (header : List Byte) : SectorType := sectorTypeOfBits ((header.headD 0).toNat % 4)

/-- The number a header carries: five bits in the first byte, then the groups (rules R55, R56). -/
def headerNum : List Byte → Nat
  | [] => 0
  | c :: l => c.toNat / 4 % 32 + 2 ^ 5 * groupsNum l

theorem headerNum_concat (c : Byte) (l : List Byte) (last : Byte) :
    headerNum (c :: l ++ [last]) = headerNum (c :: l) + last.toNat % 128 * 2 ^ (5 + 7 * l.length) := by
  rw [List.cons_append, headerNum, headerNum, groupsNum_concat, Nat.pow_add]
  ring

theorem headerNum_lt (c : Byte) (l : List Byte) : headerNum (c :: l) < 2 ^ (5 + 7 * l.length) := by
  have h5 : c.toNat / 4 % 32 < 32 := Nat.mod_lt _ (by decide)
  have h7 := groupsNum_lt l
  rw [headerNum, Nat.pow_add]
  omega

/-- A last byte with `cont` set and a zero group after it carry the same type and number (rule R69). -/
theorem headerType_zeroGroup (front : List Byte) (last : Byte) :
    headerType (front ++ [last ||| 0x80] ++ [0]) = headerType (front ++ [last]) := by
  cases front with
  | nil => revert last; decide
  | cons c l => rfl

theorem headerNum_zeroGroup (front : List Byte) (last : Byte) :
    headerNum (front ++ [last ||| 0x80] ++ [0]) = headerNum (front ++ [last]) := by
  cases front with
  | nil => revert last; decide
  | cons c l =>
    rw [List.cons_append, headerNum_concat, ← List.cons_append, headerNum_concat, headerNum_concat, toNat_or_mod,
      show (0 : Byte).toNat % 128 = 0 by rfl, Nat.zero_mul, Nat.add_zero]

theorem headerNum_lt_concat (front : List Byte) (last : Byte) :
    headerNum (front ++ [last]) < 2 ^ (5 + 7 * front.length) := by
  cases front with
  | nil => exact headerNum_lt last []
  | cons c l =>
    have h := headerNum_lt c (l ++ [last])
    rwa [List.length_append] at h

/-! ## Reading a header from its bytes -/

/-- `cont` is set in each of these bytes (rules R55, R56). -/
def Continues (l : List Byte) : Prop := ∀ b ∈ l, b.getLsbD 7 = true

theorem continues_cons {c : Byte} {l : List Byte} : Continues (c :: l) ↔ 128 ≤ c.toNat ∧ Continues l := by
  simp only [Continues, List.forall_mem_cons, getLsbD_seven, decide_eq_true_eq]

theorem Continues.nil : Continues [] := nofun

theorem Continues.concat {front : List Byte} {c : Byte} (h : Continues front) (hc : c.getLsbD 7 = true) :
    Continues (front ++ [c]) := List.forall_mem_append.2 ⟨h, List.forall_mem_singleton.2 hc⟩

/-- A run of continuation bytes whose groups all fit in 32 bits is gathered, and the reading goes on. -/
theorem parseContinuation_front (type : SectorType) (rest : List Byte) : ∀ (front : List Byte) (bits num used : Nat),
    Continues front → bits + 7 * front.length ≤ 32 → num < 2 ^ bits →
    parseContinuation type bits num used (front ++ rest) =
      parseContinuation type (bits + 7 * front.length) (num + 2 ^ bits * groupsNum front) (used + front.length) rest := by
  intro front
  induction front with
  | nil => intro bits num used _ _ _; rfl
  | cons c front ih =>
    intro bits num used hcont hbits hnum
    obtain ⟨hc, hfront⟩ := continues_cons.1 hcont
    rw [List.length_cons] at hbits
    have hgroup : c.toNat % 128 * 2 ^ bits + 2 ^ bits ≤ 2 ^ (bits + 7) := by
      rw [← Nat.succ_mul, Nat.pow_add, Nat.mul_comm]
      exact Nat.mul_le_mul_left _ (Nat.mod_lt _ (by decide))
    have hword : 2 ^ (bits + 7) ≤ 2 ^ 32 := Nat.pow_le_pow_right (by decide) (by omega)
    have hpos : 0 < 2 ^ bits := Nat.two_pow_pos bits
    rw [List.cons_append, parseContinuation_cons type used _ (by omega) (by omega) hnum, if_pos hc,
      ih _ _ _ hfront (by omega) (by omega)]
    congr 1
    · rw [List.length_cons]; omega
    · rw [groupsNum_cons, Nat.pow_add]; ring
    · rw [List.length_cons]; omega

/-- A first byte and up to three continuation bytes, all with `cont` set. -/
theorem parseHeader_front {c : Byte} {l : List Byte} (rest : List Byte) (hcont : Continues (c :: l)) (hl : l.length ≤ 3) :
    parseHeader (c :: l ++ rest) = parseContinuation (headerType (c :: l)) (5 + 7 * l.length) (headerNum (c :: l))
      (1 + l.length) rest := by
  obtain ⟨hc, hl'⟩ := continues_cons.1 hcont
  rw [List.cons_append, parseHeader_cons, if_pos hc]
  exact parseContinuation_front _ rest l 5 _ 1 hl' (by omega) (Nat.mod_lt _ (by decide))

/-- A header of one to five bytes is read as the sum of its groups; only a fourth continuation byte may not fit. -/
theorem parseHeader_of_continues {front : List Byte} {last : Byte} (rest : List Byte) (hcont : Continues front)
    (hlast : last.getLsbD 7 = false) (hlen : front.length ≤ 4) (hfits : front.length = 4 → last.toNat % 128 < 64) :
    parseHeader (front ++ last :: rest) =
      ⟨front.length + 1, .ok (headerType (front ++ [last]), headerNum (front ++ [last]))⟩ := by
  have hclear : ¬128 ≤ last.toNat := by rwa [getLsbD_seven, decide_eq_false_iff_not] at hlast
  cases front with
  | nil => rw [List.nil_append, parseHeader_cons, if_neg hclear]; rfl
  | cons c l =>
    rw [List.length_cons] at hlen hfits
    have hgroup : last.toNat % 128 * 2 ^ (5 + 7 * l.length) < 2 ^ 32 := by
      have : last.toNat % 128 < 128 := Nat.mod_lt _ (by decide)
      obtain h | h | h | h : l.length = 0 ∨ l.length = 1 ∨ l.length = 2 ∨ l.length = 3 := by omega
      all_goals rw [h] at hfits ⊢; omega
    rw [parseHeader_front _ hcont (by omega), parseContinuation_cons _ _ _ (by omega) hgroup (headerNum_lt c l),
      if_neg hclear, ← headerNum_concat, List.length_cons, Nat.add_comm 1]
    rfl

/-- What a continuation byte can be in a header that is read to its end: the last one, or one more follows. -/
theorem parseContinuation_eq_ok {type : SectorType} {bits num used n : Nat} {c : Byte} {rest : List Byte}
    {f : SectorType × Nat} (h : parseContinuation type bits num used (c :: rest) = ⟨n, .ok f⟩) :
    c.getLsbD 7 = false ∧ n = used + 1 ∨
    c.getLsbD 7 = true ∧ ∃ num', parseContinuation type (bits + 7) num' (used + 1) rest = ⟨n, .ok f⟩ := by
  simp only [parseContinuation] at h
  split at h
  · cases h
  · split at h
    · exact .inr ⟨‹_›, _, h⟩
    · cases h
      exact .inl ⟨Bool.eq_false_iff.2 ‹_›, rfl⟩

theorem lt_used_of_parseContinuation {type : SectorType} {bits num used n : Nat} {l : List Byte}
    {f : SectorType × Nat} (h : parseContinuation type bits num used l = ⟨n, .ok f⟩) : used < n := by
  cases l with
  | nil => cases h
  | cons c rest =>
    rcases parseContinuation_eq_ok h with ⟨-, hn⟩ | ⟨-, num', h'⟩
    · omega
    · have hle := (Machine.parseContinuation_used type rest (bits + 7) num' (used + 1)).1
      rw [h'] at hle
      exact hle

/-- Where a continuation is read to its end, `cont` is set in every byte but the last. -/
theorem continues_of_parseContinuation {type : SectorType} {last : Byte} {rest : List Byte} {f : SectorType × Nat} :
    ∀ (front : List Byte) (bits num used : Nat),
    parseContinuation type bits num used (front ++ last :: rest) = ⟨used + front.length + 1, .ok f⟩ →
    Continues front ∧ last.getLsbD 7 = false := by
  intro front
  induction front with
  | nil =>
    intro bits num used h
    rcases parseContinuation_eq_ok h with ⟨hlast, -⟩ | ⟨-, num', h'⟩
    · exact ⟨.nil, hlast⟩
    · exact absurd (lt_used_of_parseContinuation h') (Nat.lt_irrefl _)
  | cons c front ih =>
    intro bits num used h
    rcases parseContinuation_eq_ok h with ⟨-, hn⟩ | ⟨hc, num', h'⟩
    · rw [List.length_cons] at hn; omega
    · rw [List.length_cons, show used + (front.length + 1) + 1 = used + 1 + front.length + 1 by omega] at h'
      obtain ⟨hfront, hlast⟩ := ih (bits + 7) num' (used + 1) h'
      exact ⟨List.forall_mem_cons.2 ⟨hc, hfront⟩, hlast⟩

/-- The same of a whole header. -/
theorem continues_of_parseHeader {front rest : List Byte} {last : Byte} {f : SectorType × Nat}
    (h : parseHeader (front ++ last :: rest) = ⟨front.length + 1, .ok f⟩) :
    Continues front ∧ last.getLsbD 7 = false := by
  cases front with
  | nil =>
    rw [List.nil_append, parseHeader_cons] at h
    split at h
    · exact absurd (lt_used_of_parseContinuation h) (Nat.lt_irrefl _)
    · exact ⟨.nil, by rwa [getLsbD_seven, decide_eq_false_iff_not]⟩
  | cons c l =>
    rw [List.cons_append, parseHeader_cons] at h
    split at h
    · rw [List.length_cons, Nat.add_comm l.length] at h
      obtain ⟨hl, hlast⟩ := continues_of_parseContinuation l 5 _ 1 h
      exact ⟨continues_cons.2 ⟨‹_›, hl⟩, hlast⟩
    · injection h with hused
      rw [List.length_cons] at hused
      omega

/-- A header of up to four bytes carries no more bits than they hold. -/
theorem num_lt_of_parseHeader {front rest : List Byte} {last : Byte} {f : SectorType × Nat} (hlen : front.length ≤ 3)
    (h : parseHeader (front ++ last :: rest) = ⟨front.length + 1, .ok f⟩) : f.2 < 2 ^ (5 + 7 * front.length) := by
  obtain ⟨hcont, hlast⟩ := continues_of_parseHeader h
  rw [parseHeader_of_continues rest hcont hlast (by omega) (by omega)] at h
  cases h
  exact headerNum_lt_concat front last

/-! ## The header the encoder writes (rules R57, R59) -/

theorem length_continuationBytes_le_iff : ∀ {rounds v : Nat} (k : Nat), v < 2 ^ (7 * rounds) →
    ((continuationBytes rounds v).length ≤ k ↔ v < 2 ^ (7 * k)) := by
  intro rounds
  induction rounds with
  | zero =>
    intro v k hv
    exact iff_of_true (Nat.zero_le _) (hv.trans_le (Nat.one_le_two_pow))
  | succ rounds ih =>
    intro v k hv
    have hshift : v >>> 7 = v / 2 ^ 7 := Nat.shiftRight_eq_div_pow v 7
    have hnext : ∀ n, v / 2 ^ 7 < 2 ^ (7 * n) ↔ v < 2 ^ (7 * (n + 1)) := fun n => by
      rw [Nat.div_lt_iff_lt_mul (by decide), ← Nat.pow_add, Nat.mul_succ]
    rw [continuationBytes]
    by_cases hzero : v = 0
    · rw [if_pos hzero, hzero]
      exact iff_of_true (Nat.zero_le _) (Nat.two_pow_pos _)
    · rw [if_neg hzero, hshift, List.length_cons]
      cases k with
      | zero => exact iff_of_false (by omega) (by omega)
      | succ k => rw [Nat.succ_le_succ_iff, ih k ((hnext rounds).2 hv), hnext]

/-- Rule R59: `k` continuation bytes are enough for the counts below `2^(5 + 7k)`. -/
theorem length_headerBytes_le_iff (type : SectorType) (count : Word) (k : Nat) :
    (headerBytes type count).length ≤ k + 1 ↔ (count - 1).toNat < 2 ^ (5 + 7 * k) := by
  have hv : (count - 1).toNat < 2 ^ 32 := (count - 1).isLt
  rw [headerBytes, List.length_cons, Nat.succ_le_succ_iff, Nat.shiftRight_eq_div_pow,
    length_continuationBytes_le_iff k (by omega), Nat.div_lt_iff_lt_mul (by decide), ← Nat.pow_add, Nat.add_comm 5]

/-- The table of rule R59. -/
theorem length_headerBytes (type : SectorType) (count : Word) {v : Nat} (hv : (count - 1).toNat = v) :
    (headerBytes type count).length =
      if v ≤ 31 then 1 else if v ≤ 4095 then 2 else if v ≤ 524287 then 3 else if v ≤ 67108863 then 4 else 5 := by
  have hword : v < 2 ^ 32 := hv ▸ (count - 1).isLt
  have hle := length_headerBytes_le_iff type count
  rw [hv] at hle
  have hpos : 0 < (headerBytes type count).length := Nat.succ_pos _
  have h1 := hle 0
  have h2 := hle 1
  have h3 := hle 2
  have h4 := hle 3
  have h5 := (hle 4).2 (by omega)
  split_ifs <;> omega

/-! ## Decoding what was encoded (rules R60, R66, R67) -/

theorem recordOfHeader_of_legalCount {count : Nat} (h : legalCount count = true) (type : SectorType) :
    recordOfHeader type (BitVec.ofNat 32 count - 1).toNat = .ok (recordOf type count) := by
  simp only [legalCount, Bool.and_eq_true, decide_eq_true_eq] at h
  have hnum : (BitVec.ofNat 32 count - 1).toNat = count - 1 := by
    rw [BitVec.toNat_sub, BitVec.toNat_ofNat]
    simp
    omega
  rw [hnum, recordOfHeader, if_neg (by omega), if_neg (by omega), Nat.sub_add_cancel h.1]

theorem decodeRecord_headerBytes {type : SectorType} {count : Word} {i : Instr}
    (h : recordOfHeader type (count - 1).toNat = .ok i) (rest : List Byte) :
    decodeRecord (headerBytes type count ++ rest) = ((headerBytes type count).length, .ok i) := by
  rw [decodeRecord, parseHeader_headerBytes]
  simp only [Except.bind, h]

theorem decodeRecord_of_header_error {l : List Byte} {e : DecodeError} (h : (parseHeader l).value = .error e) :
    (decodeRecord l).2 = .error e := by
  simp only [decodeRecord, h, Except.bind]

/-- `decode` gives an instruction back from its encoding; the header of a record is read whole whatever follows it. -/
def RoundTrips (i : Instr) : Prop :=
  decode (encode i) = .ok i ∧
    ∀ header rest, encode i = .record header → decodeRecord (header ++ rest) = (header.length, .ok i)

theorem RoundTrips.of_command {i : Instr} {c : Command} (hencode : encode i = .command c)
    (hdecode : decodeCommand c = .ok i) : RoundTrips i :=
  ⟨by rw [hencode]; exact hdecode, fun header _ h => by rw [hencode] at h; cases h⟩

theorem RoundTrips.of_header {i : Instr} {type : SectorType} {count : Word}
    (hencode : encode i = .record (headerBytes type count)) (hrecord : recordOfHeader type (count - 1).toNat = .ok i) :
    RoundTrips i := by
  refine ⟨?_, fun header rest h => ?_⟩
  · rw [hencode, ← List.append_nil (headerBytes type count), decode, decodeRecord_headerBytes hrecord]
  · rw [hencode] at h
    cases h
    exact decodeRecord_headerBytes hrecord rest

/-! ## Command codes (rule R72) -/

theorem layerOfBit_bit (layer : Layer) : layerOfBit layer.bit = layer := by cases layer <;> rfl

theorem modeOfBit_bit (mode : EccMode) : modeOfBit mode.bit = mode := by cases mode <;> rfl

theorem decodeCommand_unknown {c : Command}
    (h : c.code ∉ [0x00#8, 0x01#8, 0x02#8, 0x03#8, 0x04#8, 0x08#8, 0x09#8, 0x0C#8, 0x10#8, 0x11#8]) :
    decodeCommand c = .error .unknownCommand := by
  simp only [List.mem_cons, List.not_mem_nil, or_false, not_or] at h
  obtain ⟨h0, h1, h2, h3, h4, h8, h9, hC, h10, h11⟩ := h
  rw [decodeCommand, if_neg h0, if_neg h1, if_neg h2, if_neg h3, if_neg h4, if_neg h8, if_neg h9, if_neg hC, if_neg h10,
    if_neg h11]

end Sys2Proof

namespace Sys2Proof.Machine

/-- `decode` of a stream of legal records up to its end: the trailer is compared with the checksum of what the records
stand for (rules R158 to R160). -/
theorem decodeRun_streamOf {s : State} {recs : List Spec.Record} {sentinel trailer junk : List Byte} (hn : s.NoIoFailure)
    (hw : s.frame.wf) (hlegal : ∀ r ∈ recs, r.Legal s.tables)
    (hend : decodeRecord sentinel = (sentinel.length, .ok .endRecord)) (htrailer : trailer.length = 4)
    (hsrc : s.src = Spec.streamOf recs sentinel trailer ++ junk) :
    ∃ (m : Memory) (regs : EccRegs) (dec : DecoderRegs) (u : State), m.wf ∧ dec.rpos + junk.length = s.src.length ∧
      FrameKept recs s.frame m ∧
      u = { s with
        snk := s.snk ++ Spec.output recs, snkStart := s.snk.length, ck := s.tables.fold 0 (Spec.output recs)
        frame := m, ecc := regs, dec := dec, engine := .trailer } ∧
      decodeRun s = if trailer = le32 u.ck then u.succeed else raise .checksumMismatch u := by
  rw [Spec.streamOf, List.append_assoc _ trailer] at hsrc
  obtain ⟨m, regs, dec, hm, hpos, hkept, hrun⟩ := decodeRun_stream hn hw hlegal hend hsrc
  rw [List.length_append, htrailer, ← Nat.add_assoc] at hpos
  have hslice : slice s.src dec.rpos 4 = trailer := by
    have hlength := congrArg List.length hsrc
    rw [List.length_append, List.length_append (as := trailer)] at hlength
    rw [slice, hsrc, List.drop_left' (by omega), List.take_left' htrailer]
  refine ⟨m, regs, { dec with rpos := dec.rpos + 4 }, _, hm, hpos, hkept, rfl, ?_⟩
  refine hrun.trans ((runTrailer_ok (by exact hn) (by show dec.rpos + 4 ≤ s.src.length; omega)).trans ?_)
  simp only [hslice]
  rfl

/-- A step at a header that is no record raises the error of its reading (rules R146, R148, R167, R168). -/
theorem recordStep_error {s : State} {e : DecodeError} (h : (decodeRecord s.readable).2 = .error e) :
    ∃ u, recordStep s = .next (raise (errorOfDecode e u) u) := by
  change (parseHeader s.readable).value.bind (fun f => recordOfHeader f.1 f.2) = .error e at h
  rcases fetchHeader_cases s with ⟨f, hf, hfetch⟩ | ⟨e', he, hfetch⟩
  · rw [hf] at h
    have hrecord : recordOfHeader f.1 f.2 = .error e := h
    simp only [recordStep, hfetch, hrecord]
    exact ⟨_, rfl⟩
  · rw [he] at h
    cases h
    exact ⟨_, by rw [recordStep, hfetch]⟩

/-- A header that is overlong or has an illegal count ends the decode with `CorruptRecord` (rules R67, R68). -/
theorem step_corruptRecord {s : State} {e : DecodeError} (hengine : s.engine = .records)
    (h : (decodeRecord s.readable).2 = .error e) (he : e ≠ .headerShort) :
    ∃ t, step s = .next t ∧ t.engine = .idle ∧ t.err = 3 ∧ t.result = .error .corruptRecord := by
  obtain ⟨u, hu⟩ := recordStep_error h
  have hcode : errorOfDecode e u = .corruptRecord := by
    cases e with
    | headerShort => exact absurd rfl he
    | headerOverlong | countIllegal | unknownCommand => rfl
  rw [step_records hengine, hu, hcode]
  exact ⟨_, rfl, rfl, rfl, rfl⟩

end Sys2Proof.Machine

open Sys2Proof Sys2Proof.Machine

/-- Settles O8: a command carries its operands in their ports; a record's header is read back, and its count, which is
legal, selects the record. -/
theorem decodeReturnsTheEncodedInstruction : Obligations.DecodeReturnsTheEncodedInstruction := by
  intro i hwf
  change RoundTrips i
  cases i with
  | buildTables | gfDouble | gfDiv3 | ckLookup | fold | classify | encode | decode => exact .of_command rfl rfl
  | generateParity zeroAddress mode =>
    exact .of_command rfl (congrArg (fun m => Except.ok (Instr.generateParity zeroAddress m)) (modeOfBit_bit mode))
  | process layer mode =>
    exact .of_command rfl
      (congrArg₂ (fun l m => Except.ok (Instr.process l m)) (layerOfBit_bit layer) (modeOfBit_bit mode))
  | lit => exact .of_header rfl (recordOfHeader_of_legalCount hwf .literal)
  | m1 => exact .of_header rfl (recordOfHeader_of_legalCount hwf .mode1)
  | m2f1 => exact .of_header rfl (recordOfHeader_of_legalCount hwf .mode2form1)
  | m2f2 => exact .of_header rfl (recordOfHeader_of_legalCount hwf .mode2form2)
  | endRecord => exact .of_header rfl rfl

/-- Settles O9: the length by the bounds of rule R59; the `cont` bits because the header reads back, so that it can end
at its last byte only. -/
theorem headerLengthFollowsTheCount : Obligations.HeaderLengthFollowsTheCount := by
  intro type count
  refine ⟨length_headerBytes type count rfl, fun front last h => ?_⟩
  have hread := parseHeader_headerBytes type count []
  rw [h, List.append_nil, List.length_append] at hread
  exact (continues_of_parseHeader hread).symm

/-- Settles O10: each header is a run of bytes with `cont` set and a last one, read as the sum of its groups. -/
theorem headerFieldsAreAssembledLowFirst : Obligations.HeaderFieldsAreAssembledLowFirst := by
  intro b0 b1 b2 b3 b4 rest type n0 n1 n2 n3 n4
  have read : ∀ {front : List Byte} {last : Byte} {num : Nat}, Continues front → last.getLsbD 7 = false →
      front.length ≤ 4 → (front.length = 4 → last.toNat % 128 < 64) → headerType (front ++ [last]) = type →
      headerNum (front ++ [last]) = num →
      parseHeader (front ++ last :: rest) = ⟨front.length + 1, .ok (type, num)⟩ :=
    fun hcont hlast hlen hfits htype hnum => by rw [parseHeader_of_continues rest hcont hlast hlen hfits, htype, hnum]
  refine ⟨fun h0 => ?_, fun c0 => ⟨fun h1 => ?_, fun c1 => ⟨fun h2 => ?_, fun c2 => ⟨fun h3 => ?_,
    fun c3 h4 hfits => ?_⟩⟩⟩⟩
  · exact read (front := []) .nil h0 (by decide) nofun rfl rfl
  · exact read (front := [b0]) (.concat .nil c0) h1 (by simp) (by simp) rfl (by simp [headerNum, n0, n1]; omega)
  · exact read (front := [b0, b1]) (.concat (.concat .nil c0) c1) h2 (by simp) (by simp) rfl
      (by simp [headerNum, n0, n1, n2]; omega)
  · exact read (front := [b0, b1, b2]) (.concat (.concat (.concat .nil c0) c1) c2) h3 (by simp) (by simp) rfl
      (by simp [headerNum, n0, n1, n2, n3]; omega)
  · exact read (front := [b0, b1, b2, b3]) (.concat (.concat (.concat (.concat .nil c0) c1) c2) c3) h4 (by simp)
      (fun _ => hfits) rfl (by simp [headerNum, n0, n1, n2, n3, n4]; omega)

/-- Settles O11: four bytes with `cont` set are gathered to 26 bits; the next byte overflows, or the one after it. -/
theorem overlongHeaderIsCorrupt : Obligations.OverlongHeaderIsCorrupt := by
  refine ⟨fun b0 b1 b2 b3 b4 b5 rest c0 c1 c2 c3 => ?_, fun s hengine hvalue => ?_⟩
  · have hfront : Continues [b0, b1, b2, b3] := .concat (.concat (.concat (.concat .nil c0) c1) c2) c3
    have hread : ∀ l, parseHeader (b0 :: b1 :: b2 :: b3 :: l) =
        parseContinuation (headerType [b0, b1, b2, b3]) 26 (headerNum [b0, b1, b2, b3]) 4 l := fun l =>
      parseHeader_front l hfront (by simp)
    have hnum : headerNum [b0, b1, b2, b3] < 2 ^ 26 := headerNum_lt b0 [b1, b2, b3]
    refine ⟨fun h6 => ?_, fun h6 h7 => ?_⟩
    · rw [getLsbD_six, decide_eq_true_eq] at h6
      rw [hread]
      exact parseContinuation_overlong _ _ _ (.inr (by omega))
    · rw [getLsbD_six, decide_eq_false_iff_not] at h6
      rw [getLsbD_seven, decide_eq_true_eq] at h7
      rw [hread, parseContinuation_cons _ _ _ (by decide) (by omega) hnum, if_pos h7]
      exact parseContinuation_overlong _ _ _ (.inl (by decide))
  · exact step_corruptRecord hengine (decodeRecord_of_header_error hvalue) nofun

/-- Settles O12: a zero group adds nothing to the sum; a header of `k + 1` bytes that reads as a number bounds it, and the
encoder writes no more bytes than the bound needs. -/
theorem longerHeaderIsAccepted : Obligations.LongerHeaderIsAccepted := by
  refine ⟨rfl, fun front rest last f hlen h => ?_, fun type count header rest h => ?_⟩
  · obtain ⟨hcont, hlast⟩ := continues_of_parseHeader h
    rw [parseHeader_of_continues rest hcont hlast (by omega) (by omega)] at h
    cases h
    have hread := parseHeader_of_continues rest (hcont.concat (getLsbD_seven_or last)) (last := 0) rfl
      (by rw [List.length_append]; exact Nat.succ_le_succ hlen) (fun _ => by decide)
    rwa [headerType_zeroGroup, headerNum_zeroGroup, List.append_assoc, List.length_append] at hread
  · rcases List.eq_nil_or_concat header with rfl | ⟨front, last, rfl⟩
    · have hused := (Machine.parseHeader_used (l := rest)).2 ⟨_, congrArg HeaderRead.value h⟩
      rw [show parseHeader rest = _ from h] at hused
      cases hused
    · rw [List.concat_eq_append, List.append_assoc, List.length_append] at h
      rw [List.concat_eq_append, List.length_append, List.length_singleton, length_headerBytes_le_iff]
      rcases Nat.lt_or_ge 3 front.length with hlong | hshort
      · exact (count - 1).isLt.trans_le (Nat.pow_le_pow_right (by decide) (by omega))
      · exact num_lt_of_parseHeader hshort h

/-- Settles O13: the three ranges of the number by the tests of rules R147, R148 and R70, in their order. -/
theorem headerSelectsTheRecord : Obligations.HeaderSelectsTheRecord := by
  have illegal : ∀ (type : SectorType) {num : Nat}, 0x7FFFFFFF ≤ num → num ≠ 0xFFFFFFFF →
      recordOfHeader type num = .error .countIllegal := fun type num hle hne => by
    rw [recordOfHeader, if_neg hne, if_pos (by omega)]
  refine ⟨fun type num _ => ⟨fun hend => ?_, illegal type, fun hlt => ?_⟩,
    fun s used num type hengine hread hle hne => ?_⟩
  · rw [recordOfHeader, if_pos hend]
  · rw [recordOfHeader, if_neg (by omega), if_neg (by omega)]
    cases type <;> rfl
  · refine step_corruptRecord hengine (e := .countIllegal) ?_ nofun
    rw [decodeRecord, hread]
    exact illegal type hle hne

/-- Settles O47: the rounds reach the trailer with the sink grown and `CK` the checksum of what was appended, which the
trailer then equals. -/
theorem decodeExecutesTheRecords : Obligations.DecodeExecutesTheRecords := by
  intro s recs sentinel junk hvalid hn hw hlegal hend hsrc
  obtain ⟨m, regs, dec, u, hm, hpos, ⟨hliteral, hmode2⟩, rfl, hrun⟩ :=
    decodeRun_streamOf hn hw hlegal hend (length_le32 _) hsrc
  refine ⟨dec, regs, m, hm, hpos, hliteral, hmode2, ?_⟩
  rw [exec_decode hvalid, hrun, if_pos rfl]
  rfl

/-- Settles O3: the decoder tests the codes one after another; a code outside the table decodes to nothing, so the step
does no more than take the event. -/
theorem commandCodesSelectTheOperation : Obligations.CommandCodesSelectTheOperation := by
  refine ⟨fun c => ⟨?_, ?_, ?_, ?_, ?_, ?_, ?_, ?_, ?_, ?_⟩, fun s c rest hidle hhost hcode => ?_⟩
  iterate 10
    · intro h
      rw [decodeCommand, h]
      rfl
  · calc step s = startCommand c (s.popHost rest) := step_host hidle hhost
      _ = .next (s.popHost rest) := by rw [startCommand, decodeCommand_unknown hcode]

/-- Settles O7: each word is read by the decoder's definition. -/
theorem writtenWordsDecode : Obligations.WrittenWordsDecode := by
  unfold Obligations.WrittenWordsDecode
  decide

end

section
/-!
SUPPORT. The statements of 40_table_engine.md: the entries of built tables as functions of their index, doubling in the
field and its order, division by 3, and the checksum fold as a linear function.
-/

namespace Sys2Proof.Machine

/-! ## Doubling (rules R77, R78) -/

/-- An entry is less than 256, so the shift may as well be truncated and the constant be `0x1D` (rule R78). -/
theorem doubled_truncated {i : Nat} (hi : i < 256) :
    doubled i = ((i <<< 1) &&& 0xFF) ^^^ (if i.testBit 7 then 0x1D else 0) :=
  calc doubled i = doubled i &&& 0xFF := (Nat.and_two_pow_sub_one_of_lt_two_pow (n := 8) (doubled_lt i hi)).symm
    _ = ((i <<< 1) &&& 0xFF) ^^^ ((if i.testBit 7 then gfPoly else 0) &&& 0xFF) := Nat.and_xor_distrib_right
    _ = _ := by split <;> rfl

set_option maxRecDepth 20000 in
/-- Doubling is multiplication by 2 in the field of `0x11D` (rule R78). -/
theorem gfMul_two : ∀ i < 256, Spec.gfMul 2 i = doubled i := by decide

set_option maxRecDepth 20000 in
/-- `i ^ F[i]` is multiplication by 3 in the field of `0x11D` (rule R80). -/
theorem gfMul_three : ∀ i < 256, Spec.gfMul 3 i = i ^^^ doubled i := by decide

theorem doubled_xor (i j : Nat) : doubled (i ^^^ j) = doubled i ^^^ doubled j := by
  unfold doubled
  rw [Nat.shiftLeft_xor_distrib, Nat.testBit_xor]
  cases i.testBit 7 <;> cases j.testBit 7 <;> simp [Nat.xor_comm, Nat.xor_left_comm]

variable {t : Tables}

theorem Tables.Built.toNat_f (ht : t.Built) {i : Nat} (hi : i < 256) : (t.f.getD i 0).toNat = doubled i := by
  obtain ⟨-, hf, -⟩ := ht
  exact (hf i hi).trans (doubled_eq i hi).symm

theorem Tables.Built.toNat_double (ht : t.Built) (x : Byte) : (t.double x).toNat = doubled x.toNat := ht.toNat_f x.isLt

theorem Tables.Built.double_eq (ht : t.Built) (x : Byte) : t.double x = BitVec.ofNat 8 (doubled x.toNat) := by
  rw [← ht.toNat_double, BitVec.ofNat_toNat, BitVec.setWidth_eq]

theorem Tables.Built.double_zero (ht : t.Built) : t.double 0 = 0 := ht.double_eq 0

theorem Tables.Built.double_xor (ht : t.Built) (a b : Byte) : t.double (a ^^^ b) = t.double a ^^^ t.double b := by
  rw [ht.double_eq, ht.double_eq, ht.double_eq, BitVec.toNat_xor, doubled_xor, BitVec.ofNat_xor]

/-! ## The order of 2 (rule R78) -/

theorem repeat_eq_iterate {α : Type} (f : α → α) (n : Nat) (x : α) : Nat.repeat f n x = f^[n] x := by
  induction n with
  | zero => rfl
  | succ n ih => rw [Nat.repeat, ih, Function.iterate_succ_apply']

theorem Tables.Built.toNat_iterate_double (ht : t.Built) (n : Nat) (x : Byte) :
    (t.double^[n] x).toNat = doubled^[n] x.toNat :=
  (Function.Semiconj.iterate_right (f := BitVec.toNat) ht.toNat_double n) x

theorem Tables.Built.isPeriodicPt_one_iff (ht : t.Built) (n : Nat) :
    Function.IsPeriodicPt t.double n 1 ↔ doubled^[n] 1 = 1 := by
  rw [Function.IsPeriodicPt, Function.IsFixedPt, ← BitVec.toNat_inj, ht.toNat_iterate_double]
  rfl

set_option maxRecDepth 20000 in
theorem iterate_doubled_one : doubled^[255] 1 = 1 := by decide

/-- The period of 1 divides `255 = 3 * 5 * 17`, and none of its greatest proper divisors 15, 51 and 85. -/
theorem Tables.Built.minimalPeriod_double_one (ht : t.Built) : Function.minimalPeriod t.double 1 = 255 := by
  have hdvd := ((ht.isPeriodicPt_one_iff 255).2 iterate_doubled_one).minimalPeriod_dvd
  have not_dvd : ∀ n, doubled^[n] 1 ≠ 1 → ¬ Function.minimalPeriod t.double 1 ∣ n := fun n hn h =>
    hn ((ht.isPeriodicPt_one_iff n).1 (Function.isPeriodicPt_iff_minimalPeriod_dvd.2 h))
  have divisors : ∀ d ∈ Nat.divisors 255, d = 255 ∨ d ∣ 15 ∨ d ∣ 51 ∨ d ∣ 85 := by decide
  obtain h | h | h | h := divisors _ (Nat.mem_divisors.2 ⟨hdvd, by decide⟩)
  · exact h
  · exact absurd h (not_dvd 15 (by decide))
  · exact absurd h (not_dvd 51 (by decide))
  · exact absurd h (not_dvd 85 (by decide))

theorem Tables.Built.one_mem_periodicPts (ht : t.Built) : (1 : Byte) ∈ Function.periodicPts t.double :=
  Function.minimalPeriod_pos_iff_mem_periodicPts.1 (by rw [ht.minimalPeriod_double_one]; decide)

theorem card_byte : Fintype.card Byte = 256 := FinEnum.card_eq_fintypeCard.symm

/-- 2 generates the field: the powers of 2 are 255 different bytes other than 0, hence all of them. -/
theorem Tables.Built.exists_iterate_double_one (ht : t.Built) {x : Byte} (hx : x ≠ 0) : ∃ n, t.double^[n] 1 = x := by
  have nonzero : ∀ n, t.double^[n] 1 ≠ 0 := fun n h0 => by
    have hperiod := Function.minimalPeriod_apply_iterate ht.one_mem_periodicPts n
    rw [h0, ht.minimalPeriod_double_one, Function.minimalPeriod_eq_one_iff_isFixedPt.2 ht.double_zero] at hperiod
    cases hperiod
  have distinct : Set.InjOn (t.double^[·] 1) (Finset.range 255) := by
    rw [Finset.coe_range, ← ht.minimalPeriod_double_one]
    exact Function.iterate_injOn_Iio_minimalPeriod
  have hall : (Finset.range 255).image (t.double^[·] 1) = Finset.univ.erase 0 := by
    refine Finset.eq_of_subset_of_card_le (fun y hy => ?_) ?_
    · obtain ⟨n, -, rfl⟩ := Finset.mem_image.1 hy
      exact Finset.mem_erase.2 ⟨nonzero n, Finset.mem_univ _⟩
    · rw [Finset.card_image_of_injOn distinct, Finset.card_erase_of_mem (Finset.mem_univ _), Finset.card_univ,
        card_byte, Finset.card_range]
  obtain ⟨n, -, h⟩ := Finset.mem_image.1 (hall ▸ Finset.mem_erase.2 ⟨hx, Finset.mem_univ x⟩)
  exact ⟨n, h⟩

/-- 2 has order 255. -/
theorem Tables.Built.minimalPeriod_double (ht : t.Built) {x : Byte} (hx : x ≠ 0) :
    Function.minimalPeriod t.double x = 255 := by
  obtain ⟨n, rfl⟩ := ht.exists_iterate_double_one hx
  rw [Function.minimalPeriod_apply_iterate ht.one_mem_periodicPts, ht.minimalPeriod_double_one]

theorem Tables.Built.iterate_double_255 (ht : t.Built) (x : Byte) : t.double^[255] x = x := by
  by_cases hx : x = 0
  · rw [hx, Function.iterate_fixed ht.double_zero]
  · rw [← ht.minimalPeriod_double hx, Function.iterate_minimalPeriod]

/-- Every byte has exactly one preimage: the one that 254 doublings of it give (rule R78). -/
theorem Tables.Built.double_eq_iff (ht : t.Built) (x y : Byte) : t.double x = y ↔ x = t.double^[254] y := by
  constructor
  · rintro rfl
    exact (ht.iterate_double_255 x).symm
  · rintro rfl
    exact (Function.iterate_succ_apply' t.double 254 y).symm.trans (ht.iterate_double_255 y)

/-! ## Division by 3 (rules R79, R80) -/

theorem Tables.Built.div3_tripled (ht : t.Built) (x : Byte) : t.div3 (x ^^^ t.double x) = x := by
  obtain ⟨-, -, hb, -⟩ := ht
  rw [Tables.div3, BitVec.toNat_xor]
  exact (hb x.toNat x.isLt).trans (BitVec.ofNat_toNat ..)

/-- A left inverse on a finite set is a right inverse too. -/
theorem Tables.Built.tripled_div3 (ht : t.Built) (x : Byte) : t.div3 x ^^^ t.double (t.div3 x) = x :=
  have left : Function.LeftInverse t.div3 fun y => y ^^^ t.double y := ht.div3_tripled
  left.rightInverse_of_surjective (Finite.surjective_of_injective left.injective) x

/-- `B[x]` is the one `y` with `y ^ F[y] = x` (rule R80). -/
theorem Tables.Built.div3_eq_iff (ht : t.Built) (x y : Byte) : t.div3 x = y ↔ y ^^^ t.double y = x := by
  constructor
  · rintro rfl
    exact ht.tripled_div3 x
  · rintro rfl
    exact ht.div3_tripled y

theorem xor_xor_xor_comm {w : Nat} (a b c d : BitVec w) : (a ^^^ b) ^^^ (c ^^^ d) = (a ^^^ c) ^^^ (b ^^^ d) := by
  ac_rfl

theorem Tables.Built.div3_xor (ht : t.Built) (a b : Byte) : t.div3 (a ^^^ b) = t.div3 a ^^^ t.div3 b := by
  rw [ht.div3_eq_iff, ht.double_xor, xor_xor_xor_comm, ht.tripled_div3, ht.tripled_div3]

/-! ## The checksum table (rules R81, R82) -/

theorem checkRound_xor (a b : Word) : checkRound (a ^^^ b) = checkRound a ^^^ checkRound b := by
  unfold checkRound
  rw [BitVec.ushiftRight_xor_distrib, BitVec.getLsbD_xor, xor_xor_xor_comm]
  cases a.getLsbD 0 <;> cases b.getLsbD 0 <;> simp

theorem checkEntry_xor (i j : Nat) : checkEntry (i ^^^ j) = checkEntry i ^^^ checkEntry j := by
  unfold checkEntry
  rw [BitVec.ofNat_xor]
  induction 8 with
  | zero => rfl
  | succ n ih => rw [Nat.repeat, ih, checkRound_xor]; rfl

theorem Tables.Built.check_eq (ht : t.Built) (x : Byte) : t.check x = checkEntry x.toNat := by
  obtain ⟨-, -, -, he⟩ := ht
  exact he x.toNat x.isLt

theorem Tables.Built.check_zero (ht : t.Built) : t.check 0 = 0 := ht.check_eq 0

theorem Tables.Built.check_xor (ht : t.Built) (a b : Byte) : t.check (a ^^^ b) = t.check a ^^^ t.check b := by
  rw [ht.check_eq, ht.check_eq, ht.check_eq, BitVec.toNat_xor, checkEntry_xor]

/-! ## The checksum fold (rules R86, R89) -/

/-- The index of one round: the low byte of the accumulator against the byte (rule R86). -/
theorem toNat_lowByte_xor (ck : Word) (b : Byte) :
    ((ck ^^^ b.setWidth 32) &&& 0xFF#32).toNat = (ck.setWidth 8 ^^^ b).toNat := by
  have low : ∀ v : Word, (v &&& 0xFF#32).toNat = (v.setWidth 8).toNat := fun v =>
    (Nat.and_two_pow_sub_one_eq_mod v.toNat 8).trans (BitVec.toNat_setWidth 8 v).symm
  rw [low, BitVec.setWidth_xor, BitVec.setWidth_setWidth_of_le _ (by decide), BitVec.setWidth_eq]

theorem Tables.fold_eq_foldBytes (t : Tables) (ck : Word) (bytes : List Byte) :
    t.fold ck bytes = Spec.foldBytes t.e ck bytes := by
  induction bytes generalizing ck with
  | nil => rfl
  | cons b bytes ih =>
    rw [Tables.fold_cons, ih, Spec.foldBytes, toNat_lowByte_xor]
    rfl

theorem Tables.Built.foldByte_xor (ht : t.Built) (c1 c2 : Word) (x y : Byte) :
    t.foldByte (c1 ^^^ c2) (x ^^^ y) = t.foldByte c1 x ^^^ t.foldByte c2 y := by
  unfold Tables.foldByte
  rw [BitVec.ushiftRight_xor_distrib, BitVec.setWidth_xor, xor_xor_xor_comm, ht.check_xor, xor_xor_xor_comm]

theorem Tables.Built.fold_xor (ht : t.Built) {a b : List Byte} (h : a.length = b.length) (c1 c2 : Word) :
    t.fold (c1 ^^^ c2) (List.zipWith (fun x y => x ^^^ y) a b) = t.fold c1 a ^^^ t.fold c2 b := by
  induction a generalizing b c1 c2 with
  | nil => cases b with
    | nil => rfl
    | cons y b => cases h
  | cons x a ih => cases b with
    | nil => cases h
    | cons y b =>
      rw [List.zipWith_cons_cons, Tables.fold_cons, ht.foldByte_xor, ih (Nat.succ.inj h)]
      rfl

/-- A byte that equals the low byte of the accumulator shifts it out and brings nothing in. -/
theorem Tables.Built.foldByte_lowByte (ht : t.Built) (ck : Word) : t.foldByte ck (ck.setWidth 8) = ck >>> 8 := by
  rw [Tables.foldByte, BitVec.xor_self, show t.check 0#8 = 0#32 from ht.check_zero, BitVec.xor_zero]

theorem Tables.Built.fold_replicate_zero (ht : t.Built) (n : Nat) : t.fold 0 (List.replicate n 0) = 0 := by
  induction n with
  | zero => rfl
  | succ n ih => rwa [List.replicate_succ, Tables.fold_cons, show t.foldByte 0 0 = 0 from ht.foldByte_lowByte 0]

/-- Each of the four steps cancels the low byte of what is left of the checksum (rule R89). -/
theorem Tables.Built.fold_le32 (ht : t.Built) (ck : Word) : t.fold ck (le32 ck) = 0 := by
  have step : ∀ k, t.foldByte (ck >>> k) (ck.extractLsb' k 8) = ck >>> (k + 8) := fun k => by
    rw [← BitVec.setWidth_ushiftRight_eq_extractLsb, ht.foldByte_lowByte, BitVec.shiftRight_add]
  have first : t.foldByte ck (ck.extractLsb' 0 8) = ck >>> 8 := step 0
  rw [le32, Tables.fold_cons, Tables.fold_cons, Tables.fold_cons, Tables.fold_cons, Tables.fold_nil, first, step 8,
    step 16, step 24]
  exact BitVec.ushiftRight_eq_zero (Nat.le_refl 32)

end Sys2Proof.Machine

open Sys2Proof Sys2Proof.Machine

/-- Settles O16: the entries are `doubled` of their index, which is linear; the orbit of 1 under doubling is every byte
but 0, so all of these have its period, 255. -/
theorem doublingTableProperties : Obligations.DoublingTableProperties := by
  intro t ht
  refine ⟨fun i hi => (ht.toNat_f hi).trans (doubled_truncated hi),
    fun i hi => (ht.toNat_f hi).trans (gfMul_two i hi).symm, ht.double_zero,
    fun y => ⟨t.double^[254] y, (ht.double_eq_iff _ y).2 rfl, fun z => (ht.double_eq_iff z y).1⟩, fun x hx => ?_,
    ht.double_xor, ht.double_eq _, ht.double_eq _, ht.double_eq _, ht.double_eq _, ht.double_eq _⟩
  simp only [repeat_eq_iterate]
  exact ⟨ht.iterate_double_255 x, fun k hpos hlt =>
    Function.not_isPeriodicPt_of_pos_of_lt_minimalPeriod hpos.ne' (hlt.trans_eq (ht.minimalPeriod_double hx).symm)⟩

/-- Settles O17: `B` inverts `x ^ F[x]` by its contents; everything else follows from that and the linearity of `F`. -/
theorem inverseTableProperties : Obligations.InverseTableProperties := by
  intro t ht
  refine ⟨fun x => ?_, fun x y => (ht.div3_eq_iff x y).symm, ?_, ht.div3_xor, ht.tripled_div3, ht.div3_tripled, ?_⟩
  · rw [gfMul_three _ x.isLt, BitVec.toNat_xor, ht.toNat_double]
  · rw [ht.div3_eq_iff, ht.double_zero, BitVec.xor_self]; rfl
  · simp only [ht.div3_eq_iff, ht.double_eq]
    decide

/-- Settles O18: the entries are `checkEntry` of their index, eight rounds of a linear function. -/
theorem checksumTableProperties : Obligations.ChecksumTableProperties := by
  refine ⟨fun t ht => ⟨ht.check_zero, ht.check_xor, ?_⟩, ?_⟩
  · simp only [ht.check_eq]
    decide
  · refine BitVec.eq_of_getLsbD_eq ?_
    simp only [BitVec.getLsbD_reverse]
    decide

/-- Settles O20: the model's fold is the rule's loop, whose index is the low byte of `ck ^ byte`. -/
theorem foldRunsTheChecksumLoop : Obligations.FoldRunsTheChecksumLoop := by
  refine ⟨fun s ck bytes hvalid => ?_, fun s ck bytes hinvalid => exec_notReady hinvalid nofun nofun,
    fun s ⟨hvalid, ht⟩ => ⟨fun ck => exec_fold hvalid ck [], ?_, ?_⟩⟩
  · rw [exec_fold hvalid, Tables.fold_eq_foldBytes]
  · rw [exec_fold hvalid, show s.tables.fold 0 [0] = 0 from ht.fold_replicate_zero 1]
  · have hvalue : s.tables.fold 0x12345678 [0xAB] = 0xF4A3E757 := by
      rw [Tables.fold_cons, Tables.fold_nil, Tables.foldByte, ht.check_eq]
      rfl
    rw [exec_fold hvalid, hvalue]

/-- Settles O21: `fold` is a left fold over the bytes. -/
theorem foldComposes : Obligations.FoldComposes := fun s ck a b hvalid =>
  ⟨s.tables.fold ck a, s.tables.fold (s.tables.fold ck a) b, exec_fold hvalid ck a, exec_fold hvalid _ b, by
    rw [exec_fold hvalid, Tables.fold_append]⟩

/-- Settles O22: a round is linear in accumulator and byte; a byte equal to the accumulator's low byte only shifts. -/
theorem foldIsLinear : Obligations.FoldIsLinear := by
  refine fun t ht => ⟨fun c1 c2 a b hlen => ht.fold_xor hlen c1 c2, fun n a => ⟨ht.fold_replicate_zero n, ?_⟩,
    fun body => ?_⟩
  · rw [Tables.fold_append, ht.fold_replicate_zero]
  · rw [Tables.fold_append, ht.fold_le32]

/-- Settles O19: each lookup is one table read behind the check of `TBL_VALID`. -/
theorem lookupsReturnTheEntry : Obligations.LookupsReturnTheEntry := by
  refine ⟨fun s x hvalid => ⟨exec_gfDouble hvalid x, exec_gfDiv3 hvalid x, exec_ckLookup hvalid x⟩,
    fun s x i hi hinvalid => ?_, fun s ⟨hvalid, ht⟩ => ?_⟩
  · refine exec_notReady hinvalid ?_ ?_ <;>
    · rintro rfl
      simp at hi
  · obtain ⟨-, -, hdiv0, -, -, -, -, -, hdiv3, -⟩ := inverseTableProperties s.tables ht
    rw [exec_gfDouble hvalid, exec_gfDouble hvalid, exec_gfDiv3 hvalid, exec_gfDiv3 hvalid, exec_ckLookup hvalid,
      ht.double_zero, ht.double_eq 0x80, hdiv0, hdiv3, ht.check_eq]
    exact ⟨rfl, rfl, rfl, rfl, rfl⟩

end

section
/-!
SUPPORT. The statements of 41_ecc_engine.md: a parity field is determined by the data region, parity is linear, what
`zero_address` hides, and which layer a wrong byte breaks.
-/

namespace Sys2Proof.Machine

/-! ## A parity field is determined by the data region (rule R99) -/

/-- Two frames that hold the parity of one data region agree on the parity field. -/
theorem Spec.ParityOf.field_unique {t : Tables} {m n n' : Memory} {l : Layer} (h : Spec.ParityOf t m n l)
    (h' : Spec.ParityOf t m n' l) : ∀ a, Spec.InField l a → n.read a = n'.read a := by
  rintro a ⟨hlo, hhi⟩
  rcases Nat.lt_or_ge a (Spec.field l + Spec.majors l) with hp0 | hp1
  · obtain ⟨maj, rfl⟩ := Nat.exists_eq_add_of_le hlo
    have hmaj : maj < Spec.majors l := by omega
    exact (h maj hmaj).1.trans (h' maj hmaj).1.symm
  · obtain ⟨maj, rfl⟩ := Nat.exists_eq_add_of_le hp1
    have hmaj : maj < Spec.majors l := by omega
    rw [Nat.add_right_comm]
    exact (h maj hmaj).2.trans (h' maj hmaj).2.symm

/-- The parity of a data region is that of any frame with the same bytes outside the parity field. -/
theorem Spec.ParityOf.congr_data {t : Tables} {m m' n : Memory} {l : Layer}
    (h : ∀ a, ¬Spec.InField l a → m.read a = m'.read a) (hp : Spec.ParityOf t m n l) : Spec.ParityOf t m' n l :=
  hp.congr (fun a _ ha => h a fun hin => absurd hin.1 (Nat.not_le.2 ha)) fun _ _ => rfl

/-- The frame `write` leaves is a function of the bytes outside the parity field (rule R101). -/
theorem processFrame_write_frame_congr (t : Tables) (l : Layer) (r r' : EccRegs) {m m' : Memory} (hm : m.wf)
    (hm' : m'.wf) (h : ∀ a, ¬Spec.InField l a → m.read a = m'.read a) :
    (processFrame t l .write r m).frame = (processFrame t l .write r' m').frame := by
  obtain ⟨-, hwf, hparity, hrest⟩ := processFrame_write t l r hm
  obtain ⟨-, hwf', hparity', hrest'⟩ := processFrame_write t l r' hm'
  refine Memory.ext_read hwf hwf' fun a => ?_
  by_cases ha : Spec.InField l a
  · exact (hparity.congr_data h).field_unique hparity' a ha
  · exact (hrest a ha).trans ((h a ha).trans (hrest' a ha).symm)

/-- A layer just written holds (rule R102). -/
theorem processFrame_write_parityHolds (t : Tables) (l : Layer) (r : EccRegs) {m : Memory} (hm : m.wf) :
    Spec.ParityHolds t (processFrame t l .write r m).frame l := by
  obtain ⟨-, -, hparity, hrest⟩ := processFrame_write t l r hm
  exact hparity.congr_data fun a ha => (hrest a ha).symm

/-! ## The frame with its address field read as zero (rule R105) -/

/-- Past the address field the frame reads as it is. -/
theorem read_seen_of_le (z : Bool) {m : Memory} (hm : m.wf) {a : Nat} (ha : 0x010 ≤ a) :
    (Spec.seen z m).read a = m.read a := by
  rw [read_seen z hm, if_neg (by omega)]

/-- Both parity fields lie past the address field. -/
theorem Spec.InField.le {l : Layer} {a : Nat} (h : Spec.InField l a) : 0x010 ≤ a :=
  le_trans (by cases l <;> decide) h.1

/-- The stored parity bytes are the same in the frame and in the frame as the passes see it. -/
theorem parityHolds_seen_iff (t : Tables) (z : Bool) {m : Memory} (hm : m.wf) (l : Layer) :
    Spec.ParityHolds t (Spec.seen z m) l ↔ Spec.ParityOf t (Spec.seen z m) m l :=
  have hfield : ∀ a, Spec.InField l a → (Spec.seen z m).read a = m.read a := fun _ ha => read_seen_of_le z hm ha.le
  ⟨.congr (fun _ _ _ => rfl) hfield, .congr (fun _ _ _ => rfl) fun a ha => (hfield a ha).symm⟩

/-- With the address field read as zero, frames that differ in it alone look the same. -/
theorem seen_true_congr {m m' : Memory} (hm : m.wf) (hm' : m'.wf)
    (h : ∀ a, ¬(0x00C ≤ a ∧ a < 0x010) → m.read a = m'.read a) : Spec.seen true m = Spec.seen true m' := by
  refine Memory.ext_read (seen_wf true hm) (seen_wf true hm') fun a => ?_
  rw [read_seen true hm, read_seen true hm']
  split
  · rfl
  · rename_i ha
    exact h a fun haddress => ha ⟨rfl, haddress⟩

/-- In either mode `generate_parity` leaves every byte outside the two parity fields (rules R105, R107). -/
theorem generateParityFrame_read_outside (t : Tables) (z : Bool) (mode : EccMode) (r : EccRegs) {m : Memory} (hm : m.wf)
    {a : Nat} (ha : ¬(0x81C ≤ a ∧ a < 0x930)) : (generateParityFrame t z mode r m).frame.read a = m.read a := by
  cases mode with
  | verify =>
    obtain ⟨hframe, -⟩ := generateParityFrame_verify t z r hm
    rw [hframe]
  | write =>
    obtain ⟨-, -, -, hrest⟩ := generateParityFrame_write t z r hm
    exact hrest a ha

/-- With `zero_address` the passes run over the frame as `Spec.seen` shows it; what is put back afterwards is the
address field alone. -/
theorem generateParityFrame_zeroAddress (t : Tables) (mode : EccMode) (r r' : EccRegs) (m : Memory) :
    (generateParityFrame t true mode r m).ok = (bothPasses t mode r' (Spec.seen true m)).ok ∧
    ∀ a, 0x010 ≤ a →
      (generateParityFrame t true mode r m).frame.read a = (bothPasses t mode r' (Spec.seen true m)).frame.read a := by
  obtain ⟨hok, hframe⟩ :=
    bothPasses_congr t mode { r with addrSave := m.readBytes addressBase 4 } r' (Spec.seen true m)
  refine ⟨hok, fun a ha => ?_⟩
  rw [← hframe]
  refine Memory.read_writeBytes_outside fun hin => ?_
  rw [Memory.length_readBytes] at hin
  exact absurd hin.2 (Nat.not_lt.2 ha)

/-! ## Regeneration (rule R110) -/

/-- A frame in which both layers hold is the frame `write` leaves. -/
theorem generateParityFrame_write_of_verified {t : Tables} {z : Bool} {m : Memory} (r : EccRegs) (hm : m.wf)
    (h : ∀ l, Spec.ParityHolds t (Spec.seen z m) l) : (generateParityFrame t z .write r m).frame = m := by
  obtain ⟨-, hwf, hparity, hrest⟩ := generateParityFrame_write t z r hm
  generalize (generateParityFrame t z .write r m).frame = n at *
  have hdata : ∀ a, 0x00C ≤ a → a < 0x81C → (Spec.seen z n).read a = (Spec.seen z m).read a := fun a _ ha => by
    rw [read_seen z hwf, read_seen z hm, hrest a fun hin => absurd hin.1 (Nat.not_le.2 ha)]
  refine Memory.ext_read hwf hm fun a => ?_
  by_cases ha : 0x81C ≤ a ∧ a < 0x930
  · have hseen := Spec.parity_unique hparity h hdata a (by omega) ha.2
    rwa [read_seen_of_le z hwf (by omega), read_seen_of_le z hm (by omega)] at hseen
  · exact hrest a ha

/-- What an answer of 1 says of the frame. -/
theorem parityHolds_of_verified {s t : State} {z : Bool} (hvalid : s.tblValid = true) (hm : s.frame.wf)
    (hexec : exec (.generateParity z .verify) s = .next t) (hresult : t.result = .ok true) (l : Layer) :
    Spec.ParityHolds s.tables (Spec.seen z s.frame) l := by
  rw [exec_generateParity hvalid] at hexec
  cases hexec
  obtain ⟨-, hok⟩ := generateParityFrame_verify s.tables z s.ecc hm
  exact hok.1 (Result.ok.inj hresult) l

/-! ## Linearity (rule R102) -/

/-- A walk that applies an additive function after each exclusive or is additive. -/
theorem foldl_additive {g : Byte → Byte} (hg : ∀ a b, g (a ^^^ b) = g a ^^^ g b) (f f' : Nat → Byte)
    (steps : List Nat) (x y : Byte) : (steps.map fun k => f k ^^^ f' k).foldl (fun a b => g (a ^^^ b)) (x ^^^ y) =
      (steps.map f).foldl (fun a b => g (a ^^^ b)) x ^^^ (steps.map f').foldl (fun a b => g (a ^^^ b)) y := by
  induction steps generalizing x y with
  | nil => rfl
  | cons k steps ih =>
    simp only [List.map_cons, List.foldl_cons]
    rw [xor_xor_xor_comm, hg, ih]

section

variable {m m1 m2 : Memory} (h : ∀ a, m.read a = m1.read a ^^^ m2.read a) (l : Layer) (maj : Nat)

include h

theorem Spec.codeword_xor : Spec.codeword m l maj = (List.range (Spec.steps l)).map fun step =>
    m1.read (0x00C + Spec.index l maj step) ^^^ m2.read (0x00C + Spec.index l maj step) :=
  List.map_congr_left fun _ _ => h _

theorem Spec.accB_xor : Spec.accB m l maj = Spec.accB m1 l maj ^^^ Spec.accB m2 l maj := by
  rw [Spec.accB, Spec.codeword_xor h]
  exact foldl_additive (g := id) (fun _ _ => rfl) _ _ _ 0 0

variable {t : Tables} (ht : t.Built)

include ht

theorem Spec.accA_xor : Spec.accA t m l maj = Spec.accA t m1 l maj ^^^ Spec.accA t m2 l maj := by
  rw [Spec.accA, Spec.codeword_xor h]
  exact foldl_additive ht.double_xor _ _ _ 0 0

theorem Spec.p0_xor : Spec.p0 t m l maj = Spec.p0 t m1 l maj ^^^ Spec.p0 t m2 l maj := by
  rw [Spec.p0, Spec.accA_xor h l maj ht, ht.double_xor, Spec.accB_xor h, xor_xor_xor_comm, ht.div3_xor]
  rfl

theorem Spec.p1_xor : Spec.p1 t m l maj = Spec.p1 t m1 l maj ^^^ Spec.p1 t m2 l maj := by
  rw [Spec.p1, Spec.p0_xor h l maj ht, Spec.accB_xor h, xor_xor_xor_comm]
  rfl

end

/-! ## One wrong byte (rules R97, R108) -/

/-- An exclusive or over a range notices a change at one place. -/
theorem foldl_xor_range_ne {n k : Nat} (hk : k < n) {f f' : Nat → Byte} (hne : f k ≠ f' k)
    (h : ∀ j < n, j ≠ k → f j = f' j) :
    ((List.range n).map f).foldl (fun a b => a ^^^ b) 0 ≠ ((List.range n).map f').foldl (fun a b => a ^^^ b) 0 := by
  induction n with
  | zero => cases hk
  | succ n ih =>
    simp only [List.range_succ, List.map_append, List.map_cons, List.map_nil, List.foldl_append, List.foldl_cons,
      List.foldl_nil]
    rcases Nat.lt_succ_iff_lt_or_eq.1 hk with hlt | rfl
    · rw [h n (Nat.lt_succ_self n) hlt.ne', Ne, BitVec.xor_left_inj]
      exact ih hlt fun j hj => h j (Nat.lt_succ_of_lt hj)
    · have hbefore : (List.range k).map f = (List.range k).map f' := List.map_congr_left fun j hj =>
        have hjk : j < k := List.mem_range.1 hj
        h j (Nat.lt_succ_of_lt hjk) hjk.ne
      rw [hbefore, Ne, BitVec.xor_right_inj]
      exact hne

/-- The two parity bytes of a major differ by `ACC_B` (rule R99). -/
theorem Spec.ParityOf.xor_stored {m n : Memory} {l : Layer} (h : Spec.ParityOf t m n l) {maj : Nat}
    (hmaj : maj < Spec.majors l) :
    n.read (Spec.field l + maj) ^^^ n.read (Spec.field l + maj + Spec.majors l) = Spec.accB m l maj := by
  obtain ⟨h0, h1⟩ := h maj hmaj
  rw [h0, h1, Spec.p1, ← BitVec.xor_assoc, BitVec.xor_self, BitVec.zero_xor]

/-- The P walk of major `i mod 86` reads the data byte `i` at its step `i div 86` and at no other (rule R97). -/
theorem index_p_eq_iff {i step : Nat} (hi : i < 2064) (hstep : step < 24) :
    Spec.index .p (i % 86) step = i ↔ step = i / 86 := by
  simp only [Spec.index]
  omega

/-- Where the data region of the P layer ends, the two parity fields begin; they reach the frame's end (rule R104). -/
theorem exists_inField {a : Nat} (h1 : 0x81C ≤ a) (h2 : a < 0x930) : ∃ l, Spec.InField l a := by
  rcases Nat.lt_or_ge a 0x8C8 with hp | hq
  · exact ⟨.p, h1, hp⟩
  · exact ⟨.q, hq, h2⟩

section

variable {t : Tables} {m n : Memory} {a : Nat} (hne : n.read a ≠ m.read a)
  (h : ∀ b, b ≠ a → n.read b = m.read b)

include hne h

theorem accB_p_ne (h1 : 0x00C ≤ a) (h2 : a < 0x81C) :
    Spec.accB n .p ((a - 0x00C) % 86) ≠ Spec.accB m .p ((a - 0x00C) % 86) := by
  have hi : a - 0x00C < 2064 := by omega
  have hstep : (a - 0x00C) / 86 < 24 := by omega
  refine foldl_xor_range_ne hstep ?_ fun j hj hother => h _ fun heq => hother ((index_p_eq_iff hi hj).1 (by omega))
  rwa [(index_p_eq_iff hi hstep).2 rfl, Nat.add_sub_of_le h1]

/-- A changed data byte breaks the P layer: `ACC_B` of its major changes and the stored parity bytes do not. -/
theorem not_parityHolds_of_data_ne (hm : Spec.ParityHolds t m .p) (h1 : 0x00C ≤ a) (h2 : a < 0x81C) :
    ¬Spec.ParityHolds t n .p := by
  intro hn
  have hmaj : (a - 0x00C) % 86 < Spec.majors .p := Nat.mod_lt _ (by decide)
  have hfield : 0x81C ≤ Spec.field .p := le_rfl
  refine accB_p_ne hne h h1 h2 ?_
  rw [← hn.xor_stored hmaj, ← hm.xor_stored hmaj, h _ (by omega), h _ (by omega)]

/-- A changed parity byte breaks its own layer: the data region, which determines it, has not changed. -/
theorem not_parityHolds_of_field_ne {l : Layer} (hm : Spec.ParityHolds t m l) (ha : Spec.InField l a) :
    ¬Spec.ParityHolds t n l := by
  intro hn
  have houtside : ∀ b, ¬Spec.InField l b → n.read b = m.read b := fun b hb => h b fun hba => hb (hba ▸ ha)
  exact hne ((hn.congr_data houtside).field_unique hm a ha)

theorem not_forall_parityHolds_of_ne (hm : ∀ l, Spec.ParityHolds t m l) (h1 : 0x00C ≤ a) (h2 : a < 0x930) :
    ¬∀ l, Spec.ParityHolds t n l := by
  intro hn
  rcases Nat.lt_or_ge a 0x81C with hdata | hparity
  · exact not_parityHolds_of_data_ne hne h (hm .p) h1 hdata (hn .p)
  · obtain ⟨l, hfield⟩ := exists_inField hparity h2
    exact not_parityHolds_of_field_ne hne h (hm l) hfield (hn l)

end

end Sys2Proof.Machine

open Sys2Proof Sys2Proof.Machine

/-- Settles O23: `verify` leaves the frame and answers whether the layer holds. -/
theorem processVerifyComparesEveryParityByte : Obligations.ProcessVerifyComparesEveryParityByte := fun s layer hvalid =>
  ⟨_, _, by rw [exec_process hvalid, processFrame_verify_frame],
    processFrame_verify_ok s.tables layer s.ecc s.frame⟩

/-- Settles O24: by everything `write` does, which fixes every byte of the frame it leaves. -/
theorem processWriteOverwritesTheParityField : Obligations.ProcessWriteOverwritesTheParityField := by
  refine ⟨fun s layer hvalid hm => ?_, fun s s' t t' layer hvalid hvalid' htables hm hm' hsame hexec hexec' => ?_⟩
  · obtain ⟨hok, hwf, hparity, hrest⟩ := processFrame_write s.tables layer s.ecc hm
    exact ⟨_, _, hwf, by rw [exec_process hvalid, hok], hparity, hrest⟩
  · rw [exec_process hvalid] at hexec
    rw [exec_process hvalid', ← htables] at hexec'
    cases hexec
    cases hexec'
    exact processFrame_write_frame_congr s.tables layer s.ecc s'.ecc hm hm' hsame

/-- Settles O25: `verify` answers for the frame as the passes see it, whose parity fields are those of the frame. -/
theorem generateParityVerifyAnswersForBothLayers : Obligations.GenerateParityVerifyAnswersForBothLayers := by
  intro s z hvalid hm
  obtain ⟨hframe, hok⟩ := generateParityFrame_verify s.tables z s.ecc hm
  exact ⟨_, _, by rw [exec_generateParity hvalid, hframe],
    hok.trans (forall_congr' (parityHolds_seen_iff s.tables z hm))⟩

/-- Settles O26: by everything `generate_parity` does in `write` mode. -/
theorem generateParityWritesBothFields : Obligations.GenerateParityWritesBothFields := by
  intro s z hvalid hm
  obtain ⟨hok, hwf, hparity, hrest⟩ := generateParityFrame_write s.tables z s.ecc hm
  exact ⟨_, _, hwf, by rw [exec_generateParity hvalid, hok],
    fun l => (parityHolds_seen_iff s.tables z hwf l).1 (hparity l), hrest⟩

/-- Settles O27: with the address field zeroed the two frames look the same to both passes. -/
theorem zeroAddressHidesTheAddressField : Obligations.ZeroAddressHidesTheAddressField := by
  intro s s' mode hvalid hvalid' htables hm hm' hsame
  obtain ⟨hok, hframe⟩ := generateParityFrame_zeroAddress s.tables mode s.ecc State.reset.ecc s.frame
  obtain ⟨hok', hframe'⟩ := generateParityFrame_zeroAddress s'.tables mode s'.ecc State.reset.ecc s'.frame
  rw [← htables, ← seen_true_congr hm hm' hsame] at hok' hframe'
  refine ⟨_, _, exec_generateParity hvalid true mode, exec_generateParity hvalid' true mode,
    fun a _ ha => generateParityFrame_read_outside _ _ _ _ hm (by omega), ?_, fun a ha _ => ?_⟩
  · rw [← htables]
    exact congrArg Result.ok (hok.trans hok'.symm)
  · rw [← htables]
    exact (hframe a (by omega)).trans (hframe' a (by omega)).symm

/-- Settles O28: both accumulators and both tables are additive; a zero region is the exclusive or of itself with
itself; a layer just written holds. -/
theorem parityIsLinear : Obligations.ParityIsLinear := by
  refine ⟨fun t m m1 m2 layer ht h maj _ => ⟨Spec.p0_xor h layer maj ht, Spec.p1_xor h layer maj ht⟩,
    fun t m layer ht h maj _ => ?_, fun s layer hvalid hm => ?_⟩
  · have hdouble : ∀ a, m.read a = m.read a ^^^ m.read a := fun a => by rw [BitVec.xor_self]; exact h a
    exact ⟨(Spec.p0_xor hdouble layer maj ht).trans BitVec.xor_self,
      (Spec.p1_xor hdouble layer maj ht).trans BitVec.xor_self⟩
  · refine ⟨_, _, exec_process hvalid layer .write, exec_process ?_ layer .verify, congrArg Result.ok ?_⟩
    · exact hvalid
    · exact (processFrame_verify_ok _ _ _ _).2 (processFrame_write_parityHolds s.tables layer s.ecc hm)

/-- Settles O29: where both layers hold, the frame `write` leaves is the frame itself. -/
theorem regenerationLeavesTheFrame : Obligations.RegenerationLeavesTheFrame := by
  intro s t z hvalid hm hexec hresult
  have hframe := generateParityFrame_write_of_verified s.ecc hm (parityHolds_of_verified hvalid hm hexec hresult)
  obtain ⟨hok, -⟩ := generateParityFrame_write s.tables z s.ecc hm
  exact ⟨_, by rw [exec_generateParity hvalid, hframe, hok]⟩

/-- Settles O30: the changed frame differs at one address, so one of the layers no longer holds. -/
theorem singleWrongByteIsDetected : Obligations.SingleWrongByteIsDetected := by
  intro s t a v hvalid hm h1 h2 hv hexec hresult
  have hne : (s.frame.write a v).read a ≠ s.frame.read a := by rwa [Memory.read_write_self hm]
  have hbroken : ¬∀ l, Spec.ParityHolds s.tables (s.frame.write a v) l :=
    not_forall_parityHolds_of_ne hne (fun b hb => Memory.read_write_ne _ v hb)
      (parityHolds_of_verified hvalid hm hexec hresult) h1 h2
  obtain ⟨-, hok⟩ := generateParityFrame_verify s.tables false s.ecc (Memory.write_wf hm (a := a) h2 v)
  refine ⟨_, exec_generateParity ?_ false .verify, congrArg Result.ok (Bool.eq_false_iff.2 (mt hok.1 hbroken))⟩
  exact hvalid

end

section
/-!
SUPPORT. The statements of 42_classifier.md: which bytes of its window a classification may read, and that its answer
is a function of them.
-/

namespace Sys2Proof.Machine

variable {t : Tables} {w w' : List Byte} {n n' : Nat} {allow : Bool}

/-! ## Bytes below a bound -/

theorem take_eq_of_take_eq {j k k' : Nat} (h : w.take k = w'.take k') (hj : j ≤ k) (hj' : j ≤ k') :
    w.take j = w'.take j := by
  simpa [List.take_take, Nat.min_eq_left hj, Nat.min_eq_left hj'] using congrArg (List.take j) h

/-- Byte strings that agree below `k` have the same slices there. -/
theorem slice_eq_of_take_eq {k a len : Nat} (h : w.take k = w'.take k) (hk : a + len ≤ k) :
    slice w a len = slice w' a len := by
  unfold slice
  rw [List.take_drop, List.take_drop, take_eq_of_take_eq h hk hk]

theorem checksumAt_congr {k offset : Nat} (h : w.take k = w'.take k) (hk : offset + 4 ≤ k) :
    Spec.ChecksumAt t w offset ↔ Spec.ChecksumAt t w' offset := by
  unfold Spec.ChecksumAt
  rw [slice_eq_of_take_eq h hk, slice_eq_of_take_eq (a := 0) (len := offset) h (by omega)]

/-! ## The bytes each type's checks read (rule R122) -/

theorem mode2Form1Window_congr (hn : 2336 ≤ n ↔ 2336 ≤ n') (h : w.take 2336 = w'.take 2336) :
    Spec.Mode2Form1Window t w n ↔ Spec.Mode2Form1Window t w' n' := by
  unfold Spec.Mode2Form1Window
  rw [hn, h, slice_eq_of_take_eq (a := 0) (len := 4) h (by decide),
    slice_eq_of_take_eq (a := 4) (len := 4) h (by decide), checksumAt_congr h (by decide)]

theorem mode2Form2Window_congr (hn : 2336 ≤ n ↔ 2336 ≤ n') (h : w.take 2336 = w'.take 2336) :
    Spec.Mode2Form2Window t w n ↔ Spec.Mode2Form2Window t w' n' := by
  unfold Spec.Mode2Form2Window
  rw [hn, slice_eq_of_take_eq (a := 0) (len := 4) h (by decide),
    slice_eq_of_take_eq (a := 4) (len := 4) h (by decide), checksumAt_congr h (by decide)]

/-- The `Mode1` checks before the parity check (rules R113, R114, R116). -/
def Mode1BeforeParity (t : Tables) (w : List Byte) (n : Nat) (allow : Bool) : Prop :=
  allow = true ∧ 2352 ≤ n ∧ slice w 0 12 = syncPattern ∧ slice w 0x00F 1 = [0x01] ∧
  slice w 0x814 8 = List.replicate 8 0 ∧ Spec.ChecksumAt t w 0x810

theorem mode1Window_iff : Spec.Mode1Window t w n allow ↔
    Mode1BeforeParity t w n allow ∧ Spec.ParityOfBytes t 0x000 (w.take 2352) := by
  unfold Spec.Mode1Window Mode1BeforeParity
  simp only [and_assoc]
  rfl

/-- They read none of the last 16 bytes of a sector. -/
theorem mode1BeforeParity_congr (hn : 2352 ≤ n ↔ 2352 ≤ n') (h : w.take 2336 = w'.take 2336) :
    Mode1BeforeParity t w n allow ↔ Mode1BeforeParity t w' n' allow := by
  unfold Mode1BeforeParity
  rw [hn, slice_eq_of_take_eq (a := 0) (len := 12) h (by decide),
    slice_eq_of_take_eq (a := 0x00F) (len := 1) h (by decide),
    slice_eq_of_take_eq (a := 0x814) (len := 8) h (by decide), checksumAt_congr h (by decide)]

theorem mode1Window_congr (hn : 2352 ≤ n ↔ 2352 ≤ n') (h : 2352 ≤ n → w.take 2352 = w'.take 2352) :
    Spec.Mode1Window t w n allow ↔ Spec.Mode1Window t w' n' allow := by
  by_cases hlong : 2352 ≤ n
  · rw [mode1Window_iff, mode1Window_iff, h hlong,
      mode1BeforeParity_congr hn (take_eq_of_take_eq (h hlong) (by decide) (by decide))]
  · exact iff_of_false (fun hm => hlong hm.2.1) fun hm => hlong (hn.2 hm.2.1)

/-! ## The answer -/

theorem classifyWindow_short (hn : n < 2336) (c : ClassifierRegs) (e : EccRegs) :
    classifyWindow t w n allow c e = ⟨.literal, c, e⟩ := if_pos hn

/-- The answer is decided by the first 2336 bytes and by whether the window meets the `Mode1` checks. -/
theorem classifyWindow_type_of_take_eq (hn : 2336 ≤ n ↔ 2336 ≤ n') (h : w.take 2336 = w'.take 2336)
    (hm : Spec.Mode1Window t w n allow ↔ Spec.Mode1Window t w' n' allow) (c c' : ClassifierRegs) (e e' : EccRegs) :
    (classifyWindow t w n allow c e).type = (classifyWindow t w' n' allow c' e').type := by
  obtain ⟨h1, h2, h3⟩ := classifyWindow_type t w n allow c e
  obtain ⟨k1, k2, k3⟩ := classifyWindow_type t w' n' allow c' e'
  rw [hm, ← k1] at h1
  rw [hm, mode2Form1Window_congr hn h, ← k2] at h2
  rw [hm, mode2Form1Window_congr hn h, mode2Form2Window_congr hn h, ← k3] at h3
  generalize (classifyWindow t w n allow c e).type = x at *
  generalize (classifyWindow t w' n' allow c' e').type = y at *
  cases x with
  | mode1 => exact (h1.1 rfl).symm
  | mode2form1 => exact (h2.1 rfl).symm
  | mode2form2 => exact (h3.1 rfl).symm
  | literal =>
    cases y with
    | literal => rfl
    | mode1 => exact h1.2 rfl
    | mode2form1 => exact h2.2 rfl
    | mode2form2 => exact h3.2 rfl

/-! ## The window of a command (rule R111, log 19) -/

theorem take_fullWindow {k : Nat} (h : k ≤ w.length) (draw : Nat) : (fullWindow draw w n).take k = w.take k :=
  List.take_append_of_le_length h

theorem draws_of_supplied (h : min n 2352 ≤ w.length) (draws : Nat) :
    (if windowShort w n then draws + 1 else draws) = draws :=
  if_neg fun hshort => Nat.not_lt_of_le h ((windowShort_iff w n).1 hshort).2

/-- A classification of at least 2336 bytes whose every byte is there. -/
theorem classifyWindow_type_supplied (hn : 2336 ≤ n ↔ 2336 ≤ n') (hn' : 2352 ≤ n ↔ 2352 ≤ n') (hlong : 2336 ≤ n)
    (h : w.take (min n 2352) = w'.take (min n' 2352)) (hw : min n 2352 ≤ w.length) (hw' : min n' 2352 ≤ w'.length)
    (draw draw' : Nat) (c c' : ClassifierRegs) (e e' : EccRegs) :
    (classifyWindow t (fullWindow draw w n) n allow c e).type =
      (classifyWindow t (fullWindow draw' w' n') n' allow c' e').type := by
  rw [fullWindow_of_le hw, fullWindow_of_le hw']
  exact classifyWindow_type_of_take_eq hn (take_eq_of_take_eq h (by omega) (by omega))
    (mode1Window_congr hn' fun _ => take_eq_of_take_eq h (by omega) (by omega)) c c' e e'

/-- A classification whose `Mode1` candidate falls before its parity check: the bytes from 2336 on do not matter, nor
whether the command supplies them. -/
theorem classifyWindow_type_fallen (hn : 2336 ≤ n ↔ 2336 ≤ n') (hn' : 2352 ≤ n ↔ 2352 ≤ n')
    (hfallen : ¬Mode1BeforeParity t w n allow) (h : w.take 2336 = w'.take 2336) (hw : 2336 ≤ w.length)
    (hw' : 2336 ≤ w'.length) (draw draw' : Nat) (c c' : ClassifierRegs) (e e' : EccRegs) :
    (classifyWindow t (fullWindow draw w n) n allow c e).type =
      (classifyWindow t (fullWindow draw' w' n') n' allow c' e').type := by
  have hfull : (fullWindow draw w n).take 2336 = w.take 2336 := take_fullWindow hw draw
  have hfull' : (fullWindow draw' w' n').take 2336 = w.take 2336 := (take_fullWindow hw' draw').trans h.symm
  refine classifyWindow_type_of_take_eq hn (hfull.trans hfull'.symm) (iff_of_false ?_ ?_) c c' e e'
  · exact fun hm => hfallen ((mode1BeforeParity_congr Iff.rfl hfull).1 (mode1Window_iff.1 hm).1)
  · exact fun hm => hfallen ((mode1BeforeParity_congr hn'.symm hfull').1 (mode1Window_iff.1 hm).1)

end Sys2Proof.Machine

open Sys2Proof Sys2Proof.Machine

/-- Settles O31: the window is the one the command supplies, completed by the free values. -/
theorem classifyDecidesByTheChecks : Obligations.ClassifyDecidesByTheChecks := by
  refine ⟨fun s w n allow hvalid => ?_, fun s w n allow hinvalid => ?_⟩
  · have hexec := exec_classify hvalid w n allow
    simp only [windowShort_iff] at hexec
    exact ⟨fullWindow s.draws w n, _, _, _, prefix_fullWindow _ _ _, le_length_fullWindow _ _ _,
      fun hsupplied => fullWindow_of_le hsupplied _, hexec, classifyWindow_type _ _ _ _ _ _⟩
  · rw [exec_notReady (i := .classify w n allow) hinvalid nofun nofun, raise_notReady]

/-- Settles O32: a short window is answered before any check, and no free value is drawn for it. -/
theorem shortWindowIsLiteral : Obligations.ShortWindowIsLiteral := by
  intro s w n allow hvalid hn
  have hdraws : ¬windowShort w n = true := fun h => Nat.not_le_of_lt hn ((windowShort_iff w n).1 h).1
  rw [exec_classify hvalid, classifyWindow_short hn, if_neg hdraws]

/-- Settles O33: the sync pattern contradicts a duplicated address, and a cleared flag stays clear. -/
theorem mode1ExcludesMode2 : Obligations.Mode1ExcludesMode2 := by
  have converse : ∀ {c : ClassifierRegs}, (c.c1 = true → c.c2 = false ∧ c.c3 = false) →
      c.c2 = true ∨ c.c3 = true → c.c1 = false := fun hexclusive hmode2 =>
    Bool.eq_false_iff.2 fun hmode1 => by simp [hexclusive hmode1] at hmode2
  refine ⟨fun w n allow => ⟨candidates_exclusive, converse candidates_exclusive⟩, fun s w n allow hvalid hn => ?_,
    fun t w n allow hm => ?_⟩
  · have hexclusive := classifyWindow_exclusive s.tables (fullWindow s.draws w n) allow s.cls s.ecc hn
    exact ⟨_, exec_classify hvalid w n allow, hexclusive, converse hexclusive⟩
  · obtain ⟨hallow, hlong, hsync, hmode, hzero, -⟩ := hm
    obtain ⟨hc1, hc2, -⟩ := candidates_eq w n allow
    obtain ⟨hclear, -⟩ := candidates_exclusive (hc1.2 ⟨⟨hallow, hlong⟩, hsync, hmode, hzero⟩)
    have hne : slice w 0 4 ≠ slice w 4 4 := fun heq => Bool.false_ne_true (hclear.symm.trans (hc2.2 heq))
    exact ⟨fun ⟨_, heq, _⟩ => hne heq, fun ⟨_, heq, _⟩ => hne heq⟩

/-- Settles O34: the two classifications give one type, whether every byte is there or the `Mode1` candidate falls before
its parity check. -/
theorem classifyReadsOnlyItsWindow : Obligations.ClassifyReadsOnlyItsWindow := by
  intro s s' w w' n n' allow hvalid hvalid' htables hn hn' hbytes
  have htype : (classifyWindow s.tables (fullWindow s.draws w n) n allow s.cls s.ecc).type =
      (classifyWindow s'.tables (fullWindow s'.draws w' n') n' allow s'.cls s'.ecc).type := by
    rw [← htables]
    by_cases hlong : 2336 ≤ n
    · rcases hbytes with ⟨h, hw, hw'⟩ | ⟨hfails, h, hw, hw'⟩
      · exact classifyWindow_type_supplied hn hn' hlong h hw hw' ..
      · have hfallen : ¬Mode1BeforeParity s.tables w n allow := by
          rintro ⟨hallow, hmin, hsync, hmode, hzero, hck⟩
          rcases hfails with hf | hf | hf | hf | hf | hf
          · exact Bool.false_ne_true (hf.symm.trans hallow)
          · omega
          · exact hf hsync
          · exact hf hmode
          · exact hf hzero
          · exact hf hck
        exact classifyWindow_type_fallen hn hn' hfallen h (by omega) (by omega) ..
    · rw [classifyWindow_short (by omega), classifyWindow_short (by omega)]
  exact ⟨_, _, _, _, _, _, _, fun hw => draws_of_supplied hw _, fun hw => draws_of_supplied hw _,
    exec_classify hvalid w n allow, (exec_classify hvalid' w' n' allow).trans (by rw [htype])⟩

end

section
/-!
SUPPORT. The statements of 43_encoder.md: `encode` while no device fails and while one does, the weights of its block
counts, and the stream of a source too short for any sector.
-/

namespace Sys2Proof.Machine

/-! ## How `encode` ends (rules R134, R138, R170) -/

/-- The fields a part of `encode` may change, all at once. -/
theorem EncoderKeeps.eq {s t : State} (h : EncoderKeeps s t) : t =
    { s with
      snk := t.snk, ck := t.ck, stats := t.stats, enc := t.enc, cls := t.cls, ecc := t.ecc
      la := t.la, laPos := t.laPos } := by
  obtain ⟨htblValid, herr, htables, hframe, hsrc, hdec, hengine, hsnkStart, hresult, hhost, hsrcFail, hsnkCap, hdraws,
    -⟩ := h
  cases t
  subst htblValid herr htables hframe hsrc hdec hengine hsnkStart hresult hhost hsrcFail hsnkCap hdraws
  rfl

/-- An `encode` fails when the source fails before its end, or the sink cannot hold the stream. -/
theorem encodeIoFails_encodeAll (s : State) : encodeIoFails (encodeAll s) =
    (decide (s.srcLimit < s.src.length) || s.sinkFull (s.snk ++ Spec.stream s.tables s.src).length) := by
  have hkeeps := EncoderKeeps.encodeAll s
  unfold encodeIoFails State.srcLimit State.sinkFull
  rw [(encodeAll_eq s).1, hkeeps.src, hkeeps.srcFail, hkeeps.snkCap]

theorem exec_encode_succeeds {s : State} (hvalid : s.tblValid = true) (hn : s.NoIoFailure) :
    exec .encode s = .next (encodeAll s).succeed := by
  have hfails : encodeIoFails (encodeAll s) = false := by
    rw [encodeIoFails_encodeAll, hn.srcLimit, hn.sinkFull]; simp
  rw [exec_encode hvalid, encodeRun, hfails]
  rfl

theorem encodeRun_err (s : State) :
    (encodeRun s).err = if encodeIoFails (encodeAll s) then 5 else 0 := apply_ite State.err _ _ _

/-! ## What the block counts weigh (rule R137) -/

/-- Each block has the raw size of its type. -/
theorem Spec.map_length_blocks (t : Tables) : ∀ (rounds : Nat) (x : List Byte),
    (Spec.blocks t rounds x).map (List.length ∘ Prod.snd) = (Spec.blocks t rounds x).map (blockSize ∘ Prod.fst) := by
  intro rounds
  induction rounds with
  | zero => intro x; rfl
  | succ rounds ih =>
    intro x
    by_cases hx : x = []
    · rw [hx]; rfl
    · simp [Spec.blocks_cons hx, ih, blockSize_typeAt_le t hx]

/-- The raw sizes of a list of block types, from the number of blocks of each type. -/
theorem sum_blockSize (types : List SectorType) : (types.map blockSize).sum =
    types.count .literal + 2352 * types.count .mode1 + 2336 * (types.count .mode2form1 + types.count .mode2form2) := by
  induction types with
  | nil => rfl
  | cons type types ih =>
    rw [List.map_cons, List.sum_cons, ih]
    cases type <;> simp [blockSize] <;> omega

/-- The blocks of a source weigh as much as the source is long. -/
theorem Spec.sum_blockSize_blocks (t : Tables) (x : List Byte) :
    (((Spec.blocks t (x.length + 1) x).map Prod.fst).map blockSize).sum = x.length := by
  rw [List.map_map, ← Spec.map_length_blocks, ← List.map_map, ← List.length_flatten,
    Spec.flatten_blocks _ _ _ (Nat.le_succ _)]

/-! ## Sources too short for any sector (rules R139, R140, R142) -/

theorem Spec.typeAt_short (t : Tables) {x : List Byte} (h : x.length < 2336) : Spec.typeAt t x = .literal := by
  unfold Spec.typeAt
  rw [classifyWindow_short (by omega)]

/-- A source too short for any sector is a sequence of literal bytes. -/
theorem Spec.blocks_short (t : Tables) : ∀ (rounds : Nat) (x : List Byte), x.length ≤ rounds → x.length < 2336 →
    Spec.blocks t rounds x = (x.map ([·])).map (.literal, ·) := by
  intro rounds
  induction rounds with
  | zero => intro x h _; rw [List.length_eq_zero_iff.1 (Nat.le_zero.1 h)]; rfl
  | succ rounds ih =>
    intro x h hshort
    cases x with
    | nil => rfl
    | cons b x =>
      rw [List.length_cons] at h hshort
      rw [Spec.blocks_cons (List.cons_ne_nil b x), Spec.typeAt_short t (x := b :: x) hshort]
      simp [blockSize, ih x (by omega) (by omega)]

/-- Blocks of the type of the open run join it as long as it is not full. -/
theorem Spec.runsFrom_joins (type : SectorType) : ∀ blocks held : List (List Byte),
    held.length + blocks.length ≤ 0x7FFFFFFF →
    Spec.runsFrom type held (blocks.map (type, ·)) = [(type, held ++ blocks)] := by
  intro blocks
  induction blocks with
  | nil => intro held _; simp [Spec.runsFrom]
  | cons b blocks ih =>
    intro held h
    rw [List.length_cons] at h
    have hroom : held.length ≠ 0x7FFFFFFF := by omega
    rw [List.map_cons, Spec.runsFrom, if_pos ⟨rfl, hroom⟩, ih _ (by simp; omega), List.append_assoc]
    rfl

/-- Such a source is one run. -/
theorem Spec.runs_blocks_short (t : Tables) {x : List Byte} (hne : x ≠ []) (h : x.length < 2336) :
    Spec.runs (Spec.blocks t (x.length + 1) x) = [(.literal, x.map ([·]))] := by
  rw [Spec.blocks_short t _ x (Nat.le_succ _) h]
  cases x with
  | nil => exact absurd rfl hne
  | cons b x =>
    rw [List.length_cons] at h
    exact Spec.runsFrom_joins .literal (x.map ([·])) [[b]] (by simp; omega)

/-- The stream of an empty source (rule R139). -/
theorem Spec.stream_nil (t : Tables) : Spec.stream t [] =
    [0x45, 0x43, 0x4D, 0x00, 0xFC, 0xFF, 0xFF, 0xFF, 0x3F, 0x00, 0x00, 0x00, 0x00] := by
  have htrailer : le32 (t.fold 0 []) = [0, 0, 0, 0] := (by decide : le32 0 = [0, 0, 0, 0])
  rw [Spec.stream, htrailer]
  rfl

/-- A run of literal bytes is its header and these bytes. -/
theorem Spec.runBytes_literal (x : List Byte) :
    Spec.runBytes (.literal, x.map ([·])) = headerBytes .literal (BitVec.ofNat 32 x.length) ++ x := by
  simp [Spec.runBytes, payload, Function.comp_def, ← List.flatMap_def]

end Sys2Proof.Machine

open Sys2Proof Sys2Proof.Machine

/-- Settles O36: no device fails, so `encode` succeeds with the sink and `CK` that its loop leaves; the rest is what
every part of it keeps. -/
theorem encodeWritesTheStream : Obligations.EncodeWritesTheStream := by
  intro s hvalid hn
  obtain ⟨hsnk, -, -, -, hck⟩ := encodeAll_eq s
  have hdone := (EncoderKeeps.encodeAll s).eq
  rw [hsnk, hck] at hdone
  exact ⟨_, _, _, _, _, _, (exec_encode_succeeds hvalid hn).trans (congrArg (Host.Outcome.next ∘ State.succeed) hdone)⟩

/-- Settles O37: the counts are those of the block sequence, whose blocks are the source. -/
theorem encodeCountsItsBlocks : Obligations.EncodeCountsItsBlocks := by
  intro s hvalid hn
  obtain ⟨hsnk, hcount, hin, hout, -⟩ := encodeAll_eq s
  refine ⟨_, exec_encode_succeeds hvalid hn, hcount, hin, ?_, ?_⟩
  · rw [State.succeed_snk, State.succeed_stats, hsnk, hout, List.length_append]
  · have hweight := Spec.sum_blockSize_blocks s.tables s.src
    rw [sum_blockSize, ← hcount, ← hcount, ← hcount, ← hcount, ← hin] at hweight
    exact hweight

/-- Settles O38: refused before the tables are built; after that `ERR` is 5 exactly when a device failed, and 0
otherwise. -/
theorem encodeFailsOnlyOnIo : Obligations.EncodeFailsOnlyOnIo := by
  intro s
  cases hvalid : s.tblValid with
  | false =>
    exact ⟨_, exec_notReady hvalid nofun nofun, .inr (.inr rfl), iff_of_true rfl rfl, List.prefix_refl _, nofun⟩
  | true =>
    have herr := encodeRun_err s
    refine ⟨_, exec_encode hvalid, ?_, ?_, prefix_encodeRun_snk s, fun _ => ⟨fun hn => ?_, fun k hfail hk => ?_,
      fun k hcap hk => ?_⟩⟩
    · rw [herr]; split <;> simp
    · rw [herr]; split <;> decide
    · rw [herr, encodeIoFails_encodeAll, hn.srcLimit, hn.sinkFull]; simp
    · rw [herr, encodeIoFails_encodeAll, srcLimit_of_srcFail hfail hk]; simp [hk]
    · rw [herr, encodeIoFails_encodeAll, sinkFull_of_snkCap hcap hk]; simp

/-- Settles O39: every window is too short for a sector, so the blocks are literal bytes and they fit in one run. -/
theorem shortSourceIsOneLiteralRecord : Obligations.ShortSourceIsOneLiteralRecord := by
  intro s hvalid hn hne hshort
  refine ⟨_, exec_encode_succeeds hvalid hn, rfl, ?_⟩
  rw [State.succeed_snk, (encodeAll_eq s).1, Spec.stream, Spec.runs_blocks_short _ hne hshort]
  simp [Spec.runBytes_literal]

/-- Settles O35: an empty source has no blocks, and the fold of no bytes is 0. -/
theorem emptySourceEncodes : Obligations.EmptySourceEncodes := by
  intro s hvalid hn hsrc
  refine ⟨_, exec_encode_succeeds hvalid hn, ?_, rfl, rfl⟩
  rw [State.succeed_snk, (encodeAll_eq s).1, hsrc, Spec.stream_nil]

end

section
/-!
SUPPORT. The statements of 44_decoder.md: the records that stand for what `encode` wrote, and what each record does on a
source that holds its payload and on one that does not.
-/

namespace Sys2Proof.Machine

/-! ## A block the classifier found is the one its payload stands for (rules R62 to R65, R150 to R152) -/

theorem slice_append_right {x y : List Byte} {a n : Nat} (hx : x.length = a) (hy : y.length = n) :
    slice (x ++ y) a n = y := by
  rw [slice, List.drop_left' hx, List.take_of_length_le hy.le]

/-- A `Mode1` payload holds the address and the user data one after the other (rule R63). -/
theorem isBlock_of_mode1Window {t : Tables} {b : List Byte} {n : Nat} {allow : Bool} (hlength : b.length = 2352)
    (h : Spec.Mode1Window t b n allow) : Spec.IsBlock t .mode1 (payload .mode1 b) b := by
  obtain ⟨-, -, hsync, hmode, hreserved, hchecksum, hparity⟩ := h
  have haddress : (slice b 0x00C 3).length = 3 := length_slice_of_le (by omega)
  have hdata : (slice b 0x010 2048).length = 2048 := length_slice_of_le (by omega)
  rw [List.take_of_length_le hlength.le] at hparity
  refine ⟨by rw [payload, List.length_append, haddress, hdata], hlength, hsync, ?_, hmode,
    (slice_append_right haddress hdata).symm, hchecksum, hreserved, hparity⟩
  rw [payload, slice_zero_left, List.take_left' haddress]

/-- In a Mode2 block the first four bytes are those its payload begins with (rule R115). -/
theorem slice_payload_address {b : List Byte} {n : Nat} (hn : 4 ≤ n) (h : slice b 0 4 = slice b 4 4) :
    slice b 0 4 = slice (slice b 4 n) 0 4 := by
  rw [h, slice_zero_left, slice, slice, List.take_take, Nat.min_eq_left hn]

theorem isBlock_of_mode2Form1Window {t : Tables} {b : List Byte} {n : Nat} (hlength : b.length = 2336)
    (h : Spec.Mode2Form1Window t b n) : Spec.IsBlock t .mode2form1 (payload .mode2form1 b) b := by
  obtain ⟨-, haddress, hchecksum, hparity⟩ := h
  rw [List.take_of_length_le hlength.le] at hparity
  exact ⟨length_slice_of_le (by omega), hlength, slice_payload_address (by decide) haddress, rfl, hchecksum, hparity⟩

theorem isBlock_of_mode2Form2Window {t : Tables} {b : List Byte} {n : Nat} (hlength : b.length = 2336)
    (h : Spec.Mode2Form2Window t b n) : Spec.IsBlock t .mode2form2 (payload .mode2form2 b) b := by
  obtain ⟨-, haddress, hchecksum⟩ := h
  exact ⟨length_slice_of_le (by omega), hlength, slice_payload_address (by decide) haddress, rfl, hchecksum⟩

/-- The block at the head of a source: its type was decided by the checks on a window that begins with the block. -/
theorem Spec.isBlock_typeAt (t : Tables) {x : List Byte} (hx : x ≠ []) :
    Spec.IsBlock t (Spec.typeAt t x) (payload (Spec.typeAt t x) (x.take (blockSize (Spec.typeAt t x))))
      (x.take (blockSize (Spec.typeAt t x))) := by
  have hlength : (x.take (blockSize (Spec.typeAt t x))).length = blockSize (Spec.typeAt t x) :=
    List.length_take_of_le (blockSize_typeAt_le t hx)
  have hshort : (x.take 2352).take 2336 = (x.take 2336).take 2336 := by rw [List.take_take, List.take_take]; rfl
  obtain ⟨hmode1, hmode2form1, hmode2form2⟩ := classifyWindow_type t (x.take 2352) (min x.length 2352)
    (decide (2352 ≤ x.length)) State.reset.cls State.reset.ecc
  change Spec.typeAt t x = _ ↔ _ at hmode1 hmode2form1 hmode2form2
  cases htype : Spec.typeAt t x with
  | literal => rw [htype] at hlength; exact ⟨hlength, rfl⟩
  | mode1 => rw [htype] at hlength; exact isBlock_of_mode1Window hlength (hmode1.1 htype)
  | mode2form1 =>
    rw [htype] at hlength
    exact isBlock_of_mode2Form1Window hlength ((mode2Form1Window_congr Iff.rfl hshort).1 (hmode2form1.1 htype).1)
  | mode2form2 =>
    rw [htype] at hlength
    exact isBlock_of_mode2Form2Window hlength ((mode2Form2Window_congr Iff.rfl hshort).1 (hmode2form2.1 htype).1)

/-- Every block of a source is the one its payload stands for. -/
theorem Spec.isBlock_of_mem_blocks (t : Tables) : ∀ (rounds : Nat) (x : List Byte), ∀ p ∈ Spec.blocks t rounds x,
    Spec.IsBlock t p.1 (payload p.1 p.2) p.2 := by
  intro rounds
  induction rounds with
  | zero => intro x p hp; cases hp
  | succ rounds ih =>
    intro x p hp
    cases x with
    | nil => cases hp
    | cons b x =>
      have hne : b :: x ≠ [] := List.cons_ne_nil b x
      rw [Spec.blocks_cons hne] at hp
      rcases List.mem_cons.1 hp with rfl | hp
      · exact Spec.isBlock_typeAt t hne
      · exact ih _ p hp

/-! ## The runs of the encoder are records of the decoder (rules R54, R130, R136) -/

/-- The record the encoder writes for a run. -/
def Spec.recordOfRun (run : SectorType × List (List Byte)) : Spec.Record where
  type     := run.1
  header   := headerBytes run.1 (BitVec.ofNat 32 run.2.length)
  payloads := run.2.map (payload run.1)
  blocks   := run.2

theorem Spec.bytes_comp_recordOfRun : Spec.Record.bytes ∘ Spec.recordOfRun = Spec.runBytes := rfl

theorem Spec.recordOfRun_legal {t : Tables} {run : SectorType × List (List Byte)}
    (hcount : legalCount run.2.length = true) (hblocks : ∀ b ∈ run.2, Spec.IsBlock t run.1 (payload run.1 b) b) :
    (Spec.recordOfRun run).Legal t := by
  refine ⟨?_, List.forall₂_map_left_iff.2 (List.forall₂_same.2 hblocks)⟩
  have hheader := decodeRecord_headerBytes (recordOfHeader_of_legalCount hcount run.1) []
  rw [List.append_nil] at hheader
  rw [Spec.recordOfRun, List.length_map]
  exact hheader

theorem legalCount_length {held : List (List Byte)} (hne : held ≠ []) (h : held.length ≤ 0x7FFFFFFF) :
    legalCount held.length = true := by
  have hpos := List.length_pos_iff.2 hne
  rw [legalCount, Bool.and_eq_true, decide_eq_true_eq, decide_eq_true_eq]
  omega

/-- The runs from an open run on: a run holds from one to `0x7FFFFFFF` blocks, all of its type. -/
theorem Spec.legal_of_mem_runsFrom {t : Tables} : ∀ (blocks : List (SectorType × List Byte)) (type : SectorType)
    (held : List (List Byte)), held ≠ [] → held.length ≤ 0x7FFFFFFF →
    (∀ b ∈ held, Spec.IsBlock t type (payload type b) b) →
    (∀ p ∈ blocks, Spec.IsBlock t p.1 (payload p.1 p.2) p.2) →
    ∀ run ∈ Spec.runsFrom type held blocks, (Spec.recordOfRun run).Legal t := by
  intro blocks
  induction blocks with
  | nil =>
    intro type held hne hlength hheld _ run hrun
    cases List.mem_singleton.1 hrun
    exact Spec.recordOfRun_legal (legalCount_length hne hlength) hheld
  | cons p blocks ih =>
    intro type held hne hlength hheld hblocks run hrun
    obtain ⟨hp, hblocks⟩ := List.forall_mem_cons.1 hblocks
    rw [Spec.runsFrom] at hrun
    split at hrun
    case isTrue hjoins =>
      obtain ⟨htype, hroom⟩ := hjoins
      refine ih type (held ++ [p.2]) (by simp) (by rw [List.length_append, List.length_singleton]; omega) ?_ hblocks run
        hrun
      intro b hb
      rcases List.mem_append.1 hb with hb | hb
      · exact hheld b hb
      · rw [List.mem_singleton.1 hb, ← htype]; exact hp
    case isFalse =>
      rcases List.mem_cons.1 hrun with rfl | hrun
      · exact Spec.recordOfRun_legal (legalCount_length hne hlength) hheld
      · exact ih p.1 [p.2] (by simp) (by simp) (List.forall_mem_singleton.2 hp) hblocks run hrun

theorem Spec.legal_of_mem_runs {t : Tables} {blocks : List (SectorType × List Byte)}
    (h : ∀ p ∈ blocks, Spec.IsBlock t p.1 (payload p.1 p.2) p.2) :
    ∀ run ∈ Spec.runs blocks, (Spec.recordOfRun run).Legal t := by
  cases blocks with
  | nil => nofun
  | cons p blocks =>
    obtain ⟨hp, hblocks⟩ := List.forall_mem_cons.1 h
    exact Spec.legal_of_mem_runsFrom blocks p.1 [p.2] (by simp) (by simp) (List.forall_mem_singleton.2 hp) hblocks

/-- Cutting a block sequence into runs loses no byte and keeps the order. -/
theorem Spec.output_runsFrom : ∀ (blocks : List (SectorType × List Byte)) (type : SectorType)
    (held : List (List Byte)), Spec.output ((Spec.runsFrom type held blocks).map Spec.recordOfRun) =
      held.flatten ++ (blocks.map Prod.snd).flatten := by
  intro blocks
  induction blocks with
  | nil => intro type held; simp [Spec.runsFrom, Spec.output, Spec.recordOfRun]
  | cons p blocks ih =>
    intro type held
    rw [Spec.runsFrom]
    split
    · rw [ih]; simp
    · have hrest := ih p.1 [p.2]
      rw [Spec.output] at hrest ⊢
      rw [List.map_cons, List.map_cons, List.flatten_cons, hrest]
      simp [Spec.recordOfRun]

theorem Spec.output_runs (blocks : List (SectorType × List Byte)) :
    Spec.output ((Spec.runs blocks).map Spec.recordOfRun) = (blocks.map Prod.snd).flatten := by
  cases blocks with
  | nil => rfl
  | cons p blocks => rw [Spec.runs, Spec.output_runsFrom]; simp

/-- The records `encode` writes for a source (rule R135). -/
def Spec.recordsOf (t : Tables) (x : List Byte) : List Spec.Record :=
  (Spec.runs (Spec.blocks t (x.length + 1) x)).map Spec.recordOfRun

theorem Spec.recordsOf_legal (t : Tables) (x : List Byte) : ∀ r ∈ Spec.recordsOf t x, r.Legal t :=
  List.forall_mem_map.2 (Spec.legal_of_mem_runs (Spec.isBlock_of_mem_blocks t _ x))

theorem Spec.output_recordsOf (t : Tables) (x : List Byte) : Spec.output (Spec.recordsOf t x) = x := by
  rw [Spec.recordsOf, Spec.output_runs, Spec.flatten_blocks t _ x (Nat.le_succ _)]

/-- The stream `encode` writes is a stream of legal records whose trailer is right. -/
theorem Spec.stream_eq_streamOf (t : Tables) (x : List Byte) : Spec.stream t x =
    Spec.streamOf (Spec.recordsOf t x) [0xFC, 0xFF, 0xFF, 0xFF, 0x3F]
      (le32 (t.fold 0 (Spec.output (Spec.recordsOf t x)))) := by
  rw [Spec.output_recordsOf, Spec.recordsOf, Spec.streamOf, List.map_map, Spec.bytes_comp_recordOfRun, Spec.stream]

/-! ## A record on its own (rules R150 to R152, R167) -/

/-- What a host sees of a record that does not find all its payload. -/
theorem exec_recordOf_short (type : SectorType) {s : State} {count : Nat} (hvalid : s.tblValid = true)
    (hn : s.NoIoFailure) (hcount : 1 ≤ count) (hl : s.src.length < s.dec.rpos + payloadSize type * count) :
    ∃ t, exec (recordOf type count) s = .next t ∧ t.err = 2 ∧ t.engine = .idle ∧
      t.result = .error .unexpectedEndOfInput := by
  obtain ⟨u, hu⟩ := runRecord_short type hn hcount hl
  exact ⟨_, (exec_recordOf hvalid type count).trans (congrArg _ hu), rfl, rfl, rfl⟩

/-- Everything a record of sectors does on a source that holds its payload. -/
theorem exec_recordOf_sectors {type : SectorType} {base : Nat} {build : Tables → List Byte → EccRegs → Memory → EccOut}
    (hb : BuilderMakes type base build) {s : State} {count : Nat}
    (hrun : runRecord type count s = settle (sectorLoop (rebuildSector type base build) count (s.withLeft count)))
    (hvalid : s.tblValid = true) (hn : s.NoIoFailure) (hw : s.frame.wf)
    (hl : s.dec.rpos + payloadSize type * count ≤ s.src.length) :
    ∃ (sectors : List (List Byte)) (m : Memory) (regs : EccRegs), sectors.length = count ∧ m.wf ∧
      (∀ k < count, Spec.IsBlock s.tables type
        (slice s.src (s.dec.rpos + payloadSize type * k) (payloadSize type)) (sectors.getD k [])) ∧
      (∀ last, sectors.getLast? = some last → m.readBytes base (blockSize type) = last) ∧
      (∀ a < base, m.read a = s.frame.read a) ∧ ((∀ t pay r m, (build t pay r m).regs = r) → regs = s.ecc) ∧
      exec (recordOf type count) s = .next { s with
        snk := s.snk ++ sectors.flatten, ck := s.tables.fold s.ck sectors.flatten, frame := m, ecc := regs
        dec := { s.dec with rpos := s.dec.rpos + payloadSize type * count, recLeft := 0 } } := by
  obtain ⟨sectors, m, regs, hlength, hm, hkept, hblocks, hregs, hlast, hloop⟩ := settle_sectorLoop_ok hb hn hw hl
  refine ⟨sectors, m, regs, hlength, hm, hblocks, fun last h => ?_, hkept, hregs, ?_⟩
  · rw [h] at hlast; exact hlast
  · rw [exec_recordOf hvalid, hrun, hloop]

/-- The trailer of a source that ends within it (rules R158, R167). -/
theorem runTrailer_short {s : State} (hn : s.NoIoFailure) (hl : s.src.length < s.dec.rpos + 4) :
    runTrailer s = raise .unexpectedEndOfInput s := by
  rw [runTrailer, srcRead_of_not_le (by rw [hn.srcLimit]; omega), hn.shortError]
  rfl

end Sys2Proof.Machine

open Sys2Proof Sys2Proof.Machine

/-- Settles O50: the stream is made of the legal records that stand for the source's own blocks, so `decode` gives these
back. -/
theorem streamRoundTrip : Obligations.StreamRoundTrip := by
  intro s u hvalid hn hvalid' htables hn' hw
  obtain ⟨stats, enc, cls, regs, la, laPos, hencode⟩ := encodeWritesTheStream s hvalid hn
  refine ⟨_, hencode, rfl, fun hsrc => ?_⟩
  have hstream : u.src = Spec.streamOf (Spec.recordsOf u.tables s.src) [0xFC, 0xFF, 0xFF, 0xFF, 0x3F]
      (le32 (u.tables.fold 0 (Spec.output (Spec.recordsOf u.tables s.src)))) ++ [] := by
    rw [hsrc, List.drop_left, htables, List.append_nil, Spec.stream_eq_streamOf]
  obtain ⟨dec, regs, m, -, -, -, -, hdecode⟩ := decodeExecutesTheRecords u (Spec.recordsOf u.tables s.src)
    [0xFC, 0xFF, 0xFF, 0xFF, 0x3F] [] hvalid' hn' hw (Spec.recordsOf_legal u.tables s.src) (by decide) hstream
  exact ⟨_, hdecode, rfl, rfl, congrArg (u.snk ++ ·) (Spec.output_recordsOf u.tables s.src)⟩

/-- Settles O41: one read of the whole payload, which is there or is not. -/
theorem litCopiesItsPayload : Obligations.LitCopiesItsPayload := by
  intro s count hvalid hn
  have hexec : exec (.lit count) s = .next (runLit count s) := exec_recordOf hvalid .literal count
  refine ⟨fun hl => hexec.trans (congrArg _ (runLit_ok hn hl)), fun hl => ?_⟩
  rw [hexec, runLit_short (by rwa [hn.srcLimit]), hn.shortError]
  exact ⟨_, rfl, rfl, rfl, rfl⟩

/-- Settles O43: the loop over the sectors of an `M2F1` record. -/
theorem m2F1RebuildsItsSectors : Obligations.M2F1RebuildsItsSectors := by
  refine fun s count hvalid hn hw => ⟨fun hl => ?_, exec_recordOf_short .mode2form1 hvalid hn⟩
  obtain ⟨sectors, m, regs, hlength, hm, hblocks, hlast, hkept, -, hexec⟩ :=
    exec_recordOf_sectors buildMode2Form1_makes rfl hvalid hn hw hl
  exact ⟨sectors, m, regs, hlength, hm, fun k hk => (hblocks k hk).2, hlast, hkept, hexec⟩

/-- Settles O44: the loop over the sectors of an `M2F2` record, whose builder hands the ECC Engine's registers on. -/
theorem m2F2RebuildsItsSectors : Obligations.M2F2RebuildsItsSectors := by
  refine fun s count hvalid hn hw => ⟨fun hl => ?_, exec_recordOf_short .mode2form2 hvalid hn⟩
  obtain ⟨sectors, m, regs, hlength, hm, hblocks, hlast, hkept, hregs, hexec⟩ :=
    exec_recordOf_sectors buildMode2Form2_makes rfl hvalid hn hw hl
  rw [hregs fun _ _ _ _ => rfl] at hexec
  exact ⟨sectors, m, hlength, hm, fun k hk => (hblocks k hk).2, hlast, hkept, hexec⟩

/-- Settles O45: `END` does no more than hand over to the trailer. -/
theorem endGoesOnToTheTrailer : Obligations.EndGoesOnToTheTrailer := fun _ => rfl

/-- Settles O46: the read of the four bytes succeeds or is short; the comparison decides the rest. -/
theorem trailerIsCompared : Obligations.TrailerIsCompared := by
  intro s hengine hn
  rw [step_trailer hengine]
  refine ⟨fun hl => ⟨fun heq => ?_, fun hne => ?_⟩, fun hl => ?_⟩
  · rw [runTrailer_ok hn hl, if_pos heq]; rfl
  · rw [runTrailer_ok hn hl, if_neg hne]; rfl
  · rw [runTrailer_short hn hl]
    exact ⟨_, rfl, rfl, rfl, rfl⟩

end

section
/-!
SUPPORT. The statements of 60_exceptions.md: the errors a `decode` raises at its magic, at a header that is cut off and
at its trailer, and that every operation ends with success or a typed error.
-/

namespace Sys2Proof.Machine

/-! ## The errors of `decode` (rules R166, R167, R169) -/

/-- An error at the start is the end of the `decode`. -/
theorem decodeRun_of_decodeStart_raise {s u : State} {e : ErrorCode} (h : decodeStart s = raise e u) :
    decodeRun s = raise e u := by rw [decodeRun, h, decodeLoop_idle _ rfl]

/-- A source without the magic (rules R145, R166). -/
theorem decodeRun_without_magic {s : State} (hn : s.NoIoFailure) (h : s.src.take 4 ≠ magic) :
    decodeRun s = raise .malformedHeader s.opened := by
  refine decodeRun_of_decodeStart_raise ?_
  have hlimit : s.opened.srcLimit = s.src.length := State.NoIoFailure.srcLimit (s := s.opened) hn
  rw [decodeStart_eq, hlimit, if_neg (Nat.not_lt.2 (Nat.min_le_right _ _)), if_neg h]

/-- A header that is cut off, by the end of the source or by a failing device (rules R58, R167, R170). -/
theorem fetchHeader_short {s : State} (h : (parseHeader s.readable).value = .error .headerShort) :
    fetchHeader s = .error ⟨s.shortError, s.advanceRead (parseHeader s.readable).used⟩ := by
  rcases fetchHeader_cases s with ⟨f, hf, -⟩ | ⟨e, he, hfetch⟩
  · rw [h] at hf; cases hf
  · rw [h] at he; cases he
    exact hfetch

/-- The rounds of `decode` end at a header that the end of the source cuts off (rule R167). -/
theorem decodeLoop_cut {s : State} (rounds : Nat) (hn : s.NoIoFailure) (hengine : s.engine = .records)
    (hcut : (parseHeader (s.src.drop s.dec.rpos)).value = .error .headerShort) :
    ∃ u, decodeLoop (rounds + 1) s = raise .unexpectedEndOfInput u := by
  have hround : recordRound s = raise .unexpectedEndOfInput (s.advanceRead (parseHeader s.readable).used) := by
    rw [recordRound, fetchHeader_short (by rwa [hn.readable]), hn.shortError]
  have hstep : decodeLoop (rounds + 1) s = decodeLoop rounds (recordRound s) := by rw [decodeLoop, hengine]
  exact ⟨_, by rw [hstep, hround, decodeLoop_idle _ rfl]⟩

/-- `decode` of legal records after which a header is cut off; nothing at all is such a header (rules R54, R167). -/
theorem decodeRun_cut {s : State} {recs : List Spec.Record} {cut : List Byte} (hn : s.NoIoFailure) (hw : s.frame.wf)
    (hlegal : ∀ r ∈ recs, r.Legal s.tables) (hcut : (parseHeader cut).value = .error .headerShort)
    (hsrc : s.src = [0x45, 0x43, 0x4D, 0x00] ++ ((recs.map Spec.Record.bytes).flatten ++ cut)) :
    ∃ u, decodeRun s = raise .unexpectedEndOfInput u := by
  obtain ⟨rounds, hrounds⟩ : ∃ rounds, s.src.length + 1 = (rounds + 1) + recs.length := by
    have hle := length_records hlegal
    refine ⟨s.src.length - recs.length, ?_⟩
    rw [hsrc, List.length_append, List.length_append]
    omega
  obtain ⟨m, regs, dec, -, hpos, -, hloop⟩ := decodeLoop_records recs
    { s with dec := { s.dec with rpos := 4 }, ck := 0, snkStart := s.snk.length, engine := .records } (rounds + 1) cut
    hn hw rfl hlegal (by rw [hsrc]; rfl)
  rw [decodeRun, decodeStart_magic hn hsrc, hrounds, hloop]
  refine decodeLoop_cut rounds hn rfl ?_
  have hpos : dec.rpos = 4 + (recs.map Spec.Record.bytes).flatten.length := hpos
  have hdrop : s.src.drop dec.rpos = cut := by
    rw [hpos, hsrc, ← List.append_assoc]
    exact List.drop_left' (by rw [List.length_append]; rfl)
  show (parseHeader (s.src.drop dec.rpos)).value = _
  rw [hdrop, hcut]

/-! ## How an operation ends (rules R165, R172, R197) -/

/-- A state whose engine is idle shows success, or an error with its code. -/
def State.EndsTyped (s : State) : Prop :=
  s.engine = .idle → (s.result = .success ∧ s.err = 0) ∨ ∃ e : ErrorCode, s.result = .error e ∧ s.err = e.code

theorem State.EndsTyped.raise (e : ErrorCode) (s : State) : (raise e s).EndsTyped := fun _ => .inr ⟨e, rfl, rfl⟩

theorem State.EndsTyped.succeed (s : State) : s.succeed.EndsTyped := fun _ => .inl ⟨rfl, rfl⟩

theorem State.EndsTyped.of_running {s : State} (h : s.engine ≠ .idle) : s.EndsTyped := fun hidle => absurd hidle h

/-- The end of a part of `decode` that raises, or ends well with the engine as it was. -/
theorem State.EndsTyped.settle {s : State} {x : Except Abort State} (hrun : s.engine ≠ .idle) (hx : Moves s x) :
    (settle x).EndsTyped := by
  cases x with
  | error a => exact .raise a.error a.state
  | ok t =>
    obtain ⟨hengine, -⟩ := hx t rfl
    exact .of_running (by rwa [settle_ok, hengine])

theorem State.EndsTyped.snkWrite {s : State} (hrun : s.engine ≠ .idle) (bytes : List Byte) :
    (Machine.settle (snkWrite bytes s)).EndsTyped := by
  rcases snkWrite_cases bytes s with hwrite | hwrite <;> rw [hwrite]
  · exact .of_running hrun
  · exact .raise .ioError s

theorem State.EndsTyped.runLit {s : State} (hrun : s.engine ≠ .idle) (count : Nat) : (runLit count s).EndsTyped := by
  unfold Machine.runLit
  rcases srcRead_cases s.dec.rpos count (s.withLeft count) with ⟨-, hread⟩ | ⟨-, hread⟩ <;> rw [hread]
  · refine State.EndsTyped.snkWrite ?_ _
    exact hrun
  · exact .raise _ _

theorem State.EndsTyped.runRecord {s : State} (hrun : s.engine ≠ .idle) (type : SectorType) (count : Nat) :
    (runRecord type count s).EndsTyped := by
  cases type with
  | literal => exact .runLit hrun count
  | mode1 | mode2form1 | mode2form2 =>
    exact .settle (s := s.withLeft count) hrun (moves_sectorLoop (moves_rebuildSector _ _ _) count _)

/-- Reading a header leaves the engine inside the `decode`. -/
theorem engine_of_fetchHeader {s t : State} {f : SectorType × Nat} (h : fetchHeader s = .ok (f, t)) :
    t.engine = s.engine := by
  rcases fetchHeader_cases s with ⟨f', -, hfetch⟩ | ⟨e, -, hfetch⟩ <;> rw [hfetch] at h <;> cases h
  rfl

theorem State.EndsTyped.recordRound {s : State} (hrun : s.engine ≠ .idle) : (recordRound s).EndsTyped := by
  rcases recordRound_cases s with ⟨e, u, -, hround⟩ | ⟨f, u, hfetch, -, ⟨-, hround⟩ | ⟨-, hround⟩⟩ <;> rw [hround]
  · exact .raise e u
  · exact .of_running nofun
  · exact .runRecord (by rwa [engine_of_fetchHeader hfetch]) f.1 (f.2 + 1)

theorem State.EndsTyped.runTrailer (s : State) : (runTrailer s).EndsTyped := by
  unfold Machine.runTrailer
  rcases srcRead_cases s.dec.rpos 4 s with ⟨-, hread⟩ | ⟨-, hread⟩ <;> rw [hread]
  · show (Machine.settle (if _ then _ else _)).EndsTyped
    split
    · exact .succeed _
    · exact .raise _ _
  · exact .raise _ _

theorem State.EndsTyped.decodeLoop : ∀ (rounds : Nat) {s : State}, s.EndsTyped → (decodeLoop rounds s).EndsTyped := by
  intro rounds
  induction rounds with
  | zero => exact id
  | succ rounds ih =>
    intro s h
    unfold Machine.decodeLoop
    cases hengine : s.engine with
    | idle => exact h
    | records => exact ih (.recordRound (by rw [hengine]; nofun))
    | trailer => exact ih (.runTrailer s)

theorem State.EndsTyped.decodeRun (s : State) : (decodeRun s).EndsTyped := by
  refine .decodeLoop _ ?_
  rcases decodeStart_cases s with ⟨e, u, hstart, -⟩ | ⟨hstart, -, -⟩ <;> rw [hstart]
  · exact .raise e u
  · exact .of_running nofun

theorem encodeRun_engine (s : State) : (encodeRun s).engine = .idle := by
  rcases encodeRun_cases s with h | h <;> rw [h] <;> rfl

theorem State.EndsTyped.encodeRun (s : State) : (encodeRun s).EndsTyped := by
  rcases encodeRun_cases s with h | h <;> rw [h]
  · exact .succeed _
  · exact .raise .ioError (encodeAll s)

/-- Every effect of an operation on an idle engine leaves it idle. -/
theorem Effect.engine_idle {s t : State} {i : Instr} (h : Effect s i t) (hi : isOperation i = true)
    (hidle : s.engine = .idle) : t.engine = .idle := by
  cases h with
  | tablesBuilt | answered => exact hidle
  | notReady => rfl
  | encoded => exact encodeRun_engine s
  | decoded => exact decodeRun_engine s
  | record type count => rw [isOperation_recordOf] at hi; cases hi
  | recordsEnded => cases hi

/-- Every effect of `encode` or `decode` is a typed end. -/
theorem Effect.endsTyped {s t : State} {i : Instr} (h : Effect s i t) (hi : i = .encode ∨ i = .decode) :
    t.EndsTyped := by
  cases h with
  | notReady => exact .raise .notReady s
  | encoded => exact .encodeRun s
  | decoded => exact .decodeRun s
  | answered answers => rcases hi with rfl | rfl <;> cases answers
  | record type count =>
    have hrecord : isOperation (recordOf type count) = false := isOperation_recordOf type count
    rcases hi with hi | hi <;> rw [hi] at hrecord <;> cases hrecord
  | tablesBuilt | recordsEnded => rcases hi with hi | hi <;> cases hi

end Sys2Proof.Machine

open Sys2Proof Sys2Proof.Machine

/-- Settles O40: the first four bytes are compared with the magic before anything is written. -/
theorem decodeNeedsTheMagic : Obligations.DecodeNeedsTheMagic := by
  intro s hvalid hn h
  have hmagic : s.src.take 4 ≠ magic := by
    rcases h with hshort | hne
    · intro heq
      have hlength := congrArg List.length heq
      rw [List.length_take, show magic.length = 4 from rfl] at hlength
      omega
    · exact hne
  rw [exec_decode hvalid, decodeRun_without_magic hn hmagic]
  exact ⟨_, rfl, rfl, rfl, rfl, rfl⟩

/-- Settles O48: `CK` is the checksum of what the records stand for when the trailer is compared. -/
theorem corruptedTrailerIsDetected : Obligations.CorruptedTrailerIsDetected := by
  intro s recs sentinel trailer junk hvalid hn hw hlegal hend htrailer hne hsrc
  obtain ⟨m, regs, dec, u, -, -, -, rfl, hrun⟩ := decodeRun_streamOf hn hw hlegal hend htrailer hsrc
  rw [exec_decode hvalid, hrun, if_neg hne]
  exact ⟨_, rfl, rfl, rfl, rfl⟩

/-- Settles O49: a header that is cut off, in a step and as the end of a stream, and a payload past the offset at which
the source fails. -/
theorem shortReadsEndTheDecode : Obligations.ShortReadsEndTheDecode := by
  refine ⟨fun s hengine hn hcut => ?header, fun s recs hvalid hn hw hlegal hsrc => ?stream,
    fun s count k hvalid hfail hk hl => ?payload⟩
  case header =>
    rw [step_records hengine, recordStep, fetchHeader_short hcut, hn.shortError]
    exact ⟨_, rfl, rfl, rfl, rfl⟩
  case stream =>
    obtain ⟨u, hu⟩ := decodeRun_cut (cut := []) hn hw hlegal rfl (by rwa [List.append_nil])
    rw [exec_decode hvalid, hu]
    exact ⟨_, rfl, rfl, rfl, rfl⟩
  case payload =>
    have hinside : k < s.src.length := hk.trans_le hl
    have hlimit : s.srcLimit = k := srcLimit_of_srcFail hfail hinside
    have hexec : exec (.lit count) s = .next (runLit count s) := exec_recordOf hvalid .literal count
    rw [hexec, runLit_short (by rwa [hlimit]), State.shortError_of_fail (by rwa [hlimit])]
    exact ⟨_, rfl, rfl, rfl, rfl⟩

/-- Settles O52: by the effect of the operation; `encode` and `decode` end only by succeeding or by raising. -/
theorem everyOperationEnds : Obligations.EveryOperationEnds := by
  intro i s hi hidle
  obtain ⟨t, hexec, heffect⟩ := exists_effect i s
  have hend : t.engine = .idle := heffect.engine_idle hi hidle
  exact ⟨t, hexec, hend, fun hstream => heffect.endsTyped hstream hend⟩

/-- Settles O51: `END` is no operation, so the refusal of the others is the one of all that read the tables. -/
theorem notReadyDoesNothingElse : Obligations.NotReadyDoesNothingElse := by
  intro i s hi hbuild hidle hinvalid
  have hend : i ≠ .endRecord := by rintro rfl; cases hi
  rw [exec_notReady hinvalid hbuild hend, raise_notReady, ← hidle]

end
